-- ==== Sys2Proof/Word.lean ====
section
/-! DEFINITION. The words of the three channels and the plain values the block computes with:
complex samples, SNR figures, the tagged values of the lock state machine, payload regions
(spec/00_scope.md R13, R15, R16; spec/10_state.md R29, R31, R32, R36; spec/44_frame.md R211). -/

namespace Sys2Proof

/-- A word of CMD, EVT or RET: 32 bits, bit 0 the least significant (R13, R90). -/
abbrev Word := BitVec 32

/-- One byte of a payload (R68). -/
abbrev Byte := BitVec 8

/-- A complex sample: the in-phase part and the quadrature part, unbounded integers (R15). -/
structure Sample where
  i : Int
  q : Int
deriving DecidableEq, Repr

/-- The sample `(0, 0)`. -/
def Sample.zero : Sample := ⟨0, 0⟩

/-- The value is in `sN`, the signed two's-complement integers of `n` bits (R13). -/
abbrev Fits (n : Nat) (v : Int) : Prop := -(2 : Int) ^ (n - 1) ≤ v ∧ v < (2 : Int) ^ (n - 1)

/-- Both parts of the sample are in `sN` (R15). -/
abbrev Sample.Fits (n : Nat) (x : Sample) : Prop := Sys2Proof.Fits n x.i ∧ Sys2Proof.Fits n x.q

/-- A vector of `n` samples with parts in `sW` (the type `Vector C n` of the spec). -/
abbrev IsWindow (w n : Nat) (l : List Sample) : Prop := l.length = n ∧ ∀ x ∈ l, x.Fits w

/-- An SNR figure: summed signal power and summed noise power (R16). -/
structure SnrT where
  S : Nat
  N : Nat
deriving DecidableEq, Repr

/-- A frequency offset, passed from the correlator to the tracker and never computed with (R31).
DESIGN CHOICE (log 2): an integer stands for the spec's opaque type. -/
abbrev FreqOff := Int

/-- The tracker's context, which the block never looks inside (R32).
DESIGN CHOICE (log 2): a list of integers stands for the spec's opaque type. -/
abbrev SyncCtx := List Int

/-- One received value of the decoder's input (R211).
DESIGN CHOICE (log 2): an integer stands for the spec's opaque type. -/
abbrev Soft := Int

/-- One demodulated OFDM symbol: its subcarrier values, indexed by subcarrier number (R190). -/
abbrev Symbol := List Sample

/-- A complete L1 frame: `n` symbols of `sc` subcarrier values with parts in `sW` (R33, R213). -/
abbrev IsFrame (w sc n : Nat) (F : List Symbol) : Prop :=
  F.length = n ∧ ∀ sym ∈ F, IsWindow w sc sym

/-- The Lock State (R29). -/
inductive LockState where
  | unlocked
  | acquiring
  | locked
deriving DecidableEq, Repr

/-- Synchronization's own state (R32): `none` while not locked, `entered` after the hand-over and
before the first symbol, then `stable` or `degraded`. -/
inductive TrackState where
  | none
  | entered
  | stable
  | degraded
deriving DecidableEq, Repr

/-- The two fatal faults: `src`, code 1, a source-level fault (R275), and `cfg`, code 2, an
unsupported configuration (R276). -/
inductive FatalCode where
  | src
  | cfg
deriving DecidableEq, Repr

/-- Which of the two output calls a payload goes to (R211, R230). -/
inductive Kind where
  | pdu
  | ancillary
deriving DecidableEq, Repr

/-- One logical sub-channel payload region of an L1 frame (R211). -/
structure Region where
  kind : Kind
  chanId : BitVec 12
  data : List Soft
deriving DecidableEq, Repr

/-- What one evaluation of the correlator answers: the largest energy and the frequency and time
offset that attain it (R171). -/
structure AcqResult where
  e : Nat
  f : FreqOff
  t : Nat
deriving DecidableEq, Repr

/-- What one symbol step of the tracker answers: its new context, the symbol, the quality figure,
the samples to consume, and the symbol's position in the frame period if known (R186). -/
structure SyncResult where
  ctx : SyncCtx
  sym : Symbol
  q : Int
  adv : Nat
  pos : Option Nat
deriving DecidableEq, Repr

end Sys2Proof
end

