-- ==== Sys2Proof/Config.lean ====
section
/-! DEFINITION. The configuration record `cfg` of spec/00_scope.md R10, its constraints as proof
fields, and the model's free values: the one `cfg` the machine runs with, the host's answers, and
what a gain-table position without a value holds. None of the free values has a body. -/

namespace Sys2Proof

/-- `SNR_N`: the estimator's window length and transform size (R10, R145). -/
abbrev snrN : Nat := 64

/-- `GAIN_MAX`: the largest gain-table length (R10, D7). -/
abbrev gainMax : Nat := 255

/-- The named property P-FRAME of a frame integrity check (R217): it accepts every uncorrupted frame
(`clean`) and rejects an uncorrupted frame with any one of its `bits` structural bits corrupted
(`flip b`). The spec gives neither the frames nor the bits (log 13). -/
def PFrame (check clean : List Symbol → Bool) (bits : Nat) (flip : Nat → List Symbol → List Symbol) :
    Prop :=
  ∀ F, clean F = true → check F = true ∧ ∀ b < bits, check (flip b F) = false

/-- The summed power of the bins `bins` of a transform output (R142). -/
def powerSum (X : List Sample) (bins : Nat → Bool) : Nat :=
  (((List.range snrN).filter bins).map (fun k =>
    ((X.getD k Sample.zero).i * (X.getD k Sample.zero).i +
      (X.getD k Sample.zero).q * (X.getD k Sample.zero).q).toNat)).sum

/-- The tracker's context after the windows `wins`, from the context `ctx` (R186). -/
def trackerCtx (step : SyncCtx → List Sample → SyncResult) (ctx : SyncCtx) (wins : List (List Sample)) :
    SyncCtx :=
  wins.foldl (fun d w => (step d w).ctx) ctx

/-- The symbols, each with its frame position, that the tracker returns for `wins` from `ctx` (R186). -/
def trackerRun (step : SyncCtx → List Sample → SyncResult) :
    SyncCtx → List (List Sample) → List (Symbol × Option Nat)
  | _, [] => []
  | ctx, w :: wins => ((step ctx w).sym, (step ctx w).pos) :: trackerRun step (step ctx w).ctx wins

/-- What one lock can bring about: from the context that an acquisition window opens, and over
windows of samples in range, the tracker reaches the context `ctx` and has returned, in this order and
at the positions 0, 1, 2, ..., the symbols `F` (R172, R186, R212). `wD`, `acqWin` and `symMax` are the
width and the two window lengths; `corr`, `init` and `step` are `acq_corr`, `sync_init`, `sync_step`. -/
def LockRun (wD acqWin symMax : Nat) (corr : List Sample → AcqResult)
    (init : FreqOff → Nat → SyncCtx) (step : SyncCtx → List Sample → SyncResult)
    (F : List Symbol) (ctx : SyncCtx) : Prop :=
  ∃ w0 wins, IsWindow wD acqWin w0 ∧ (∀ w ∈ wins, IsWindow wD symMax w) ∧
    ctx = trackerCtx step (init (corr w0).f (corr w0).t) wins ∧
    (F.mapIdx fun i sym => (sym, some i)).Sublist (trackerRun step (init (corr w0).f (corr w0).t) wins)

/-- The configuration record (R10). A field is an OPEN parameter or a configuration function of
R11; a proof field is a constraint of the same table, of R41 (the bounds that make every register
value fit a word), of R217 (the property P-FRAME, which the same table demands), of R252 (the powers
travel unclamped) or of R96 (the payloads that occur can be dispatched). A record that breaks a
constraint has no specified behaviour (R276, X7) and is no value of this type (log 1). The default
values only show that such a record exists: the machine's own record is opaque. -/
structure Cfg where
  /-- `W_IN`: bits per part of a raw sample. -/
  wIn : Nat := 16
  wIn_range : 1 ≤ wIn ∧ wIn ≤ 16 := by decide
  /-- `W_D`: bits per part of a decimated sample. -/
  wD : Nat := 16
  wD_pos : 1 ≤ wD := by decide
  /-- `M`: raw samples per decimated sample. -/
  m : Nat := 2
  m_range : 1 ≤ m ∧ m ≤ 2 ^ 32 := by decide
  /-- `N_TAPS`: number of FIR coefficients. -/
  nTaps : Nat := 4
  nTaps_pos : 1 ≤ nTaps := by decide
  /-- `W_COEF`: coefficient width. -/
  wCoef : Nat := 16
  wCoef_pos : 1 ≤ wCoef := by decide
  /-- `h`: the FIR coefficients, newest sample's first. -/
  h : List Int := [1, 3, 3, 1]
  h_shape : h.length = nTaps ∧ ∀ a ∈ h, Fits wCoef a := by decide
  /-- `COEF_FRAC`: fraction bits of the coefficients (read by the default quantiser only, R124). -/
  coefFrac : Nat := 3
  /-- `Q_D`: the output quantiser. -/
  qD : Int → Int := fun _ => 0
  qD_fits : ∀ a, Fits wD (qD a) := by intro a; decide
  /-- `snr_window`: the window function, unsigned integers. -/
  snrWindow : Nat → Nat := fun _ => 1
  /-- `WIN_FRAC`: fraction bits of the window; they go into `fft64` with the products (R142). -/
  winFrac : Nat := 0
  /-- `fft64`: the 64-point transform. -/
  fft64 : List Sample → List Sample := fun _ => List.replicate 64 Sample.zero
  fft64_length : ∀ v, v.length = 64 → (fft64 v).length = 64 := by simp
  /-- `SIG_BINS`: which of the bins 0 to 63 are signal bins. -/
  sigBins : Nat → Bool := fun k => k == 0
  /-- `W_P`: bits of a summed power. -/
  wP : Nat := 64
  wP_le : wP ≤ 64 := by decide
  /-- No summed power is of more than `W_P` bits (R10, R252). -/
  powers_fit : ∀ win, IsWindow wD snrN win →
    powerSum (fft64 (win.mapIdx fun n x => ⟨snrWindow n * x.i, snrWindow n * x.q⟩)) sigBins < 2 ^ wP ∧
    powerSum (fft64 (win.mapIdx fun n x => ⟨snrWindow n * x.i, snrWindow n * x.q⟩))
      (fun k => !sigBins k) < 2 ^ wP := by intro win _; decide
  /-- `GAIN_DROP_NUM`, `GAIN_DROP_DEN`: the early-stop ratio. -/
  gainDropNum : Nat := 1
  gainDropDen : Nat := 2
  gainDrop_range : gainDropNum ≤ gainDropDen ∧ 0 < gainDropDen := by decide
  /-- `HOOK_EXTERNAL`: the embedding application overrides the `on_snr` hook (R151). -/
  hookExternal : Bool := false
  /-- `ACQ_WIN`: samples examined by one acquisition evaluation. -/
  acqWin : Nat := 1
  /-- `ACQ_ADV`: samples consumed by an evaluation that does not lock. -/
  acqAdv : Nat := 1
  acqAdv_range : 1 ≤ acqAdv ∧ acqAdv ≤ acqWin := by decide
  /-- `acq_corr`: the correlator. -/
  acqCorr : List Sample → AcqResult := fun _ => ⟨0, 0, 0⟩
  acqCorr_t : ∀ w, IsWindow wD acqWin w → (acqCorr w).t < acqWin := by intro w _; decide
  acqCorr_zeros : (acqCorr (List.replicate acqWin Sample.zero)).e = 0 := by decide
  /-- `ACQ_THRESH`: detection threshold on the energy. -/
  acqThresh : Nat := 0
  /-- `ACQ_SUSTAIN`: evaluations in a row that must exceed the threshold. -/
  acqSustain : Nat := 1
  acqSustain_range : 1 ≤ acqSustain ∧ acqSustain < 2 ^ 32 := by decide
  /-- `SYM_LEN`: nominal samples per OFDM symbol. -/
  symLen : Nat := 1
  /-- `SYM_SLACK`: largest per-symbol timing adjustment. -/
  symSlack : Nat := 0
  symSlack_lt : symSlack < symLen := by decide
  /-- `BUF_LEN`: capacity of the decimated buffer. -/
  bufLen : Nat := 1
  bufLen_range : acqWin ≤ bufLen ∧ symLen + symSlack ≤ bufLen ∧ bufLen < 2 ^ 32 := by decide
  /-- `SC_COUNT`: subcarrier values in one OFDM symbol. -/
  scCount : Nat := 1
  scCount_pos : 1 ≤ scCount := by decide
  /-- `W_S`: bits per part of a subcarrier value. -/
  wS : Nat := 16
  wS_pos : 1 ≤ wS := by decide
  /-- `SYMS_PER_FRAME`: OFDM symbols in one L1 frame. -/
  symsPerFrame : Nat := 1
  symsPerFrame_range : 1 ≤ symsPerFrame ∧ symsPerFrame < 2 ^ 32 := by decide
  /-- `sync_init`: the tracker's first context. -/
  syncInit : FreqOff → Nat → SyncCtx := fun _ _ => []
  /-- `sync_step`: one symbol step of the tracker. -/
  syncStep : SyncCtx → List Sample → SyncResult := fun _ _ => ⟨[], [Sample.zero], 0, 1, none⟩
  syncStep_adv : ∀ c w, IsWindow wD (symLen + symSlack) w →
    symLen - symSlack ≤ (syncStep c w).adv ∧ (syncStep c w).adv ≤ symLen + symSlack := by
      intro c w _; decide
  syncStep_pos : ∀ c w, IsWindow wD (symLen + symSlack) w →
    ∀ p ∈ (syncStep c w).pos, p < symsPerFrame := by intro c w _ p hp; simp at hp
  syncStep_sym : ∀ c w, IsWindow wD (symLen + symSlack) w →
    IsWindow wS scCount (syncStep c w).sym := by intro c w _; decide
  /-- `Q_LOSS`: quality below which a symbol counts toward loss of lock. -/
  qLoss : Int := 0
  /-- `Q_DEGRADE`: quality below which tracking is degraded. -/
  qDegrade : Int := 0
  qLoss_le : qLoss ≤ qDegrade := by decide
  /-- `LOSS_SUSTAIN`: symbols in a row below `Q_LOSS` that lose the lock. -/
  lossSustain : Nat := 1
  lossSustain_range : 1 ≤ lossSustain ∧ lossSustain < 2 ^ 32 := by decide
  /-- `frame_check`: the frame integrity check. -/
  frameCheck : List Symbol → Bool := fun F => F == [[Sample.zero]]
  /-- The uncorrupted frames that P-FRAME speaks of (R217; log 13). -/
  cleanFrame : List Symbol → Bool := fun F => F == [[Sample.zero]]
  /-- The number of structural bits of a frame (R217; log 13). -/
  structBits : Nat := 1
  /-- The frame with its `b`-th structural bit corrupted (R217; log 13). -/
  flipBit : Nat → List Symbol → List Symbol := fun _ _ => [[⟨1, 0⟩]]
  structBits_pos : 1 ≤ structBits := by decide
  cleanFrame_exists : ∃ F, cleanFrame F = true := by exact ⟨[[Sample.zero]], by decide⟩
  cleanFrame_shape : ∀ F, cleanFrame F = true → IsFrame wS scCount symsPerFrame F ∧
    ∀ b < structBits, IsFrame wS scCount symsPerFrame (flipBit b F) := by
      intro F h; rw [beq_iff_eq] at h; subst h; decide
  pFrame : PFrame frameCheck cleanFrame structBits flipBit := by
    intro F h; rw [beq_iff_eq] at h; subst h; decide
  /-- `frame_split`: the payload regions of a frame. -/
  frameSplit : List Symbol → List Region := fun _ => []
  /-- `deinterleave` as its permutation (R227): at position `j` of the result stands the input's
  element at the `j`-th listed position; it depends on the kind and the length only (log 10). -/
  interleaver : Kind → Nat → List Nat := fun _ n => List.range n
  interleaver_perm : ∀ k n, (interleaver k n).Perm (List.range n) := by
    intro k n; exact List.Perm.refl _
  /-- `fec_decode`: the error-correction decoder. -/
  fecDecode : Kind → List Soft → List Byte := fun _ _ => []
  /-- `MAX_PDU_LEN`: largest payload length in bytes. -/
  maxPduLen : Nat := 0
  maxPduLen_le : maxPduLen ≤ 65535 := by decide
  /-- `payload_check`: the payload proper when the check passes. -/
  payloadCheck : Kind → List Byte → Option (List Byte) := fun _ _ => none
  /-- No payload of a region of a frame that occurs is longer than `MAX_PDU_LEN` (R96, R226);
  `payload_check` itself is any total function. -/
  payload_len : ∀ F ctx, LockRun wD acqWin (symLen + symSlack) acqCorr syncInit syncStep F ctx →
    F.length = symsPerFrame → frameCheck F = true → ∀ r ∈ frameSplit F, ∀ p ∈ payloadCheck r.kind (fecDecode r.kind
      ((interleaver r.kind r.data.length).map (fun j => r.data.getD j 0))),
    p.length ≤ maxPduLen := by intro F _ _ _ _ r hr; simp at hr
deriving Inhabited

/-- `SYM_MAX`: samples a symbol step may look at (R10). -/
def Cfg.symMax (c : Cfg) : Nat := c.symLen + c.symSlack

/-- What one lock of the block at `c` can bring about: the stored symbols `F` and the context `ctx`. -/
def Cfg.LockRun (c : Cfg) (F : List Symbol) (ctx : SyncCtx) : Prop :=
  Sys2Proof.LockRun c.wD c.acqWin c.symMax c.acqCorr c.syncInit c.syncStep F ctx

/-- A frame that occurs at `c`: one lock brings it about, and it has all its symbols (R213). -/
def Cfg.FrameOccurs (c : Cfg) (F : List Symbol) : Prop :=
  F.length = c.symsPerFrame ∧ ∃ ctx, c.LockRun F ctx

/-- `NEED`: the occupancy at which every step is possible (R66). -/
def Cfg.need (c : Cfg) : Nat := max c.acqWin c.symMax

/-- The configuration record the machine runs with, fixed for the life of the instance (R10, R75,
R303). It has no body: what is proved of it holds for every record (log 1). -/
opaque Config.cfg : Cfg

/-- The host's answer to the n-th call that no listed answer covers: any word (R249, R257; log 4). -/
opaque Config.hostAnswer : Nat → Word

/-- What a position of the gain table at or above `gain_len` holds: any value; no reachable state
reads one (R46, W1; log 8). -/
opaque Config.unwrittenGain : Nat → Word

end Sys2Proof
end

