-- ==== Sys2Proof/Syntax.lean ====
section
/-! DEFINITION. The transactions of the block, one constructor for each row of
spec/opcode_table.json: six commands, two commands with a must-be-zero field that is not zero, ten
reserved opcodes (spec/30_encoding.md R98 to R100), and the seven events the block emits
(R95, R96). Bits the spec ignores are kept as operands, so that no bit of a word is dropped. -/

namespace Sys2Proof

/-- A transaction: a command taken from CMD or an event emitted on EVT. -/
inductive Instr where
  /-- `NOP` (R241); `arg` is ignored. -/
  | nop (arg : BitVec 28)
  /-- `RESET` (R242); `arg` is ignored. -/
  | reset (arg : BitVec 28)
  /-- `SET_SKIP n` (R243). -/
  | setSkip (n : BitVec 28)
  /-- `LOAD_GAIN_TABLE count, g[0 .. count-1]` (R147); `count` is the length of the list. -/
  | loadGainTable (gains : List Word)
  /-- `LOAD_GAIN_TABLE` with `arg[27:8]` not zero (R100); the payload is consumed and ignored. -/
  | loadGainTableBad (mbz : BitVec 20) (payload : List Word)
  /-- `DELIVER count, x[0 .. count-1]` (R244): the sample words, format S (R93). -/
  | deliver (samples : List Word)
  /-- `READ_REG index` (R247). -/
  | readReg (index : BitVec 8)
  /-- `READ_REG` with `arg[27:8]` not zero (R100). -/
  | readRegBad (mbz : BitVec 20) (index : BitVec 8)
  /-- Reserved opcode 0x6 (R99). -/
  | reserved6 (arg : BitVec 28)
  /-- Reserved opcode 0x7 (R99). -/
  | reserved7 (arg : BitVec 28)
  /-- Reserved opcode 0x8 (R99). -/
  | reserved8 (arg : BitVec 28)
  /-- Reserved opcode 0x9 (R99). -/
  | reserved9 (arg : BitVec 28)
  /-- Reserved opcode 0xA (R99). -/
  | reservedA (arg : BitVec 28)
  /-- Reserved opcode 0xB (R99). -/
  | reservedB (arg : BitVec 28)
  /-- Reserved opcode 0xC (R99). -/
  | reservedC (arg : BitVec 28)
  /-- Reserved opcode 0xD (R99). -/
  | reservedD (arg : BitVec 28)
  /-- Reserved opcode 0xE (R99). -/
  | reservedE (arg : BitVec 28)
  /-- Reserved opcode 0xF (R99). -/
  | reservedF (arg : BitVec 28)
  /-- Event `APPLY_GAIN value`, a call (R250). -/
  | applyGain (value : Word)
  /-- Event `RESET_BUFFERING`, a call (R251). -/
  | resetBuffering
  /-- Event `ON_SNR fig`, a call (R252). -/
  | onSnr (fig : SnrT)
  /-- Event `PUSH_PDU channel_id, bytes, length` (R253); the length is that of the list. -/
  | pushPdu (chanId : BitVec 12) (bytes : List Byte)
  /-- Event `PUSH_ANCILLARY bytes, length` (R254); the length is that of the list. -/
  | pushAncillary (bytes : List Byte)
  /-- Event `REG_VALUE index, value` (R255). -/
  | regValue (index : BitVec 8) (value : Word)
  /-- Event `FAULT code` (R256); no other code is emitted (R277). -/
  | fault (code : FatalCode)
deriving DecidableEq, Repr

/-- The transaction is a command, a word sequence of CMD (R90, R98); the others are events of EVT. -/
def Instr.isCommand : Instr → Bool
  | .nop _ | .reset _ | .setSkip _ | .loadGainTable _ | .loadGainTableBad _ _ | .deliver _
  | .readReg _ | .readRegBad _ _ | .reserved6 _ | .reserved7 _ | .reserved8 _ | .reserved9 _
  | .reservedA _ | .reservedB _ | .reservedC _ | .reservedD _ | .reservedE _ | .reservedF _ => true
  | .applyGain _ | .resetBuffering | .onSnr _ | .pushPdu _ _ | .pushAncillary _ | .regValue _ _
  | .fault _ => false

end Sys2Proof
end

