-- ==== Sys2Proof/WellFormed.lean ====
section
/-! DEFINITION. Which transactions the encoding of spec/30_encoding.md can write: counts and
lengths that fit their fields, a must-be-zero field that is not zero where the row says so, and an
SNR figure that fits its four words. Every other operand is well formed by its type. -/

namespace Sys2Proof

/-- The transaction has an encoding of its own (R92, R96, R98, R100). -/
def Instr.WellFormed : Instr → Bool
  | .nop _ => true
  | .reset _ => true
  | .setSkip _ => true
  | .loadGainTable gains => decide (gains.length < 2 ^ 8)
  | .loadGainTableBad mbz payload => decide (mbz ≠ 0) && decide (payload.length < 2 ^ 8)
  | .deliver samples => decide (samples.length < 2 ^ 28)
  | .readReg _ => true
  | .readRegBad mbz _ => decide (mbz ≠ 0)
  | .reserved6 _ => true
  | .reserved7 _ => true
  | .reserved8 _ => true
  | .reserved9 _ => true
  | .reservedA _ => true
  | .reservedB _ => true
  | .reservedC _ => true
  | .reservedD _ => true
  | .reservedE _ => true
  | .reservedF _ => true
  | .applyGain _ => true
  | .resetBuffering => true
  | .onSnr fig => decide (fig.S < 2 ^ 64) && decide (fig.N < 2 ^ 64)
  | .pushPdu _ bytes => decide (bytes.length < 2 ^ 16)
  | .pushAncillary bytes => decide (bytes.length < 2 ^ 16)
  | .regValue _ _ => true
  | .fault _ => true

end Sys2Proof
end

