-- ==== Sys2Proof/Decode.lean ====
section
/-! DEFINITION. The decoder of command words (CMD) and of event words (EVT), the encoder of both, and
the table-word decoder the host asks about. Everything follows spec/30_encoding.md R91 to R100
and R104 and spec/20_memory.md R68, R69. Nothing here reads the state (R101). -/

namespace Sys2Proof

/-- Bits 31:28 of a command word or an event header (R91, R95). -/
def opField (w : Word) : BitVec 4 := w.extractLsb' 28 4

/-- Bits 27:0, the argument (R91, R95). -/
def argField (w : Word) : BitVec 28 := w.extractLsb' 0 28

/-- Bits 27:8, which must be 0 in `LOAD_GAIN_TABLE` and `READ_REG` (R98). -/
def mbzField (w : Word) : BitVec 20 := w.extractLsb' 8 20

/-- Bits 7:0: the gain count or the register index (R98). -/
def lowByte (w : Word) : BitVec 8 := w.extractLsb' 0 8

/-- Bits 27:16 of an event header: the channel id (R96). -/
def chanField (w : Word) : BitVec 12 := w.extractLsb' 16 12

/-- Bits 15:0 of an event header: the payload length in bytes (R96). -/
def lenField (w : Word) : BitVec 16 := w.extractLsb' 0 16

/-- How many payload words follow a command word, read from that word alone (R92). -/
def payloadLen (w : Word) : Nat :=
  match opField w with
  | 3#4 => (lowByte w).toNat
  | 4#4 => (argField w).toNat
  | _ => 0

/-- The command that a word and its payload words stand for (R98 to R100): total. -/
def commandOf (w : Word) (payload : List Word) : Instr :=
  match opField w with
  | 0x0#4 => .nop (argField w)
  | 0x1#4 => .reset (argField w)
  | 0x2#4 => .setSkip (argField w)
  | 0x3#4 => if mbzField w = 0 then .loadGainTable payload else .loadGainTableBad (mbzField w) payload
  | 0x4#4 => .deliver payload
  | 0x5#4 => if mbzField w = 0 then .readReg (lowByte w) else .readRegBad (mbzField w) (lowByte w)
  | 0x6#4 => .reserved6 (argField w)
  | 0x7#4 => .reserved7 (argField w)
  | 0x8#4 => .reserved8 (argField w)
  | 0x9#4 => .reserved9 (argField w)
  | 0xA#4 => .reservedA (argField w)
  | 0xB#4 => .reservedB (argField w)
  | 0xC#4 => .reservedC (argField w)
  | 0xD#4 => .reservedD (argField w)
  | 0xE#4 => .reservedE (argField w)
  | _ => .reservedF (argField w)

/-- Why no transaction can be read from the words at hand. On CMD only the first two occur: the words
of a command are not all there yet (R104, R310). The others are event headers that the block never
emits (R96, R98). -/
inductive NoTransaction where
  /-- No word is there. -/
  | noWord
  /-- The payload is shorter than the first word says. -/
  | shortPayload
  /-- An event number 0x0 or 0x8 to 0xF. -/
  | eventNumber (ev : BitVec 4)
  /-- A field of an event header that must be zero is not. -/
  | eventField (arg : BitVec 28)
  /-- A fault code other than 1 and 2. -/
  | faultCode (code : BitVec 4)
deriving DecidableEq, Repr

/-- The first `n` words and the words after them, if there are `n`. -/
def splitWords : Nat → List Word → Option (List Word × List Word)
  | 0, ws => some ([], ws)
  | _ + 1, [] => none
  | n + 1, w :: ws =>
    match splitWords n ws with
    | none => none
    | some (a, b) => some (w :: a, b)

/-- Takes one command from the words of CMD: the command and the words after it (R92, R104). -/
def decode : List Word → Except NoTransaction (Instr × List Word)
  | [] => .error .noWord
  | w :: ws =>
    match splitWords (payloadLen w) ws with
    | none => .error .shortPayload
    | some (payload, rest) => .ok (commandOf w payload, rest)

/-- Payload bytes, four to a word, the first in bits 7:0; unused high bytes are 0 (R68). -/
def packBytes : List Byte → List Word
  | [] => []
  | [b0] => [0#8 ++ 0#8 ++ 0#8 ++ b0]
  | [b0, b1] => [0#8 ++ 0#8 ++ b1 ++ b0]
  | [b0, b1, b2] => [0#8 ++ b2 ++ b1 ++ b0]
  | b0 :: b1 :: b2 :: b3 :: bs => (b3 ++ b2 ++ b1 ++ b0) :: packBytes bs

/-- The bytes of payload words, the byte in bits 7:0 of each word first (R68). -/
def unpackBytes : List Word → List Byte
  | [] => []
  | w :: ws =>
    w.extractLsb' 0 8 :: w.extractLsb' 8 8 :: w.extractLsb' 16 8 :: w.extractLsb' 24 8
      :: unpackBytes ws

/-- `ceil (n / 4)`: how many payload words `n` bytes take (R96). -/
def wordsForBytes (n : Nat) : Nat := (n + 3) / 4

/-- `usat_64`: a power as the 64-bit number that travels (R14, R41, R96). -/
def usat64 (n : Nat) : BitVec 64 := BitVec.ofNat 64 (min n (2 ^ 64 - 1))

/-- The low word of a 64-bit quantity (R69). -/
def loWord (v : BitVec 64) : Word := v.extractLsb' 0 32

/-- The high word of a 64-bit quantity (R69). -/
def hiWord (v : BitVec 64) : Word := v.extractLsb' 32 32

/-- The number of a fatal fault: 1 SRC, 2 CFG (R277). -/
def FatalCode.number : FatalCode → BitVec 4
  | .src => 1
  | .cfg => 2

/-- The words of a transaction: a command word and its payload (R91, R98), or an event header and
its payload (R95, R96). -/
def encode : Instr → List Word
  | .nop arg => [0x0#4 ++ arg]
  | .reset arg => [0x1#4 ++ arg]
  | .setSkip n => [0x2#4 ++ n]
  | .loadGainTable gains => (0x3#4 ++ 0#20 ++ BitVec.ofNat 8 gains.length) :: gains
  | .loadGainTableBad mbz payload => (0x3#4 ++ mbz ++ BitVec.ofNat 8 payload.length) :: payload
  | .deliver samples => (0x4#4 ++ BitVec.ofNat 28 samples.length) :: samples
  | .readReg index => [0x5#4 ++ 0#20 ++ index]
  | .readRegBad mbz index => [0x5#4 ++ mbz ++ index]
  | .reserved6 arg => [0x6#4 ++ arg]
  | .reserved7 arg => [0x7#4 ++ arg]
  | .reserved8 arg => [0x8#4 ++ arg]
  | .reserved9 arg => [0x9#4 ++ arg]
  | .reservedA arg => [0xA#4 ++ arg]
  | .reservedB arg => [0xB#4 ++ arg]
  | .reservedC arg => [0xC#4 ++ arg]
  | .reservedD arg => [0xD#4 ++ arg]
  | .reservedE arg => [0xE#4 ++ arg]
  | .reservedF arg => [0xF#4 ++ arg]
  | .applyGain value => [0x1#4 ++ 0#28, value]
  | .resetBuffering => [0x2#4 ++ 0#28]
  | .onSnr fig =>
    [0x3#4 ++ 0#28, loWord (usat64 fig.S), hiWord (usat64 fig.S), loWord (usat64 fig.N),
      hiWord (usat64 fig.N)]
  | .pushPdu chanId bytes => (0x4#4 ++ chanId ++ BitVec.ofNat 16 bytes.length) :: packBytes bytes
  | .pushAncillary bytes => (0x5#4 ++ 0#12 ++ BitVec.ofNat 16 bytes.length) :: packBytes bytes
  | .regValue index value => [0x6#4 ++ 0#20 ++ index, value]
  | .fault code => [0x7#4 ++ 0#24 ++ code.number]

/-- How many payload words follow an event header, known from the header alone (R96). -/
def eventPayloadLen (w : Word) : Nat :=
  match opField w with
  | 1#4 => 1
  | 3#4 => 4
  | 4#4 => wordsForBytes (lenField w).toNat
  | 5#4 => wordsForBytes (lenField w).toNat
  | 6#4 => 1
  | _ => 0

/-- The event that a header and its payload words stand for, as a host reads EVT (R96, R98). -/
def eventOf (w : Word) (payload : List Word) : Except NoTransaction Instr :=
  match opField w, payload with
  | 1#4, [value] => if argField w = 0 then .ok (.applyGain value) else .error (.eventField (argField w))
  | 2#4, _ => if argField w = 0 then .ok .resetBuffering else .error (.eventField (argField w))
  | 3#4, [sLo, sHi, nLo, nHi] =>
    if argField w = 0 then .ok (.onSnr ⟨(sHi ++ sLo).toNat, (nHi ++ nLo).toNat⟩)
    else .error (.eventField (argField w))
  | 4#4, ws => .ok (.pushPdu (chanField w) ((unpackBytes ws).take (lenField w).toNat))
  | 5#4, ws =>
    if chanField w = 0 then .ok (.pushAncillary ((unpackBytes ws).take (lenField w).toNat))
    else .error (.eventField (argField w))
  | 6#4, [value] =>
    if mbzField w = 0 then .ok (.regValue (lowByte w) value) else .error (.eventField (argField w))
  | 7#4, _ =>
    if w.extractLsb' 4 24 = 0 then
      (if w.extractLsb' 0 4 = 1#4 then .ok (.fault .src)
        else if w.extractLsb' 0 4 = 2#4 then .ok (.fault .cfg)
        else .error (.faultCode (w.extractLsb' 0 4)))
    else .error (.eventField (argField w))
  | ev, _ => .error (.eventNumber ev)

/-- Takes one event from the words of EVT: the event and the words after it (R96). -/
def decodeEvent : List Word → Except NoTransaction (Instr × List Word)
  | [] => .error .noWord
  | w :: ws =>
    match splitWords (eventPayloadLen w) ws with
    | none => .error .shortPayload
    | some (payload, rest) =>
      match eventOf w payload with
      | .error r => .error r
      | .ok i => .ok (i, rest)

/-- The words of the CMD command whose bits are the low `nbits` of `w`, the first word in bits 31:0;
every later bit is 0. -/
def tableWords (nbits w : Nat) : List Word :=
  let bits := w % 2 ^ nbits
  let first := BitVec.ofNat 32 bits
  first :: (List.range (payloadLen first)).map (fun k => BitVec.ofNat 32 (bits >>> (32 * (k + 1))))

/-- The command the decoder reads from the low `nbits` bits of `w`. The words are those of CMD: an
event's header is a word of EVT, and on CMD the same word is a command (log 6). -/
def decodeTableWord (nbits w : Nat) : Option Instr :=
  match decode (tableWords nbits w) with
  | .error _ => none
  | .ok (i, _) => some i

end Sys2Proof
end

