-- ==== Sys2Proof/Machine/Operands.lean ====
section
/-! DEFINITION. Operand forms and integer helpers: sign extension and clamping (spec/00_scope.md R14),
the arithmetic of samples (R15), the sample word (spec/30_encoding.md R93), the return word (R97), the
default output quantiser (spec/40_decimation.md R124), and the deinterleaver's permutation
(spec/45_decode.md R227). -/

namespace Sys2Proof.Machine

/-- `sext_n v`: the low `n` bits of `v` read as a two's-complement number (R14). -/
def sext (n : Nat) (v : Int) : Int := Int.bmod v (2 ^ n)

/-- `sat_n v`: `v` clamped to `sN` (R14). -/
def sat (n : Nat) (v : Int) : Int := max (-(2 : Int) ^ (n - 1)) (min ((2 : Int) ^ (n - 1) - 1) v)

/-- `fdiv v n`: `floor (v / 2^n)` (R14). -/
def fdiv (v : Int) (n : Nat) : Int := Int.fdiv v (2 ^ n)

/-- The default output quantiser (R124): drop the fraction bits toward minus infinity, then clamp. -/
def defaultQD (wD coefFrac : Nat) (a : Int) : Int := sat wD (fdiv a coefFrac)

/-- The raw sample of a sample word, format S (R93): the low `W_IN` bits of each half, sign-extended. -/
def sampleOf (wIn : Nat) (w : Word) : Sample where
  i := sext wIn (w.extractLsb' 0 16).toNat
  q := sext wIn (w.extractLsb' 16 16).toNat

/-- `(k·I, k·Q)` (R15). -/
def scale (k : Int) (x : Sample) : Sample := ⟨k * x.i, k * x.q⟩

/-- `|x|²`, exact and non-negative (R15). -/
def normSq (x : Sample) : Nat := (x.i * x.i + x.q * x.q).toNat

/-- Bit 31 of a return word: the host could not carry out the call (R97). -/
def retErr (r : Word) : Bool := r.getLsbD 31

/-- Bit 0 of a return word: continue the search (R97). -/
def retFlag (r : Word) : Bool := r.getLsbD 0

/-- `deinterleave` (R227): the input's elements at the positions of the kind's permutation. -/
def deinterleave (c : Cfg) (k : Kind) (l : List Soft) : List Soft :=
  (c.interleaver k l.length).map (fun p => l.getD p 0)

end Sys2Proof.Machine
end

