-- ==== Sys2Proof/Machine/State.lean ====
section
/-! DEFINITION. The state of the block (spec/10_state.md R20 to R36) with the three word channels of
spec/30_encoding.md R90, its reset value (R47), and the reasons a step could stop. -/

namespace Sys2Proof.Machine

/-- Everything the block holds (R20), and the channels. Where the spec has a store and a fill count,
the store is the list of its readable positions and the count is its length (R46; log 8). -/
structure State where
  /-- `skip`: raw samples still to be discarded (R23). -/
  skip : BitVec 28
  /-- `dbuf[used .. avail-1]`: the unconsumed decimated samples, oldest first (R24). -/
  dbuf : List Sample
  /-- `used`: index of the oldest unconsumed sample (R24). -/
  used : Nat
  /-- `hist`: the newest raw samples, newest first (R25). -/
  hist : List Sample
  /-- `phase`: raw samples received since the last output (R25). -/
  phase : Nat
  /-- `snr_win[0 .. snr_fill-1]`: the estimate in progress, oldest first (R26). -/
  snrWin : List Sample
  /-- `gain_tab[0 .. gain_len-1]`: the ordered gain table (R27). -/
  gainTab : List Word
  /-- `cur_idx`: the candidate being measured (R27). -/
  curIdx : Nat
  /-- `best_idx`: the best candidate so far (R27). -/
  bestIdx : Nat
  /-- `best_snr`: its figure (R27). -/
  bestSnr : SnrT
  /-- `remaining`: candidates not yet measured to the end (R27, R28). -/
  remaining : Nat
  /-- `lock`: the Lock State (R29). -/
  lock : LockState
  /-- `acq_run`: evaluations in a row above the threshold (R31). -/
  acqRun : Nat
  /-- `acq_f`: frequency offset of the latest such evaluation (R31). -/
  acqF : FreqOff
  /-- `acq_t`: time offset of the latest such evaluation (R31). -/
  acqT : Nat
  /-- `ctx`: the tracker's context (R32). -/
  ctx : SyncCtx
  /-- `track`: Synchronization's own state (R32). -/
  track : TrackState
  /-- `loss_run`: symbols in a row below `Q_LOSS` (R32). -/
  lossRun : Nat
  /-- `frm_buf[0 .. frm_fill-1]`: the frame being assembled (R33). -/
  frmBuf : List Symbol
  /-- `frame_err_cnt` (R35). -/
  frameErrCnt : BitVec 32
  /-- `payload_err_cnt` (R35). -/
  payloadErrCnt : BitVec 32
  /-- `lock_loss_cnt` (R35). -/
  lockLossCnt : BitVec 32
  /-- `halted`: a fatal fault was taken (R36). -/
  halted : Bool
  /-- `fault_code`: the first fatal fault, if any (R36). -/
  faultCode : Option FatalCode
  /-- CMD: the words the host has sent and the block has not taken, oldest first (R90; log 3). -/
  cmd : List Word
  /-- RET: the host's answers to the next calls, oldest first (R90, R249; log 4). -/
  ret : List Word
  /-- How many answers were taken after `ret` ran out; it selects a free value (log 4). -/
  retFree : Nat
  /-- EVT: the words emitted, oldest first (R90; log 3). -/
  evt : List Word
deriving DecidableEq, Repr

/-- Why a step could stop with a fault: there is no such reason. The spec's fatal faults, `SRC` and
`CFG`, are taken by the block (R282) and end in a next state; everything else is absorbed (R278).
Safe: a step that cannot stop promises nothing it does not give. -/
inductive Fault where
deriving DecidableEq, Repr

/-- Why a step could be refused. -/
inductive Refusal where
  /-- Raised by an arm of `exec` whose instruction has no meaning yet. No arm raises it. Safe: a
  refused step proves nothing about a next state. -/
  | notModelled (mnemonic : String)
deriving DecidableEq, Repr

/-- `avail`: one past the newest decimated sample (R24). -/
def State.avail (s : State) : Nat := s.used + s.dbuf.length

/-- `snr_fill`: decimated samples gathered for the estimate in progress (R26). -/
def State.snrFill (s : State) : Nat := s.snrWin.length

/-- `gain_len`: length of the gain table (R27). -/
def State.gainLen (s : State) : Nat := s.gainTab.length

/-- `frm_fill`: symbols of the frame in progress (R33). -/
def State.frmFill (s : State) : Nat := s.frmBuf.length

/-- The state after reset of a block with configuration `c` (R47, R300, R301). `acqF`, `acqT` and
`ctx` have no value in the spec (DESIGN CHOICE, log 7); the channels are empty (log 3, log 4). -/
def State.resetAt (c : Cfg) : State where
  skip := 0
  dbuf := []
  used := 0
  hist := List.replicate (c.nTaps - 1) Sample.zero
  phase := 0
  snrWin := []
  gainTab := []
  curIdx := 0
  bestIdx := 0
  bestSnr := ⟨0, 1⟩
  remaining := 0
  lock := .unlocked
  acqRun := 0
  acqF := 0
  acqT := 0
  ctx := []
  track := .none
  lossRun := 0
  frmBuf := []
  frameErrCnt := 0
  payloadErrCnt := 0
  lockLossCnt := 0
  halted := false
  faultCode := none
  cmd := []
  ret := []
  retFree := 0
  evt := []

/-- The machine right after reset (R47). -/
def State.reset : State := State.resetAt Config.cfg

end Sys2Proof.Machine
end

