-- ==== Sys2Proof/Machine/Flags.lean ====
section
/-! DEFINITION. What is read off the state: the operating mode (spec/10_state.md R30), the order of SNR
figures and the early-stop test (spec/00_scope.md R16), the STATUS word (R42) and the register map
(R41, R43). The block has no arithmetic condition codes (R39). -/

namespace Sys2Proof.Machine

/-- The operating mode (R30, R286). -/
inductive Mode where
  | halted
  | gainSearch
  | decode
deriving DecidableEq, Repr

/-- The operating mode, read off the state (R30). -/
def mode (s : State) : Mode :=
  if s.halted then .halted else if 0 < s.remaining then .gainSearch else .decode

/-- `val a ≥ val b` (R16): by cross-multiplication where both noise powers are positive; a figure with
noise 0 is +infinity when its signal is positive and 0 when it is not. -/
def ge (a b : SnrT) : Bool :=
  if a.N = 0 ∧ 0 < a.S then true
  else if b.N = 0 ∧ 0 < b.S then false
  else if b.N = 0 then true
  else if a.N = 0 then decide (b.S = 0)
  else decide (b.S * a.N ≤ a.S * b.N)

/-- `val a < val b * NUM / DEN` (R16, R157): +infinity is below nothing; +infinity times the ratio is
+infinity when `NUM > 0` and 0 when `NUM = 0`. -/
def ltDrop (c : Cfg) (a b : SnrT) : Bool :=
  if a.N = 0 ∧ 0 < a.S then false
  else if c.gainDropNum = 0 then false
  else if b.N = 0 then decide (0 < b.S)
  else if a.N = 0 then decide (0 < b.S)
  else decide (a.S * b.N * c.gainDropDen < b.S * a.N * c.gainDropNum)

/-- `STATUS.LOCK` (R42). -/
def lockField : LockState → BitVec 2
  | .unlocked => 0
  | .acquiring => 1
  | .locked => 2

/-- `STATUS.TRACK` (R42). -/
def trackField : TrackState → BitVec 2
  | .none => 0
  | .entered => 1
  | .stable => 2
  | .degraded => 3

/-- `STATUS.FAULT`, the fault code: 0 none, 1 SRC, 2 CFG (R36, R42). -/
def faultField : Option FatalCode → BitVec 2
  | none => 0
  | some .src => 1
  | some .cfg => 2

/-- The `STATUS` word (R42). -/
def status (s : State) : Word :=
  0#24 ++ faultField s.faultCode ++ BitVec.ofBool s.halted ++ BitVec.ofBool (decide (0 < s.remaining))
    ++ trackField s.track ++ lockField s.lock

/-- `gain_tab[i]` (R27). A position at or above `gain_len` holds a free value (R46, W1; log 8). -/
def gainAt (s : State) (i : Nat) : Word := s.gainTab.getD i (Config.unwrittenGain i)

/-- `ACTIVE_GAIN` (R41, R43). -/
def activeGain (s : State) : Word := if 1 ≤ s.gainLen then gainAt s s.curIdx else 0

/-- `reg(k)`: the register map (R41). -/
def reg (k : BitVec 8) (s : State) : Word :=
  match k.toNat with
  | 0 => status s
  | 1 => s.skip.setWidth 32
  | 2 => BitVec.ofNat 32 s.gainLen
  | 3 => BitVec.ofNat 32 s.remaining
  | 4 => BitVec.ofNat 32 s.curIdx
  | 5 => BitVec.ofNat 32 s.bestIdx
  | 6 => activeGain s
  | 7 => loWord (usat64 s.bestSnr.S)
  | 8 => hiWord (usat64 s.bestSnr.S)
  | 9 => loWord (usat64 s.bestSnr.N)
  | 10 => hiWord (usat64 s.bestSnr.N)
  | 11 => s.frameErrCnt
  | 12 => s.payloadErrCnt
  | 13 => s.lockLossCnt
  | 14 => BitVec.ofNat 32 (s.avail - s.used)
  | 15 => BitVec.ofNat 32 s.phase
  | 16 => BitVec.ofNat 32 s.snrFill
  | 17 => BitVec.ofNat 32 s.acqRun
  | 18 => BitVec.ofNat 32 s.lossRun
  | 19 => BitVec.ofNat 32 s.frmFill
  | _ => 0

end Sys2Proof.Machine
end

