-- ==== Sys2Proof/Machine/Ops.lean ====
section
/-! DEFINITION. The shared operations: fetching a command from CMD, posting and calling events
(spec/46_orchestrator_host.md R249), TAKING A FATAL FAULT (spec/60_exceptions.md R282) and the way out
of it, `RESET` (R242), the saturating counters (R287), and the decimated buffer's three primitives
(spec/20_memory.md R62 to R64). -/

namespace Sys2Proof.Machine

/-- Takes one whole command from CMD (R92, R240): the command, and the state with its words gone. -/
def fetch (s : State) : Except NoTransaction (Instr × State) :=
  match decode s.cmd with
  | .error r => .error r
  | .ok (i, rest) => .ok (i, { s with cmd := rest })

/-- `post E(args)`: writes the event's words to EVT and goes on (R249). -/
def post (e : Instr) (s : State) : State := { s with evt := s.evt ++ encode e }

/-- Takes one word from RET (R249): the next listed answer, else a free value (log 4). -/
def takeRet (s : State) : Word × State :=
  match s.ret with
  | r :: rest => (r, { s with ret := rest })
  | [] => (Config.hostAnswer s.retFree, { s with retFree := s.retFree + 1 })

/-- `call E(args) -> r`: writes the event's words, then takes exactly one RET word (R77, R249). -/
def call (e : Instr) (s : State) : Word × State := takeRet (post e s)

/-- `raise Fatal(code)`: entry to the halted state (R282). The first fault sets `halted`, records its
code and posts `FAULT`; a fault raised while halted changes nothing (R283). Abandoning the command
is the caller's: it does nothing after this. -/
def raiseFatal (code : FatalCode) (s : State) : State :=
  if s.halted then s else post (.fault code) { s with halted := true, faultCode := some code }

/-- The block after a reset, from power-on or by command (R242, R300, R301): every field of the block
at its reset value. The channels are not the block's and keep what they hold (log 3). -/
def resetBlock (c : Cfg) (s : State) : State :=
  { State.resetAt c with cmd := s.cmd, ret := s.ret, retFree := s.retFree, evt := s.evt }

/-- A call whose return word is tested for `err` only: `err = 1` raises `Fatal(SRC)` (R249, R275). -/
def callOrFail (e : Instr) (s : State) : State :=
  if retErr (call e s).1 then raiseFatal .src (call e s).2 else (call e s).2

/-- `APPLY_GAIN value` and right after it `RESET_BUFFERING` (R250, R251): the pair of the gain
operations. An `err` on the first abandons the command before the second (R281, R282). -/
def applyGainThenReset (value : Word) (s : State) : State :=
  let a := call (.applyGain value) s
  if retErr a.1 then raiseFatal .src a.2 else callOrFail .resetBuffering a.2

/-- `count(c)` on a counter of 32 bits: up by one, saturating at `2^32 - 1` (R35, R287). -/
def countUp (n : BitVec 32) : BitVec 32 := BitVec.ofNat 32 (min (n.toNat + 1) (2 ^ 32 - 1))

/-- `MemWrite(dbuf, v)` (R62): compaction when `avail = BUF_LEN`, then append. -/
def memWrite (c : Cfg) (v : Sample) (s : State) : State :=
  { s with used := if s.avail = c.bufLen then 0 else s.used, dbuf := s.dbuf ++ [v] }

/-- `MemRead(dbuf, a, n)` (R63): the `n` unconsumed samples from position `a` on, oldest first. -/
def memRead (a n : Nat) (s : State) : List Sample := (s.dbuf.drop a).take n

/-- `consume(n)` (R64): drops the `n` oldest unconsumed samples. -/
def consume (n : Nat) (s : State) : State := { s with used := s.used + n, dbuf := s.dbuf.drop n }

/-- The occupancy `avail - used` (R24). -/
def occupancy (s : State) : Nat := s.dbuf.length

end Sys2Proof.Machine
end

