-- ==== Sys2Proof/Machine/Acquisition.lean ====
section
/-! DEFINITION. Acquisition: `ACQ.STEP`, `ACQ.LOCK` (spec/42_acquisition.md R171, R172). -/

namespace Sys2Proof.Machine

/-- `ACQ.LOCK` (R172): declares the coarse lock and hands over to Synchronization. -/
def acqLock (c : Cfg) (s : State) : State :=
  { consume s.acqT s with
    ctx := c.syncInit s.acqF s.acqT, lock := .locked, track := .entered, lossRun := 0, acqRun := 0 }

/-- `ACQ.STEP` (R171): one evaluation over the oldest `ACQ_WIN` unconsumed samples. -/
def acqStep (c : Cfg) (s : State) : State :=
  let r := c.acqCorr (memRead 0 c.acqWin s)
  if c.acqThresh < r.e then
    let s1 := { s with acqF := r.f, acqT := r.t }
    if s.acqRun + 1 ≥ c.acqSustain then acqLock c s1
    else consume c.acqAdv { s1 with acqRun := s.acqRun + 1, lock := .acquiring }
  else consume c.acqAdv { s with acqRun := 0, lock := .unlocked }

end Sys2Proof.Machine
end

