-- ==== Sys2Proof/Machine/Decimation.lean ====
section
/-! DEFINITION. The Decimation Filter: `DECIM.PUSH` (spec/40_decimation.md R121). -/

namespace Sys2Proof.Machine

/-- The exact sum of the coefficients times one part of the newest samples (R121, R125). -/
def firSum (h : List Int) (xs : List Int) : Int := (List.zipWith (· * ·) h xs).sum

/-- The filter's output for the samples `w`, newest first: the same real coefficients on both parts,
each sum quantised once (R121, R124, R125, R128). -/
def firOutput (c : Cfg) (w : List Sample) : Sample where
  i := c.qD (firSum c.h (w.map Sample.i))
  q := c.qD (firSum c.h (w.map Sample.q))

/-- `DECIM.PUSH(x)` (R121): takes one raw sample; an output on the last sample of a group of `M`. -/
def decimPush (c : Cfg) (x : Sample) (s : State) : Option Sample × State :=
  if s.phase = c.m - 1 then
    (some (firOutput c (x :: s.hist)),
      { s with phase := 0, hist := (x :: s.hist).take (c.nTaps - 1) })
  else
    (none, { s with phase := s.phase + 1, hist := (x :: s.hist).take (c.nTaps - 1) })

end Sys2Proof.Machine
end

