-- ==== Sys2Proof/Machine/SnrGain.lean ====
section
/-! DEFINITION. The Spectral SNR Estimator and the Gain Search Controller: `SNR.PUSH`, `SNR.ESTIMATE`,
`GAIN.STEP`, `GAIN.COMMIT`, `GAIN.ADVANCE` and the effect of `LOAD_GAIN_TABLE`
(spec/41_snr_gain.md R141, R142, R147 to R151). -/

namespace Sys2Proof.Machine

/-- The power `P[k]` of bin `k` of a transform output (R142). -/
def binPower (X : List Sample) (k : Nat) : Nat := normSq (X.getD k Sample.zero)

/-- The windowed samples `v[n]` (R142). -/
def windowed (c : Cfg) (win : List Sample) : List Sample :=
  win.mapIdx (fun n x => scale (c.snrWindow n) x)

/-- `SNR.ESTIMATE(win)` (R142): the power of the signal bins and that of all other bins (R143). -/
def snrEstimate (c : Cfg) (win : List Sample) : SnrT where
  S := (((List.range snrN).filter c.sigBins).map (binPower (c.fft64 (windowed c win)))).sum
  N := (((List.range snrN).filter (fun k => !c.sigBins k)).map
    (binPower (c.fft64 (windowed c win)))).sum

/-- `GAIN.COMMIT` (R149): the search ends on the best candidate; the pair of events is issued exactly
when the gain changes (D24, C11). -/
def gainCommit (s : State) : State :=
  let s1 := { s with curIdx := s.bestIdx, remaining := 0 }
  if s.bestIdx ≠ s.curIdx then applyGainThenReset (gainAt s s.bestIdx) s1 else s1

/-- `GAIN.ADVANCE` (R150): on to the next candidate. -/
def gainAdvance (s : State) : State :=
  applyGainThenReset (gainAt s (s.curIdx + 1))
    { s with curIdx := s.curIdx + 1, remaining := s.remaining - 1 }

/-- The last of the three tests of `GAIN.STEP` (R148): the last gain or a stop commits. -/
def gainDecide (cont : Bool) (s : State) : State :=
  if s.curIdx + 1 ≥ s.gainLen ∨ cont = false then gainCommit s else gainAdvance s

/-- Records the figure as the best when it is not below the best so far (R148, R153). -/
def recordBest (fig : SnrT) (s : State) : State :=
  if ge fig s.bestSnr then { s with bestIdx := s.curIdx, bestSnr := fig } else s

/-- The call of the embedder's hook (R151, R252): `ON_SNR` is emitted and its answer decides, `err`
raising `Fatal(SRC)`. Without candidates there is nothing to decide (R148). -/
def askHook (fig : SnrT) (s : State) : State :=
  let a := call (.onSnr fig) s
  if retErr a.1 then raiseFatal .src a.2
  else if a.2.remaining = 0 then a.2
  else gainDecide (retFlag a.1) a.2

/-- `GAIN.STEP(fig)` (R148): no-op without candidates, record the best, then decide by the built-in
rule or by the embedder's hook (R151, C5). -/
def gainStep (c : Cfg) (fig : SnrT) (s : State) : State :=
  if s.remaining = 0 then s
  else if c.hookExternal then askHook fig (recordBest fig s)
  else gainDecide (!ltDrop c fig (recordBest fig s).bestSnr) (recordBest fig s)

/-- `SNR.PUSH(d)` (R141): one decimated sample into the window; the 64th empties it, makes a figure
and steps the controller. -/
def snrPush (c : Cfg) (d : Sample) (s : State) : State :=
  if s.snrFill = snrN - 1 then
    gainStep c (snrEstimate c (s.snrWin ++ [d])) { s with snrWin := [] }
  else { s with snrWin := s.snrWin ++ [d] }

/-- The fields `LOAD_GAIN_TABLE` writes (R147): the table, index 0, the ratio 0 as the best, all
candidates remaining, an empty estimator window. -/
def startSearch (gains : List Word) (s : State) : State :=
  { s with gainTab := gains, curIdx := 0, bestIdx := 0, bestSnr := ⟨0, 1⟩,
           remaining := gains.length, snrWin := [] }

/-- `LOAD_GAIN_TABLE` (R147): ignored when halted; else the search starts and the first gain, if any,
is applied. -/
def loadGains (gains : List Word) (s : State) : State :=
  if s.halted then s
  else match gains with
    | [] => startSearch [] s
    | g :: gs => applyGainThenReset g (startSearch (g :: gs) s)

end Sys2Proof.Machine
end

