-- ==== Sys2Proof/Machine/FecDecode.lean ====
section
/-! DEFINITION. Decode, the deinterleaver and FEC decoder: `DEC.REGION` (spec/45_decode.md R226). -/

namespace Sys2Proof.Machine

/-- The three decode stages on one region: the payload if its integrity check passes (R226 to R229). -/
def decodePayload (c : Cfg) (r : Region) : Option (List Byte) :=
  c.payloadCheck r.kind (c.fecDecode r.kind (deinterleave c r.kind r.data))

/-- The output event of a decoded payload: the region's kind picks the call (R226, R230). -/
def dispatchEvent (r : Region) (payload : List Byte) : Instr :=
  match r.kind with
  | .pdu => .pushPdu r.chanId payload
  | .ancillary => .pushAncillary payload

/-- `DEC.REGION(r)` (R226): one attempt; the payload is posted, or dropped and counted (R231). -/
def decRegion (c : Cfg) (s : State) (r : Region) : State :=
  match decodePayload c r with
  | some payload => post (dispatchEvent r payload) s
  | none => { s with payloadErrCnt := countUp s.payloadErrCnt }

end Sys2Proof.Machine
end

