-- ==== Sys2Proof/Machine/Frame.lean ====
section
/-! DEFINITION. Frame: `FRAME.SYMBOL`, `FRAME.COMPLETE`, `FRAME.RESET` (spec/44_frame.md R212, R213,
R216). -/

namespace Sys2Proof.Machine

/-- `FRAME.RESET` (R216): drops the partial frame. -/
def frameReset (s : State) : State := { s with frmBuf := [] }

/-- `FRAME.COMPLETE` (R213): a frame that passes is split and its regions decoded in order (R215);
one that fails is discarded and counted (R214). -/
def frameComplete (c : Cfg) (s : State) : State :=
  let s1 := { s with frmBuf := [] }
  if c.frameCheck s.frmBuf then (c.frameSplit s.frmBuf).foldl (decRegion c) s1
  else { s1 with frameErrCnt := countUp s.frameErrCnt }

/-- Stores the symbol after those already there and completes the frame when it is full (R212). -/
def frameStore (c : Cfg) (syms : List Symbol) (s : State) : State :=
  if syms.length = c.symsPerFrame then frameComplete c { s with frmBuf := syms }
  else { s with frmBuf := syms }

/-- `FRAME.SYMBOL(sym, pos)` (R212): the next position is stored, position 0 restarts, any other
position empties the store; a symbol of unknown position is dropped. -/
def frameSymbol (c : Cfg) (sym : Symbol) (pos : Option Nat) (s : State) : State :=
  match pos with
  | none => s
  | some p =>
    if p = s.frmFill then frameStore c (s.frmBuf ++ [sym]) s
    else if p = 0 then frameStore c [sym] s
    else frameReset s

end Sys2Proof.Machine
end

