-- ==== Sys2Proof/Machine/Sync.lean ====
section
/-! DEFINITION. Synchronization and OFDM demodulation: `SYNC.SYMBOL`, `TRACK.UPDATE`, `SYNC.LOSS`
(spec/43_sync_demod.md R186, R188, R189). -/

namespace Sys2Proof.Machine

/-- `TRACK.UPDATE(q)` (R188): whether the lock is lost, and the state after. -/
def trackUpdate (c : Cfg) (q : Int) (s : State) : Bool × State :=
  if c.qDegrade ≤ q then (false, { s with track := .stable, lossRun := 0 })
  else if q < c.qLoss then
    if s.lossRun + 1 ≥ c.lossSustain then (true, { s with track := .degraded })
    else (false, { s with track := .degraded, lossRun := s.lossRun + 1 })
  else (false, { s with track := .degraded, lossRun := 0 })

/-- `SYNC.LOSS` (R189): back to Acquisition; the partial frame is dropped, the loss counted. -/
def syncLoss (s : State) : State :=
  let s1 := frameReset { s with lock := .unlocked, track := .none, lossRun := 0, acqRun := 0 }
  { s1 with lockLossCnt := countUp s.lockLossCnt }

/-- `SYNC.SYMBOL` (R186): track, consume, judge, and pass the symbol on or lose the lock. -/
def syncSymbol (c : Cfg) (s : State) : State :=
  let o := c.syncStep s.ctx (memRead 0 c.symMax s)
  let u := trackUpdate c o.q (consume o.adv { s with ctx := o.ctx })
  if u.1 then syncLoss u.2 else frameSymbol c o.sym o.pos u.2

end Sys2Proof.Machine
end

