-- ==== Sys2Proof/Machine/Orchestrator.lean ====
section
/-! DEFINITION. The Input Orchestrator: `PUMP`, `ROUTE` and the sample loop of `DELIVER`
(spec/46_orchestrator_host.md R244 to R246). -/

namespace Sys2Proof.Machine

/-- One turn of `PUMP`'s loop (R246): the state after an acquisition or symbol step, or none when the
loop returns. -/
def pumpTurn (c : Cfg) (s : State) : Option State :=
  if s.halted then none
  else if s.lock ≠ .locked ∧ c.acqWin ≤ occupancy s then some (acqStep c s)
  else if s.lock = .locked ∧ c.symMax ≤ occupancy s then some (syncSymbol c s)
  else none

/-- At most `fuel` turns of `PUMP`'s loop (R246). -/
def pumpLoop (c : Cfg) : Nat → State → State
  | 0, s => s
  | fuel + 1, s =>
    match pumpTurn c s with
    | none => s
    | some s' => pumpLoop c fuel s'

/-- `PUMP` (R246). Every turn consumes a sample, or locks and so is followed by a turn that does, so
that twice the occupancy and two are more turns than the loop ever takes (log 9). -/
def pump (c : Cfg) (s : State) : State := pumpLoop c (2 * occupancy s + 2) s

/-- `ROUTE(d)` (R245): to the estimator during a search, else to the buffer and its consumers. -/
def route (c : Cfg) (d : Sample) (s : State) : State :=
  if 0 < s.remaining then snrPush c d s else pump c (memWrite c d s)

/-- One raw sample of a `DELIVER` (R244): ignored when halted, discarded by the skip, or filtered and
its output, if there is one, routed. -/
def deliverOne (c : Cfg) (s : State) (x : Sample) : State :=
  if s.halted then s
  else if 0 < s.skip then { s with skip := s.skip - 1 }
  else match decimPush c x s with
    | (none, s1) => s1
    | (some d, s1) => route c d s1

/-- `DELIVER` (R244): the samples one after another, each through every stage it reaches (R74). -/
def deliver (c : Cfg) (xs : List Sample) (s : State) : State := xs.foldl (deliverOne c) s

end Sys2Proof.Machine
end

