-- ==== Sys2Proof/Machine/Commands.lean ====
section
/-! DEFINITION. The meanings of the six commands and of the two commands with a must-be-zero field that
is not zero (spec/46_orchestrator_host.md R241 to R247, R258; spec/41_snr_gain.md R147;
spec/30_encoding.md R100), at the machine's configuration record. -/

namespace Sys2Proof.Machine

/-- `NOP` (R241): nothing, in every mode. -/
def execNop (_arg : BitVec 28) (s : State) : Host.Outcome State Fault Refusal := .next s

/-- `RESET` (R242): every field of the block to its reset value, in every mode; emits nothing. -/
def execReset (_arg : BitVec 28) (s : State) : Host.Outcome State Fault Refusal :=
  .next (resetBlock Config.cfg s)

/-- `SET_SKIP n` (R243): replaces the skip count; ignored when halted (R258). -/
def execSetSkip (n : BitVec 28) (s : State) : Host.Outcome State Fault Refusal :=
  .next (if s.halted then s else { s with skip := n })

/-- `LOAD_GAIN_TABLE` (R147): starts a search over the table; ignored when halted (R258). -/
def execLoadGainTable (gains : List Word) (s : State) : Host.Outcome State Fault Refusal :=
  .next (loadGains gains s)

/-- `LOAD_GAIN_TABLE` with a must-be-zero field that is not zero (R100, R147): `Fatal(CFG)`, the
payload words ignored; when halted already, nothing (R258, R283). -/
def execLoadGainTableBad (_mbz : BitVec 20) (_payload : List Word) (s : State) :
    Host.Outcome State Fault Refusal :=
  .next (raiseFatal .cfg s)

/-- `DELIVER` (R244): the sample words assembled (R93) and processed in order. -/
def execDeliver (samples : List Word) (s : State) : Host.Outcome State Fault Refusal :=
  .next (deliver Config.cfg (samples.map (sampleOf Config.cfg.wIn)) s)

/-- `READ_REG index` (R247): posts the register's value, in every mode, and changes no state (R72). -/
def execReadReg (index : BitVec 8) (s : State) : Host.Outcome State Fault Refusal :=
  .next (post (.regValue index (reg index s)) s)

/-- `READ_REG` with a must-be-zero field that is not zero (R100, R247): `Fatal(CFG)`, no value posted;
when halted already, nothing (R283). -/
def execReadRegBad (_mbz : BitVec 20) (_index : BitVec 8) (s : State) :
    Host.Outcome State Fault Refusal :=
  .next (raiseFatal .cfg s)

end Sys2Proof.Machine
end

