-- ==== Sys2Proof/Machine/Events.lean ====
section
/-! DEFINITION. The meanings of the seven events (spec/46_orchestrator_host.md R249 to R256): what the
block does when it emits the event. A call takes its RET word and an `err` in it raises
`Fatal(SRC)`; a post goes on. The commands reach them through the same shared operations (log 6). -/

namespace Sys2Proof.Machine

/-- `APPLY_GAIN value`, a call (R250). -/
def execApplyGain (value : Word) (s : State) : Host.Outcome State Fault Refusal :=
  .next (callOrFail (.applyGain value) s)

/-- `RESET_BUFFERING`, a call; it changes nothing else in the block (R251, R78). -/
def execResetBuffering (s : State) : Host.Outcome State Fault Refusal :=
  .next (callOrFail .resetBuffering s)

/-- `ON_SNR fig`, a call; its flag continues the search or commits (R252, R97, R148; log 6). -/
def execOnSnr (fig : SnrT) (s : State) : Host.Outcome State Fault Refusal :=
  .next (askHook fig s)

/-- `PUSH_PDU channel_id, bytes, length`, a post (R253). -/
def execPushPdu (chanId : BitVec 12) (bytes : List Byte) (s : State) :
    Host.Outcome State Fault Refusal :=
  .next (post (.pushPdu chanId bytes) s)

/-- `PUSH_ANCILLARY bytes, length`, a post (R254). -/
def execPushAncillary (bytes : List Byte) (s : State) : Host.Outcome State Fault Refusal :=
  .next (post (.pushAncillary bytes) s)

/-- `REG_VALUE index, value`, a post (R255). -/
def execRegValue (index : BitVec 8) (value : Word) (s : State) :
    Host.Outcome State Fault Refusal :=
  .next (post (.regValue index value) s)

/-- `FAULT code` (R256): the event is emitted by the raise, which sets the flags (R282; log 6). -/
def execFault (code : FatalCode) (s : State) : Host.Outcome State Fault Refusal :=
  .next (raiseFatal code s)

end Sys2Proof.Machine
end

