-- ==== Sys2Proof/Machine/Reserved.lean ====
section
/-! DEFINITION. The meanings of the ten reserved opcodes 0x6 to 0xF: each takes the fatal fault `CFG`
(spec/30_encoding.md R99, spec/60_exceptions.md R276, R282), and when the block is halted already
changes nothing (R283). -/

namespace Sys2Proof.Machine

/-- Reserved opcode 0x6 (R99). -/
def execReserved6 (_arg : BitVec 28) (s : State) : Host.Outcome State Fault Refusal :=
  .next (raiseFatal .cfg s)

/-- Reserved opcode 0x7 (R99). -/
def execReserved7 (_arg : BitVec 28) (s : State) : Host.Outcome State Fault Refusal :=
  .next (raiseFatal .cfg s)

/-- Reserved opcode 0x8 (R99). -/
def execReserved8 (_arg : BitVec 28) (s : State) : Host.Outcome State Fault Refusal :=
  .next (raiseFatal .cfg s)

/-- Reserved opcode 0x9 (R99). -/
def execReserved9 (_arg : BitVec 28) (s : State) : Host.Outcome State Fault Refusal :=
  .next (raiseFatal .cfg s)

/-- Reserved opcode 0xA (R99). -/
def execReservedA (_arg : BitVec 28) (s : State) : Host.Outcome State Fault Refusal :=
  .next (raiseFatal .cfg s)

/-- Reserved opcode 0xB (R99). -/
def execReservedB (_arg : BitVec 28) (s : State) : Host.Outcome State Fault Refusal :=
  .next (raiseFatal .cfg s)

/-- Reserved opcode 0xC (R99). -/
def execReservedC (_arg : BitVec 28) (s : State) : Host.Outcome State Fault Refusal :=
  .next (raiseFatal .cfg s)

/-- Reserved opcode 0xD (R99). -/
def execReservedD (_arg : BitVec 28) (s : State) : Host.Outcome State Fault Refusal :=
  .next (raiseFatal .cfg s)

/-- Reserved opcode 0xE (R99). -/
def execReservedE (_arg : BitVec 28) (s : State) : Host.Outcome State Fault Refusal :=
  .next (raiseFatal .cfg s)

/-- Reserved opcode 0xF (R99). -/
def execReservedF (_arg : BitVec 28) (s : State) : Host.Outcome State Fault Refusal :=
  .next (raiseFatal .cfg s)

end Sys2Proof.Machine
end

