-- ==== Sys2Proof/Machine/Dispatch.lean ====
section
/-! DEFINITION. The dispatch: one arm for each row of spec/opcode_table.json. -/

namespace Sys2Proof.Machine

/-- What the block does with a transaction. -/
def exec (i : Instr) (s : State) : Host.Outcome State Fault Refusal :=
  match i with
  | .nop arg => Sys2Proof.Machine.execNop arg s
  | .reset arg => Sys2Proof.Machine.execReset arg s
  | .setSkip n => Sys2Proof.Machine.execSetSkip n s
  | .loadGainTable gains => Sys2Proof.Machine.execLoadGainTable gains s
  | .loadGainTableBad mbz payload => Sys2Proof.Machine.execLoadGainTableBad mbz payload s
  | .deliver samples => Sys2Proof.Machine.execDeliver samples s
  | .readReg index => Sys2Proof.Machine.execReadReg index s
  | .readRegBad mbz index => Sys2Proof.Machine.execReadRegBad mbz index s
  | .reserved6 arg => Sys2Proof.Machine.execReserved6 arg s
  | .reserved7 arg => Sys2Proof.Machine.execReserved7 arg s
  | .reserved8 arg => Sys2Proof.Machine.execReserved8 arg s
  | .reserved9 arg => Sys2Proof.Machine.execReserved9 arg s
  | .reservedA arg => Sys2Proof.Machine.execReservedA arg s
  | .reservedB arg => Sys2Proof.Machine.execReservedB arg s
  | .reservedC arg => Sys2Proof.Machine.execReservedC arg s
  | .reservedD arg => Sys2Proof.Machine.execReservedD arg s
  | .reservedE arg => Sys2Proof.Machine.execReservedE arg s
  | .reservedF arg => Sys2Proof.Machine.execReservedF arg s
  | .applyGain value => Sys2Proof.Machine.execApplyGain value s
  | .resetBuffering => Sys2Proof.Machine.execResetBuffering s
  | .onSnr fig => Sys2Proof.Machine.execOnSnr fig s
  | .pushPdu chanId bytes => Sys2Proof.Machine.execPushPdu chanId bytes s
  | .pushAncillary bytes => Sys2Proof.Machine.execPushAncillary bytes s
  | .regValue index value => Sys2Proof.Machine.execRegValue index value s
  | .fault code => Sys2Proof.Machine.execFault code s

end Sys2Proof.Machine
end

