-- ==== Sys2Proof/Machine/Step.lean ====
section
/-! DEFINITION. The step: one command (spec/46_orchestrator_host.md R240). -/

namespace Sys2Proof.Machine

/-- Takes one command from CMD and executes it to completion (R240). While no whole command is there
the block waits and holds its state (R291, R310; log 5). -/
def step (s : State) : Host.Outcome State Fault Refusal :=
  match fetch s with
  | .ok (i, s') => exec i s'
  | .error _ => .next s

/-- The state with the words of one command put in front on CMD (log 3). -/
def State.withFetchWord (s : State) (nbits w : Nat) : State :=
  { s with cmd := tableWords nbits w ++ s.cmd }

end Sys2Proof.Machine
end

