-- ==== Sys2Proof/Machine/Instance.lean ====
section
/-! DEFINITION. The block at any configuration record: spec/00_scope.md R10 takes `cfg` as an argument,
and several instances may run side by side, each with its own (spec/60_exceptions.md R289). The
machine of Core.lean is the one at `Config.cfg`. -/

namespace Sys2Proof.Machine

/-- `exec` of a block with configuration `c`: only `RESET` and `DELIVER` read the configuration by
themselves. -/
def execAt (c : Cfg) (i : Instr) (s : State) : Host.Outcome State Fault Refusal :=
  match i with
  | .reset _ => .next (resetBlock c s)
  | .deliver samples => .next (deliver c (samples.map (sampleOf c.wIn)) s)
  | i => exec i s

/-- `step` of a block with configuration `c`. -/
def stepAt (c : Cfg) (s : State) : Host.Outcome State Fault Refusal :=
  match fetch s with
  | .ok (i, s') => execAt c i s'
  | .error _ => .next s

end Sys2Proof.Machine
end

