-- ==== Sys2Proof/Safety.lean ====
section
/-! DEFINITION. What holds of the block between commands, in the terms the claims use: the invariants
the spec states of its state (spec/10_state.md R23 to R36, spec/20_memory.md R66). -/

namespace Sys2Proof.Safety

open Sys2Proof.Machine

/-- The Decimation Filter's state is in range (R25, R67). -/
structure FilterOk (c : Cfg) (s : State) : Prop where
  hist : IsWindow c.wIn (c.nTaps - 1) s.hist
  phase : s.phase < c.m

/-- The decimated buffer is in range (R24), and no step of `PUMP` is possible any more (R66). -/
structure BufferOk (c : Cfg) (s : State) : Prop where
  capacity : s.avail ≤ c.bufLen
  width : ∀ x ∈ s.dbuf, x.Fits c.wD
  noAcq : s.lock ≠ .locked → occupancy s < c.acqWin
  noSync : s.lock = .locked → occupancy s < c.symMax

/-- The estimator's window is in range (R26). -/
structure EstimatorOk (c : Cfg) (s : State) : Prop where
  fill : s.snrFill < snrN
  width : ∀ x ∈ s.snrWin, x.Fits c.wD

/-- The controller's invariants (R27, R28). -/
structure ControllerOk (s : State) : Prop where
  length : s.gainLen ≤ gainMax
  searching : 0 < s.remaining →
    1 ≤ s.gainLen ∧ s.curIdx < s.gainLen ∧ s.remaining = s.gainLen - s.curIdx ∧ s.bestIdx ≤ s.curIdx
  committed : s.remaining = 0 → 1 ≤ s.gainLen → s.curIdx = s.bestIdx ∧ s.bestIdx < s.gainLen
  empty : s.gainLen = 0 → s.remaining = 0 ∧ s.curIdx = 0 ∧ s.bestIdx = 0

/-- The lock state machine is in one of its reachable pairs (R31, R32, R192). -/
structure LockOk (c : Cfg) (s : State) : Prop where
  acqRun : s.acqRun < c.acqSustain
  acquiring : s.lock = .acquiring ↔ 0 < s.acqRun ∧ s.lock ≠ .locked
  acqT : s.acqT < c.acqWin
  track : s.track = .none ↔ s.lock ≠ .locked
  lossRun : s.lossRun < c.lossSustain

/-- The frame store is in range, and empty while there is no lock (R33, R172, R189). -/
structure FrameOk (c : Cfg) (s : State) : Prop where
  fill : s.frmFill < c.symsPerFrame
  shape : ∀ sym ∈ s.frmBuf, IsWindow c.wS c.scCount sym
  /-- The stored symbols and the tracker's context are what one lock can bring about (R186, R212). -/
  run : s.lock = .locked → c.LockRun s.frmBuf s.ctx
  unlocked : s.lock ≠ .locked → s.frmFill = 0

/-- The invariants of the block between commands. -/
structure Inv (c : Cfg) (s : State) : Prop where
  filter : FilterOk c s
  buffer : BufferOk c s
  estimator : EstimatorOk c s
  controller : ControllerOk s
  lock : LockOk c s
  frame : FrameOk c s
  /-- The best figure travels unclamped (R41, R252). -/
  figure : s.bestSnr.S < 2 ^ 64 ∧ s.bestSnr.N < 2 ^ 64
  /-- R36. -/
  halted : s.halted = true ↔ s.faultCode.isSome = true

/-- The value of an SNR figure (R16): `S / N`, +infinity when only the noise is 0, 0 when both are. -/
def snrVal (a : SnrT) : WithTop ℚ :=
  if a.N = 0 then (if a.S = 0 then 0 else ⊤) else (((a.S : ℚ) / (a.N : ℚ) : ℚ) : WithTop ℚ)

/-- `val b * GAIN_DROP_NUM / GAIN_DROP_DEN` (R16). -/
def dropLimit (c : Cfg) (b : SnrT) : WithTop ℚ :=
  if b.N = 0 then (if b.S = 0 ∨ c.gainDropNum = 0 then 0 else ⊤)
  else (((b.S : ℚ) / (b.N : ℚ) * (c.gainDropNum : ℚ) / (c.gainDropDen : ℚ) : ℚ) : WithTop ℚ)

/-- `DECIM.PUSH` on raw samples in order: the decimated samples produced and the state after (R126). -/
def decimate (c : Cfg) : List Sample → State → List Sample × State
  | [], s => ([], s)
  | x :: xs, s =>
    let p := decimPush c x s
    let r := decimate c xs p.2
    (p.1.toList ++ r.1, r.2)

/-- `x[n - k]` of the raw stream `xs`, and `(0, 0)` before its start (R122). -/
def rawAt (xs : List Sample) (n k : Nat) : Sample :=
  if k ≤ n then xs.getD (n - k) Sample.zero else Sample.zero

/-- The convolution at stream position `n` on one part of the samples (R122). -/
def directSum (c : Cfg) (xs : List Sample) (n : Nat) (part : Sample → Int) : Int :=
  ∑ k ∈ Finset.range c.nTaps, c.h.getD k 0 * part (rawAt xs n k)

/-- The same sum as `M` branch filters `e_p` on the branch inputs `u_p` (R123), for output `m`. -/
def polyphaseSum (c : Cfg) (xs : List Sample) (m : Nat) (part : Sample → Int) : Int :=
  ∑ p ∈ Finset.range c.m, ∑ j ∈ Finset.range c.nTaps,
    c.h.getD (j * c.m + p) 0 *
      part (if j ≤ m then rawAt xs ((m - j) * c.m + c.m - 1) p else Sample.zero)

/-- The `m`-th decimated sample of the stream law (R122). -/
def streamOutput (c : Cfg) (xs : List Sample) (m : Nat) : Sample where
  i := c.qD (directSum c xs (m * c.m + c.m - 1) Sample.i)
  q := c.qD (directSum c xs (m * c.m + c.m - 1) Sample.q)

/-- `FRAME.SYMBOL` on symbols and positions in order: the frames that became complete, and the state
after (R212, R217). -/
def frameStream (c : Cfg) : List (Symbol × Option Nat) → State → List (List Symbol) × State
  | [], s => ([], s)
  | (sym, pos) :: rest, s =>
    let r := frameStream c rest (frameSymbol c sym pos s)
    (if pos = some s.frmFill ∧ s.frmFill + 1 = c.symsPerFrame then (s.frmBuf ++ [sym]) :: r.1 else r.1,
      r.2)

/-- The state with its three counters replaced. -/
def withCounters (f p l : BitVec 32) (s : State) : State :=
  { s with frameErrCnt := f, payloadErrCnt := p, lockLossCnt := l }

end Sys2Proof.Safety
end

