-- ==== Sys2Proof/Certificates/Slice0/Obligations.lean ====
section
/-! DEFINITION. The statements for the provers: what the rules of spec/ say the block does. A statement
that names `Config.cfg` is about the machine's own configuration record; one over every `c : Cfg` holds
of each block. -/

open Sys2Proof Sys2Proof.Machine Sys2Proof.Safety

/-! ## Encoding and the step -/

/-- R91, R92, R98 to R100: every well-formed command is read back from its words, whatever follows. -/
def Obligations.CommandsDecodeBack : Prop :=
  ∀ (i : Instr) (rest : List Word), i.isCommand = true → i.WellFormed = true →
    decode (encode i ++ rest) = .ok (i, rest)

/-- R95, R96, R98: every well-formed event is read back from its words, whatever follows. -/
def Obligations.EventsDecodeBack : Prop :=
  ∀ (i : Instr) (rest : List Word), i.isCommand = false → i.WellFormed = true →
    decodeEvent (encode i ++ rest) = .ok (i, rest)

/-- R91, R92, R98 to R100: what the decoder reads from CMD is a well-formed command and its words are
exactly the words taken, so no bit of a command word is dropped. -/
def Obligations.DecodedCommandsEncodeBack : Prop :=
  ∀ (ws rest : List Word) (i : Instr), decode ws = .ok (i, rest) →
    i.isCommand = true ∧ i.WellFormed = true ∧ encode i ++ rest = ws

/-- R92, R104: the length of a command is read from its first word, and every 32-bit word with its
payload is a command. -/
def Obligations.EveryCommandWordDecodes : Prop :=
  (∀ (w : Word), payloadLen w =
      if opField w = 4 then (argField w).toNat else if opField w = 3 then (lowByte w).toNat else 0) ∧
  (∀ (w : Word) (payload rest : List Word), payload.length = payloadLen w →
    decode (w :: (payload ++ rest)) = .ok (commandOf w payload, rest)) ∧
  (∀ (w : Word) (ws : List Word), ws.length < payloadLen w → decode (w :: ws) = .error .shortPayload)

/-- R98, R102: words written out by hand from the opcode map decode to their commands. -/
def Obligations.WrittenWordsDecode : Prop :=
  decodeTableWord 32 0x00000000 = some (.nop 0) ∧
  decodeTableWord 32 0x1FFFFFFF = some (.reset 0xFFFFFFF) ∧
  decodeTableWord 32 0x20000003 = some (.setSkip 3) ∧
  decode [0x30000002, 0x00000005, 0xFFFFFFFA] = .ok (.loadGainTable [5, 0xFFFFFFFA], []) ∧
  decode [0x30000102, 0x00000005, 0xFFFFFFFA, 7] = .ok (.loadGainTableBad 1 [5, 0xFFFFFFFA], [7]) ∧
  decode [0x40000001, 0x60000000] = .ok (.deliver [0x60000000], []) ∧
  decodeTableWord 32 0x5000000B = some (.readReg 11) ∧
  decodeTableWord 32 0x50000100 = some (.readRegBad 1 0) ∧
  decode [0xF0000005, 0x00000000] = .ok (.reservedF 5, [0x00000000])

/-- R240, R8: a whole command at the front of CMD is taken and executed; its words are gone and nothing
else happens. R291, R310: while no whole command is there the block waits and holds its state; that
the words of a short payload stay on CMD is the model's choice (log 5). -/
def Obligations.StepRunsDecodedCommand : Prop :=
  (∀ (s : State) (i : Instr) (rest : List Word), decode s.cmd = .ok (i, rest) →
    step s = exec i { s with cmd := rest }) ∧
  (∀ (s : State) (r : NoTransaction), decode s.cmd = .error r → step s = .next s)

/-- R10, R289: the machine is the block at its configuration record. -/
def Obligations.MachineIsTheBlockAtItsConfig : Prop :=
  (∀ (i : Instr) (s : State), exec i s = execAt Config.cfg i s) ∧
  (∀ (s : State), step s = stepAt Config.cfg s)

/-! ## Reset and the invariant -/

/-- R47: the reset values the spec gives. -/
def Obligations.ResetValues : Prop :=
  ∀ (c : Cfg), let s := State.resetAt c
    s.skip = 0 ∧ s.used = 0 ∧ s.avail = 0 ∧
    s.hist = List.replicate (c.nTaps - 1) Sample.zero ∧ s.phase = 0 ∧
    s.snrFill = 0 ∧ s.gainLen = 0 ∧ s.curIdx = 0 ∧ s.bestIdx = 0 ∧ s.bestSnr = ⟨0, 1⟩ ∧
    s.remaining = 0 ∧ s.lock = .unlocked ∧ s.acqRun = 0 ∧ s.track = .none ∧ s.lossRun = 0 ∧
    s.frmFill = 0 ∧ s.frameErrCnt = 0 ∧ s.payloadErrCnt = 0 ∧ s.lockLossCnt = 0 ∧
    s.halted = false ∧ s.faultCode = none ∧ mode s = .decode

/-- R24 to R36: the invariants hold after reset; `acq_t` is in range by the value the model gives it
(log 7). -/
def Obligations.ResetMeetsInvariant : Prop :=
  ∀ (c : Cfg), Inv c (State.resetAt c)

/-- R24 to R36, R66: every step keeps the invariants. -/
def Obligations.StepKeepsInvariant : Prop :=
  ∀ (s t : State), Inv Config.cfg s → step s = .next t → Inv Config.cfg t

/-- R242, R48: `RESET` gives every field of the block its reset value, in every mode, and emits
nothing. That the words on the channels stay is the model's reading (log 3). -/
def Obligations.ResetRestoresEveryField : Prop :=
  ∀ (arg : BitVec 28) (s : State), exec (.reset arg) s =
    .next { State.reset with cmd := s.cmd, ret := s.ret, retFree := s.retFree, evt := s.evt }

/-! ## Commands -/

/-- R241: `NOP` changes nothing, in every mode, whatever its argument. -/
def Obligations.NopChangesNothing : Prop :=
  ∀ (arg : BitVec 28) (s : State), exec (.nop arg) s = .next s

/-- R243: `SET_SKIP` replaces the count and changes nothing else; when halted it changes nothing. -/
def Obligations.SetSkipReplacesCount : Prop :=
  ∀ (n : BitVec 28) (s : State), exec (.setSkip n) s =
    .next { s with skip := if s.halted then s.skip else n }

/-- R147: `LOAD_GAIN_TABLE` with at least one gain, both calls answered without `err`: the search
starts, and the first gain is applied and the source's buffering reset. -/
def Obligations.LoadGainTableStartsSearch : Prop :=
  ∀ (g : Word) (gs : List Word) (s : State) (a b : Word) (rest : List Word),
    s.halted = false → s.ret = a :: b :: rest → retErr a = false → retErr b = false →
    exec (.loadGainTable (g :: gs)) s = .next { s with
      gainTab := g :: gs, curIdx := 0, bestIdx := 0, bestSnr := ⟨0, 1⟩,
      remaining := gs.length + 1, snrWin := [],
      ret := rest, evt := s.evt ++ [0x10000000, g, 0x20000000] }

/-- R147, R275, R281: an `err` in the first or in the second answer raises `Fatal(SRC)`; the fields
already written keep their new values, and after an `err` to the first call the second is not
made. -/
def Obligations.LoadGainTableSourceFault : Prop :=
  ∀ (g : Word) (gs : List Word) (s : State) (a b : Word) (rest : List Word),
    s.halted = false →
    (s.ret = a :: rest → retErr a = true →
      exec (.loadGainTable (g :: gs)) s = .next { s with
        gainTab := g :: gs, curIdx := 0, bestIdx := 0, bestSnr := ⟨0, 1⟩,
        remaining := gs.length + 1, snrWin := [], halted := true, faultCode := some .src,
        ret := rest, evt := s.evt ++ [0x10000000, g, 0x70000001] }) ∧
    (s.ret = a :: b :: rest → retErr a = false → retErr b = true →
      exec (.loadGainTable (g :: gs)) s = .next { s with
        gainTab := g :: gs, curIdx := 0, bestIdx := 0, bestSnr := ⟨0, 1⟩,
        remaining := gs.length + 1, snrWin := [], halted := true, faultCode := some .src,
        ret := rest, evt := s.evt ++ [0x10000000, g, 0x20000000, 0x70000001] })

/-- R147, R152: an empty table empties the controller, emits nothing and leaves the mode DECODE. -/
def Obligations.EmptyGainTableSearchesNothing : Prop :=
  ∀ (s : State), s.halted = false →
    ∃ t, exec (.loadGainTable []) s = .next t ∧ mode t = .decode ∧
      t = { s with gainTab := [], curIdx := 0, bestIdx := 0, bestSnr := ⟨0, 1⟩, remaining := 0,
                   snrWin := [] }

/-- R100, R282: a must-be-zero field that is not zero takes `Fatal(CFG)`: `halted` and the code are
set, `FAULT 2` is posted, and nothing else changes. -/
def Obligations.BadFieldTakesConfigFault : Prop :=
  ∀ (mbz : BitVec 20) (payload : List Word) (index : BitVec 8) (s : State), s.halted = false →
    let t := { s with halted := true, faultCode := some .cfg, evt := s.evt ++ [0x70000002] }
    exec (.loadGainTableBad mbz payload) s = .next t ∧ exec (.readRegBad mbz index) s = .next t

/-- R99, R282: each of the ten reserved opcodes takes `Fatal(CFG)` and changes no other state. -/
def Obligations.ReservedOpcodesTakeConfigFault : Prop :=
  ∀ (arg : BitVec 28) (s : State), s.halted = false →
    let t := { s with halted := true, faultCode := some .cfg, evt := s.evt ++ [0x70000002] }
    exec (.reserved6 arg) s = .next t ∧ exec (.reserved7 arg) s = .next t ∧
    exec (.reserved8 arg) s = .next t ∧ exec (.reserved9 arg) s = .next t ∧
    exec (.reservedA arg) s = .next t ∧ exec (.reservedB arg) s = .next t ∧
    exec (.reservedC arg) s = .next t ∧ exec (.reservedD arg) s = .next t ∧
    exec (.reservedE arg) s = .next t ∧ exec (.reservedF arg) s = .next t

/-- R258, R283: in HALTED every command but `RESET` and a legal `READ_REG` changes nothing and emits
nothing. -/
def Obligations.HaltedIgnoresCommands : Prop :=
  ∀ (i : Instr) (s : State), s.halted = true → i.isCommand = true →
    (∀ arg, i ≠ .reset arg) → (∀ index, i ≠ .readReg index) → exec i s = .next s

/-- R247, R40, R72: `READ_REG` posts the register's value, in every mode, and changes nothing else. -/
def Obligations.ReadRegPostsValue : Prop :=
  ∀ (index : BitVec 8) (s : State), exec (.readReg index) s =
    .next { s with evt := s.evt ++ [0x60000000#32 + index.setWidth 32, reg index s] }

/-- R41: the register map. -/
def Obligations.RegisterMapValues : Prop :=
  ∀ (s : State),
    reg 0 s = status s ∧ reg 1 s = s.skip.setWidth 32 ∧ reg 2 s = BitVec.ofNat 32 s.gainLen ∧
    reg 3 s = BitVec.ofNat 32 s.remaining ∧ reg 4 s = BitVec.ofNat 32 s.curIdx ∧
    reg 5 s = BitVec.ofNat 32 s.bestIdx ∧
    (s.gainLen = 0 → reg 6 s = 0) ∧
    (∀ h : s.curIdx < s.gainTab.length, reg 6 s = s.gainTab[s.curIdx]) ∧
    (reg 8 s ++ reg 7 s).toNat = min s.bestSnr.S (2 ^ 64 - 1) ∧
    (reg 10 s ++ reg 9 s).toNat = min s.bestSnr.N (2 ^ 64 - 1) ∧
    reg 11 s = s.frameErrCnt ∧ reg 12 s = s.payloadErrCnt ∧ reg 13 s = s.lockLossCnt ∧
    reg 14 s = BitVec.ofNat 32 (s.avail - s.used) ∧ reg 15 s = BitVec.ofNat 32 s.phase ∧
    reg 16 s = BitVec.ofNat 32 s.snrFill ∧ reg 17 s = BitVec.ofNat 32 s.acqRun ∧
    reg 18 s = BitVec.ofNat 32 s.lossRun ∧ reg 19 s = BitVec.ofNat 32 s.frmFill ∧
    (∀ k : BitVec 8, 20 ≤ k.toNat → reg k s = 0)

/-- R42: the fields of `STATUS`. -/
def Obligations.StatusFieldsShowState : Prop :=
  ∀ (s : State),
    (status s).extractLsb' 0 2 =
      (match s.lock with | .unlocked => 0#2 | .acquiring => 1#2 | .locked => 2#2) ∧
    (status s).extractLsb' 2 2 =
      (match s.track with | .none => 0#2 | .entered => 1#2 | .stable => 2#2 | .degraded => 3#2) ∧
    (status s).getLsbD 4 = decide (0 < s.remaining) ∧
    (status s).getLsbD 5 = s.halted ∧
    (status s).extractLsb' 6 2 =
      (match s.faultCode with | none => 0#2 | some .src => 1#2 | some .cfg => 2#2) ∧
    (status s).extractLsb' 8 24 = 0

/-- R244, R258: `DELIVER` of no samples changes nothing, and samples the skip covers are discarded one
for one and reach nothing. -/
def Obligations.SkippedSamplesReachNothing : Prop :=
  ∀ (ws : List Word) (s : State), s.halted = false → ws.length ≤ s.skip.toNat →
    exec (.deliver ws) s = .next { s with skip := s.skip - BitVec.ofNat 28 ws.length }

/-- R244, R245, R62, R93, R121, R144: `DELIVER` of one more sample in front, not halted and with no skip
left: the sample goes through the Decimation Filter; without an output the rest follows at once. An
output goes, during a search, to the estimator and not to the decimated buffer; outside one it is
appended to the buffer, `used` returning to 0 when the store is full to its end, and the pump runs.
Then the rest follows. -/
def Obligations.DeliverTakesSamplesInOrder : Prop :=
  ∀ (w : Word) (ws : List Word) (s : State), s.halted = false → s.skip = 0 →
    let c := Config.cfg
    let x := sampleOf c.wIn w
    let d := firOutput c (x :: s.hist)
    let s1 := { s with hist := (x :: s.hist).take (c.nTaps - 1) }
    (s.phase ≠ c.m - 1 →
      exec (.deliver (w :: ws)) s = exec (.deliver ws) { s1 with phase := s.phase + 1 }) ∧
    (s.phase = c.m - 1 → 0 < s.remaining →
      exec (.deliver (w :: ws)) s = exec (.deliver ws) (snrPush c d { s1 with phase := 0 }) ∧
      (snrPush c d { s1 with phase := 0 }).dbuf = s.dbuf ∧
      (snrPush c d { s1 with phase := 0 }).used = s.used) ∧
    (s.phase = c.m - 1 → s.remaining = 0 →
      exec (.deliver (w :: ws)) s = exec (.deliver ws) (pump c { s1 with
        phase := 0, dbuf := s.dbuf ++ [d],
        used := if s.used + s.dbuf.length = c.bufLen then 0 else s.used }))

/-- R244, R25, R129: a `DELIVER` outside a search and not halted completes: the skip, the phase and the
filter history are what the rules give, the controller, the fault state and CMD, RET are untouched,
and EVT is only extended. -/
def Obligations.DeliverCompletesInDecodeMode : Prop :=
  ∀ (ws : List Word) (s : State), s.halted = false → s.remaining = 0 → FilterOk Config.cfg s →
    let xs := (ws.drop s.skip.toNat).map (sampleOf Config.cfg.wIn)
    ∃ t words, exec (.deliver ws) s = .next t ∧
      t.skip.toNat = s.skip.toNat - ws.length ∧
      t.phase = (s.phase + xs.length) % Config.cfg.m ∧
      t.hist = (xs.reverse ++ s.hist).take (Config.cfg.nTaps - 1) ∧
      t.snrWin = s.snrWin ∧ t.gainTab = s.gainTab ∧ t.curIdx = s.curIdx ∧ t.bestIdx = s.bestIdx ∧
      t.bestSnr = s.bestSnr ∧ t.remaining = 0 ∧ t.halted = false ∧ t.faultCode = s.faultCode ∧
      t.cmd = s.cmd ∧ t.ret = s.ret ∧ t.retFree = s.retFree ∧ t.evt = s.evt ++ words

/-- R244: two deliveries have exactly the effect and the events of one delivery of their samples
together, wherever the stream is cut. -/
def Obligations.DeliverySplitsAnywhere : Prop :=
  ∀ (a b rest : List Word) (s : State), a.length + b.length < 2 ^ 28 →
    Host.Core.run core 2
      ({ s with cmd := encode (.deliver a) ++ encode (.deliver b) ++ rest } : State) =
    Host.Core.run core 1 ({ s with cmd := encode (.deliver (a ++ b)) ++ rest } : State)

/-! ## Events -/

/-- R250, R251, R249: a call answered without `err` emits its words, takes one RET word and changes
nothing else. That the answers stand in a list of the state is the model's form (log 4). -/
def Obligations.CallsTakeOneAnswer : Prop :=
  ∀ (value r : Word) (rest : List Word) (s : State), s.ret = r :: rest → retErr r = false →
    exec (.applyGain value) s =
      .next { s with ret := rest, evt := s.evt ++ [0x10000000, value] } ∧
    exec .resetBuffering s = .next { s with ret := rest, evt := s.evt ++ [0x20000000] }

/-- R249, R275, R282: a call answered with `err = 1` takes one RET word and raises `Fatal(SRC)`. That
the transaction includes the raise is the model's reading (log 6). -/
def Obligations.FailedCallsTakeSourceFault : Prop :=
  ∀ (value r : Word) (rest : List Word) (fig : SnrT) (s : State), s.halted = false →
    s.ret = r :: rest → retErr r = true →
    let t := { s with halted := true, faultCode := some .src, ret := rest }
    exec (.applyGain value) s =
      .next { t with evt := s.evt ++ [0x10000000, value, 0x70000001] } ∧
    exec .resetBuffering s = .next { t with evt := s.evt ++ [0x20000000, 0x70000001] } ∧
    exec (.onSnr fig) s = .next { t with evt := s.evt ++
      [0x30000000, loWord (usat64 fig.S), hiWord (usat64 fig.S), loWord (usat64 fig.N),
        hiWord (usat64 fig.N), 0x70000001] }

/-- R249, R250 to R252, R275, R148: with no answer listed a call takes a free one and still completes;
the hook's free answer decides as a listed one does. The form of the oracle is the model's choice
(log 4); that the transaction includes the raise and the acting on the answer is the model's reading
(log 6). -/
def Obligations.UnlistedAnswersAreFree : Prop :=
  ∀ (s : State) (value : Word) (fig : SnrT), s.ret = [] →
    let r := Config.hostAnswer s.retFree
    let s1 := { s with retFree := s.retFree + 1 }
    let answered := fun (words : List Word) (go : State → State) =>
      if retErr r = true then
        if s.halted = true then { s1 with evt := s.evt ++ words }
        else { s1 with halted := true, faultCode := some .src, evt := s.evt ++ words ++ [0x70000001] }
      else go { s1 with evt := s.evt ++ words }
    exec (.applyGain value) s = .next (answered [0x10000000, value] (fun t => t)) ∧
    exec .resetBuffering s = .next (answered [0x20000000] (fun t => t)) ∧
    exec (.onSnr fig) s = .next (answered
      [0x30000000, loWord (usat64 fig.S), hiWord (usat64 fig.S), loWord (usat64 fig.N),
        hiWord (usat64 fig.N)]
      (fun t => if s.remaining = 0 then t
        else if retFlag r = false ∨ s.gainLen ≤ s.curIdx + 1 then gainCommit t else gainAdvance t))

/-- R252, R97, R148, R149: the hook's answer `commit`, and `continue` on the last candidate, end the
search; when the best candidate is in force already nothing more is emitted. That the transaction
includes acting on the answer is the model's reading (log 6). -/
def Obligations.HookAnswerCommits : Prop :=
  ∀ (fig : SnrT) (r : Word) (rest : List Word) (s : State), s.ret = r :: rest → retErr r = false →
    0 < s.remaining → s.bestIdx = s.curIdx →
    (retFlag r = false ∨ s.gainLen ≤ s.curIdx + 1) →
    exec (.onSnr fig) s = .next { s with remaining := 0, ret := rest, evt := s.evt ++
      [0x30000000, loWord (usat64 fig.S), hiWord (usat64 fig.S), loWord (usat64 fig.N),
        hiWord (usat64 fig.N)] }

/-- R252, R97, R148, R150: the hook's answer `continue` before the last candidate goes on to the next
gain. That the transaction includes acting on the answer is the model's reading (log 6). -/
def Obligations.HookAnswerContinues : Prop :=
  ∀ (fig : SnrT) (r a b : Word) (rest : List Word) (s : State) (h : s.curIdx + 1 < s.gainTab.length),
    s.ret = r :: a :: b :: rest → retErr r = false → retFlag r = true → retErr a = false →
    retErr b = false → 0 < s.remaining →
    exec (.onSnr fig) s = .next { s with
      curIdx := s.curIdx + 1, remaining := s.remaining - 1, ret := rest, evt := s.evt ++
      [0x30000000, loWord (usat64 fig.S), hiWord (usat64 fig.S), loWord (usat64 fig.N),
        hiWord (usat64 fig.N), 0x10000000, s.gainTab[s.curIdx + 1], 0x20000000] }

/-- R253 to R255, R249: a post writes its header and payload words and changes nothing else. -/
def Obligations.PostsOnlyAppendWords : Prop :=
  ∀ (chan : BitVec 12) (bytes : List Byte) (index : BitVec 8) (value : Word) (s : State),
    bytes.length < 2 ^ 16 →
    exec (.pushPdu chan bytes) s = .next { s with evt := s.evt ++
      (BitVec.ofNat 32 (0x40000000 + chan.toNat * 2 ^ 16 + bytes.length) :: packBytes bytes) } ∧
    exec (.pushAncillary bytes) s = .next { s with evt := s.evt ++
      (BitVec.ofNat 32 (0x50000000 + bytes.length) :: packBytes bytes) } ∧
    exec (.regValue index value) s = .next { s with evt := s.evt ++
      [BitVec.ofNat 32 (0x60000000 + index.toNat), value] }

/-- R256, R282, R283: the first fatal fault latches its code and is posted; a later one changes
nothing. That the transaction includes the raise is the model's reading (log 6). -/
def Obligations.FirstFaultLatches : Prop :=
  ∀ (s : State),
    (s.halted = false →
      exec (.fault .src) s = .next { s with
        halted := true, faultCode := some .src, evt := s.evt ++ [0x70000001] } ∧
      exec (.fault .cfg) s = .next { s with
        halted := true, faultCode := some .cfg, evt := s.evt ++ [0x70000002] }) ∧
    (∀ code, s.halted = true → exec (.fault code) s = .next s)

/-- R68, R96: the payload bytes travel four to a word, low byte first, the unused high bytes 0, in
`ceil (length / 4)` words. -/
def Obligations.PayloadBytesPackLowFirst : Prop :=
  ∀ (bytes : List Byte),
    (packBytes bytes).length = (bytes.length + 3) / 4 ∧
    ∀ (k j : Nat), j < 4 →
      ((packBytes bytes).getD k 0).extractLsb' (8 * j) 8 = bytes.getD (4 * k + j) 0

/-- R76: whatever the block does, EVT is only extended. -/
def Obligations.EventsAreOnlyAppended : Prop :=
  ∀ (i : Instr) (s t : State), exec i s = .next t → ∃ words, t.evt = s.evt ++ words

/-- R36, R283: once halted the block stays halted with the first fault's code until `RESET`. -/
def Obligations.HaltedUntilReset : Prop :=
  ∀ (i : Instr) (s t : State), s.halted = true → (∀ arg, i ≠ .reset arg) → exec i s = .next t →
    t.halted = true ∧ t.faultCode = s.faultCode

/-! ## Decimation Filter -/

/-- R93: a sample word's halves are read as two's-complement numbers of `W_IN` bits, from their low
`W_IN` bits alone. -/
def Obligations.SampleWordAssembly : Prop :=
  (∀ (w : Word), sampleOf 16 w = ⟨(w.extractLsb' 0 16).toInt, (w.extractLsb' 16 16).toInt⟩) ∧
  (∀ (n : Nat) (w : Word), 1 ≤ n → n ≤ 16 → (sampleOf n w).Fits n ∧
    (sampleOf n w).i % 2 ^ n = (w.toNat : Int) % 2 ^ n ∧
    (sampleOf n w).q % 2 ^ n = ((w.toNat / 2 ^ 16 : Nat) : Int) % 2 ^ n)

/-- R129: after `n` raw samples from reset exactly `n / M` decimated samples were produced and the
phase is `n mod M`. -/
def Obligations.DecimationCountLaw : Prop :=
  ∀ (c : Cfg) (xs : List Sample),
    (decimate c xs (State.resetAt c)).1.length = xs.length / c.m ∧
    (decimate c xs (State.resetAt c)).2.phase = xs.length % c.m

/-- R122: the decimated samples are the convolution at the last raw sample of each group of `M`. -/
def Obligations.DecimationStreamLaw : Prop :=
  ∀ (c : Cfg) (xs : List Sample),
    (decimate c xs (State.resetAt c)).1 = (List.range (xs.length / c.m)).map (streamOutput c xs)

/-- R123: the polyphase form computes the same sums as the direct form. -/
def Obligations.PolyphaseEqualsDirectForm : Prop :=
  ∀ (c : Cfg) (xs : List Sample) (m : Nat) (part : Sample → Int), part Sample.zero = 0 →
    directSum c xs (m * c.m + c.m - 1) part = polyphaseSum c xs m part

/-! ## Estimator and controller -/

/-- R142, R143: the figure is the power of the signal bins and that of all the other bins of the
transform of the windowed samples; every bin is in one of the two sums and none is in both. R10, R252:
of 64 samples in range both powers have at most `W_P` bits, so that they travel unclamped. -/
def Obligations.EstimatePartitionsBins : Prop :=
  ∀ (c : Cfg) (win : List Sample),
    let v := List.ofFn (fun n : Fin win.length =>
      (⟨c.snrWindow n * win[n].i, c.snrWindow n * win[n].q⟩ : Sample))
    let P : Nat → Int := fun k =>
      let X := (c.fft64 v).getD k Sample.zero
      X.i * X.i + X.q * X.q
    ((snrEstimate c win).S : Int) = ∑ k ∈ (Finset.range 64).filter (fun k => c.sigBins k = true), P k ∧
    ((snrEstimate c win).N : Int) = ∑ k ∈ (Finset.range 64).filter (fun k => c.sigBins k = false), P k ∧
    ((snrEstimate c win).S + (snrEstimate c win).N : Int) = ∑ k ∈ Finset.range 64, P k ∧
    (IsWindow c.wD 64 win →
      (snrEstimate c win).S < 2 ^ c.wP ∧ (snrEstimate c win).N < 2 ^ c.wP ∧
      (usat64 (snrEstimate c win).S).toNat = (snrEstimate c win).S ∧
      (usat64 (snrEstimate c win).N).toNat = (snrEstimate c win).N)

/-- R141: decimated samples that do not fill the window are only stored; the one that fills it empties
the window, makes one figure of the 64 and steps the controller. R244, R245, R144, R308: so it is for
a `DELIVER` during a search, whose decimated samples go to the window alone; and as long as the search
goes on, a `DELIVER` leaves the decimated buffer, the lock state, the trackers, the frame store and the
counters as they were. -/
def Obligations.EstimatorCycleOf64 : Prop :=
  (∀ (c : Cfg) (ds : List Sample) (s : State), ds ≠ [] →
    (s.snrFill + ds.length < 64 →
      ds.foldl (fun s d => snrPush c d s) s = { s with snrWin := s.snrWin ++ ds }) ∧
    (s.snrFill + ds.length = 64 →
      ds.foldl (fun s d => snrPush c d s) s =
        gainStep c (snrEstimate c (s.snrWin ++ ds)) { s with snrWin := [] })) ∧
  (∀ (ws : List Word) (s : State), s.halted = false → 0 < s.remaining →
    let c := Config.cfg
    let xs := (ws.drop s.skip.toNat).map (sampleOf c.wIn)
    let r := decimate c xs { s with skip := BitVec.ofNat 28 (s.skip.toNat - ws.length) }
    (s.snrFill + r.1.length < 64 →
      exec (.deliver ws) s = .next { r.2 with snrWin := s.snrWin ++ r.1 }) ∧
    (xs ≠ [] → r.2.phase = 0 → s.snrFill + r.1.length = 64 →
      exec (.deliver ws) s =
        .next (gainStep c (snrEstimate c (s.snrWin ++ r.1)) { r.2 with snrWin := [] }))) ∧
  (∀ (ws : List Word) (s t : State), 0 < s.remaining → exec (.deliver ws) s = .next t →
    0 < t.remaining →
    t.dbuf = s.dbuf ∧ t.used = s.used ∧ t.lock = s.lock ∧ t.acqRun = s.acqRun ∧ t.acqF = s.acqF ∧
    t.acqT = s.acqT ∧ t.ctx = s.ctx ∧ t.track = s.track ∧ t.lossRun = s.lossRun ∧
    t.frmBuf = s.frmBuf ∧ t.frameErrCnt = s.frameErrCnt ∧ t.payloadErrCnt = s.payloadErrCnt ∧
    t.lockLossCnt = s.lockLossCnt ∧ t.gainTab = s.gainTab ∧ t.cmd = s.cmd)

/-- R16: the comparisons without division are those of the values. -/
def Obligations.SnrOrderIsOrderOfValues : Prop :=
  ∀ (c : Cfg) (a b : SnrT),
    (ge a b = true ↔ snrVal b ≤ snrVal a) ∧ (ltDrop c a b = true ↔ snrVal a < dropLimit c b)

/-- R149: a commit to another candidate restores its index, clears the count and applies its gain; one
to the candidate in force emits nothing. R150: an advance moves to the next candidate and applies its
gain. R281: an `err` in either call raises `Fatal(SRC)` with the index and the count already moved, and
after an `err` to the first call the second is not made. -/
def Obligations.CommitAppliesBestGain : Prop :=
  (∀ (s : State), s.bestIdx = s.curIdx → gainCommit s = { s with remaining := 0 }) ∧
  (∀ (s : State) (i : Nat) (h : i < s.gainTab.length) (moved : State) (op : State → State),
    (i = s.bestIdx ∧ s.bestIdx ≠ s.curIdx ∧ moved = { s with curIdx := i, remaining := 0 } ∧
        op = gainCommit) ∨
      (i = s.curIdx + 1 ∧ moved = { s with curIdx := i, remaining := s.remaining - 1 } ∧
        op = gainAdvance) →
    ∀ (a b : Word) (rest : List Word),
      (s.ret = a :: b :: rest → retErr a = false → retErr b = false →
        op s = { moved with ret := rest,
                            evt := s.evt ++ [0x10000000, s.gainTab[i], 0x20000000] }) ∧
      (s.halted = false → s.ret = a :: rest → retErr a = true →
        op s = { moved with halted := true, faultCode := some .src, ret := rest,
                            evt := s.evt ++ [0x10000000, s.gainTab[i], 0x70000001] }) ∧
      (s.halted = false → s.ret = a :: b :: rest → retErr a = false → retErr b = true →
        op s = { moved with halted := true, faultCode := some .src, ret := rest,
                            evt := s.evt ++ [0x10000000, s.gainTab[i], 0x20000000, 0x70000001] }))

/-- R155: a table of one gain commits on its first figure and emits nothing beyond the load. -/
def Obligations.SingleGainCommitsSilently : Prop :=
  ∀ (c : Cfg) (fig : SnrT) (g : Word) (s : State), c.hookExternal = false →
    gainStep c fig (startSearch [g] s) =
      { startSearch [g] s with bestSnr := fig, remaining := 0 }

/-- R148, R151: one `GAIN.STEP`. Without candidates it does nothing. The figure is recorded as the best
exactly when it is not below the best so far. With an external hook the step is the call of the hook
(what `ON_SNR` does is stated by the hook's statements); without one it commits exactly when the
candidate is the last or the figure has fallen below the drop limit of the best, and else goes on to
the next gain. R154, R28: so a figure ends the search on the best index or moves to the next one, and
never back to an earlier one otherwise; only a fault of the hook's call leaves the index. The
controller's invariants are kept. -/
def Obligations.SearchNeverRescans : Prop :=
  ∀ (c : Cfg) (fig : SnrT) (s : State),
    (s.remaining = 0 → gainStep c fig s = s) ∧
    (0 < s.remaining →
      let t := gainStep c fig s
      let s1 := if ge fig s.bestSnr = true then { s with bestIdx := s.curIdx, bestSnr := fig } else s
      (c.hookExternal = true → exec (.onSnr fig) s1 = .next t) ∧
      (c.hookExternal = false → (s.gainLen ≤ s.curIdx + 1 ∨ ltDrop c fig s1.bestSnr = true) →
        t = gainCommit s1) ∧
      (c.hookExternal = false → ∀ (h : s.curIdx + 1 < s.gainTab.length) (a b : Word)
        (rest : List Word), ltDrop c fig s1.bestSnr = false → s.ret = a :: b :: rest →
        retErr a = false → retErr b = false →
        t = { s1 with curIdx := s.curIdx + 1, remaining := s.remaining - 1, ret := rest,
                      evt := s.evt ++ [0x10000000, s.gainTab[s.curIdx + 1], 0x20000000] }) ∧
      (ControllerOk s → ControllerOk t ∧ t.gainTab = s.gainTab ∧
        ((t.remaining = 0 ∧ t.curIdx = t.bestIdx) ∨
         (t.curIdx = s.curIdx + 1 ∧ t.remaining = s.remaining - 1) ∨
         (c.hookExternal = true ∧ t.halted = true ∧ t.curIdx = s.curIdx ∧
          t.remaining = s.remaining))))

/-- R156: for figures that rise and then fall, the built-in policy commits to a figure no other
exceeds, and the search is over at the latest with the first figure below the drop limit of an
earlier one. -/
def Obligations.SearchCommitsToMaximum : Prop :=
  ∀ (c : Cfg) (gains : List Word) (figs : List SnrT) (peak : Nat) (s : State),
    c.hookExternal = false → figs.length = gains.length → peak < figs.length →
    (∀ i j (hi : i < figs.length) (hj : j < figs.length), i ≤ j →
      (j ≤ peak → ge figs[j] figs[i] = true) ∧ (peak ≤ i → ge figs[i] figs[j] = true)) →
    let feed := fun (n : Nat) => (figs.take n).foldl (fun s f => gainStep c f s) (startSearch gains s)
    (feed figs.length).remaining = 0 ∧
    (∃ h : (feed figs.length).curIdx < figs.length, ∀ j (hj : j < figs.length),
      ge figs[(feed figs.length).curIdx] figs[j] = true) ∧
    (∀ i j (hi : i < figs.length) (hj : j < figs.length), i ≤ j →
      ltDrop c figs[j] figs[i] = true → (feed (j + 1)).remaining = 0)

/-! ## Acquisition, Synchronization and the pump -/

/-- R171, R172: one evaluation misses, extends the run, or completes the span and locks. -/
def Obligations.AcquisitionStepOutcomes : Prop :=
  ∀ (c : Cfg) (s : State),
    let r := c.acqCorr (s.dbuf.take c.acqWin)
    (r.e ≤ c.acqThresh → acqStep c s = { s with
      acqRun := 0, lock := .unlocked, used := s.used + c.acqAdv, dbuf := s.dbuf.drop c.acqAdv }) ∧
    (c.acqThresh < r.e → s.acqRun + 1 < c.acqSustain → acqStep c s = { s with
      acqF := r.f, acqT := r.t, acqRun := s.acqRun + 1, lock := .acquiring,
      used := s.used + c.acqAdv, dbuf := s.dbuf.drop c.acqAdv }) ∧
    (c.acqThresh < r.e → c.acqSustain ≤ s.acqRun + 1 → acqStep c s = { s with
      acqF := r.f, acqT := r.t, acqRun := 0, lock := .locked, track := .entered, lossRun := 0,
      ctx := c.syncInit r.f r.t, used := s.used + r.t, dbuf := s.dbuf.drop r.t })

/-- R175: a dead front end never leaves UNLOCKED: zero samples to a block whose stores are zero and
whose quantiser maps 0 to 0. -/
def Obligations.DeadInputStaysUnlocked : Prop :=
  ∀ (c : Cfg) (n : Nat) (s : State), c.qD 0 = 0 → s.halted = false → s.remaining = 0 →
    s.lock = .unlocked → s.acqRun = 0 → (∀ x ∈ s.hist, x = Sample.zero) →
    (∀ x ∈ s.dbuf, x = Sample.zero) →
    ∃ t, execAt c (.deliver (List.replicate n 0)) s = .next t ∧ t.lock = .unlocked ∧ t.acqRun = 0 ∧
      t.evt = s.evt

/-- R188: the tracking state and the loss run after one quality figure, and when the lock is lost. -/
def Obligations.TrackUpdateOutcomes : Prop :=
  ∀ (c : Cfg) (q : Int) (s : State),
    (c.qDegrade ≤ q → trackUpdate c q s = (false, { s with track := .stable, lossRun := 0 })) ∧
    (q < c.qDegrade → c.qLoss ≤ q →
      trackUpdate c q s = (false, { s with track := .degraded, lossRun := 0 })) ∧
    (q < c.qLoss → s.lossRun + 1 < c.lossSustain →
      trackUpdate c q s = (false, { s with track := .degraded, lossRun := s.lossRun + 1 })) ∧
    (q < c.qLoss → c.lossSustain ≤ s.lossRun + 1 →
      trackUpdate c q s = (true, { s with track := .degraded }))

/-- R186, R190: one symbol period: the tracker's answer on the oldest samples, its advance consumed;
the symbol goes to Frame unless the lock is lost. -/
def Obligations.SymbolPeriodOutcomes : Prop :=
  ∀ (c : Cfg) (s : State),
    let o := c.syncStep s.ctx (s.dbuf.take (c.symLen + c.symSlack))
    let u := trackUpdate c o.q
      { s with ctx := o.ctx, used := s.used + o.adv, dbuf := s.dbuf.drop o.adv }
    syncSymbol c s = if u.1 = true then syncLoss u.2 else frameSymbol c o.sym o.pos u.2

/-- R189: full loss of lock. -/
def Obligations.LossReturnsToAcquisition : Prop :=
  ∀ (s : State), syncLoss s = { s with
    lock := .unlocked, track := .none, lossRun := 0, acqRun := 0, frmBuf := [],
    lockLossCnt := BitVec.ofNat 32 (min (s.lockLossCnt.toNat + 1) (2 ^ 32 - 1)) }

/-- R192: the transition table of the pair (lock, track), for one turn of the pump. -/
def Obligations.LockTransitionTable : Prop :=
  ∀ (c : Cfg) (s t : State), (s.track = .none ↔ s.lock ≠ .locked) → pumpTurn c s = some t →
    (s.lock = .locked ∧ ((t.lock = .locked ∧ (t.track = .stable ∨ t.track = .degraded)) ∨
      (t.lock = .unlocked ∧ t.track = .none ∧ t.frmFill = 0 ∧ t.acqRun = 0))) ∨
    (s.lock ≠ .locked ∧ ((t.lock = .locked ∧ t.track = .entered) ∨
      (t.lock = .acquiring ∧ t.track = .none) ∨ (t.lock = .unlocked ∧ t.track = .none)))

/-- R246: a turn of the pump is an acquisition step while not locked and with a window there, a symbol
step while locked and with a symbol there, and else none; the pump takes turn after turn until there
is none. R66: so the occupancy it leaves is below both needs. -/
def Obligations.PumpRunsToRest : Prop :=
  (∀ (c : Cfg) (s : State),
    (s.halted = false → s.lock ≠ .locked → c.acqWin ≤ occupancy s →
      pumpTurn c s = some (acqStep c s)) ∧
    (s.halted = false → s.lock = .locked → c.symMax ≤ occupancy s →
      pumpTurn c s = some (syncSymbol c s)) ∧
    (s.halted = true ∨ (s.lock ≠ .locked ∧ occupancy s < c.acqWin) ∨
        (s.lock = .locked ∧ occupancy s < c.symMax) →
      pumpTurn c s = none)) ∧
  (∀ (c : Cfg) (s : State), (∀ x ∈ s.dbuf, x.Fits c.wD) →
    (pumpTurn c s = none → pump c s = s) ∧
    (∀ t, pumpTurn c s = some t → pump c s = pump c t) ∧
    pumpTurn c (pump c s) = none ∧ (s.halted = false → occupancy (pump c s) < c.need))

/-- R65, R64: the pump takes unconsumed samples from the oldest on only, each once: what it leaves is
the rest of the sequence, and `used` moves by the samples taken. -/
def Obligations.PumpConsumesInOrder : Prop :=
  ∀ (c : Cfg) (s : State), (∀ x ∈ s.dbuf, x.Fits c.wD) →
    ∃ n, n ≤ s.dbuf.length ∧ (pump c s).dbuf = s.dbuf.drop n ∧ (pump c s).used = s.used + n

/-! ## Frame and Decode -/

/-- R212: where a symbol goes: one of unknown position is dropped; one at the next position is stored,
or completes the frame if it is the last; one at position 0 restarts the frame, or is a frame by
itself; any other empties the store. -/
def Obligations.FrameSymbolPlacement : Prop :=
  ∀ (c : Cfg) (sym : Symbol) (p : Nat) (s : State),
    frameSymbol c sym none s = s ∧
    (p = s.frmFill → s.frmFill + 1 ≠ c.symsPerFrame →
      frameSymbol c sym (some p) s = { s with frmBuf := s.frmBuf ++ [sym] }) ∧
    (p = s.frmFill → s.frmFill + 1 = c.symsPerFrame →
      frameSymbol c sym (some p) s = frameComplete c { s with frmBuf := s.frmBuf ++ [sym] }) ∧
    (p ≠ s.frmFill → p = 0 → c.symsPerFrame ≠ 1 →
      frameSymbol c sym (some p) s = { s with frmBuf := [sym] }) ∧
    (p ≠ s.frmFill → p = 0 → c.symsPerFrame = 1 →
      frameSymbol c sym (some p) s = frameComplete c { s with frmBuf := [sym] }) ∧
    (p ≠ s.frmFill → p ≠ 0 → frameSymbol c sym (some p) s = { s with frmBuf := [] })

/-- R218, R213: Decode is reached, and a frame is counted bad, only through a symbol at the next free
position that is the last of the frame. -/
def Obligations.DecodeOnlyAfterCompleteFrame : Prop :=
  ∀ (c : Cfg) (sym : Symbol) (pos : Option Nat) (s : State), s.frmFill < c.symsPerFrame →
    (let t := frameSymbol c sym pos s
     t.evt ≠ s.evt ∨ t.payloadErrCnt ≠ s.payloadErrCnt ∨ t.frameErrCnt ≠ s.frameErrCnt) →
    pos = some s.frmFill ∧ s.frmFill + 1 = c.symsPerFrame ∧
      frameSymbol c sym pos s = frameComplete c { s with frmBuf := s.frmBuf ++ [sym] }

/-- R213 to R215, R226, R231: a frame that fails its check is dropped and counted; of one that passes,
each region goes through the deinterleaver, the error-correction decoder and the payload check, the
payloads that pass are posted in the order of its regions, each failed one is counted, and nothing
else changes. R217 (P-FRAME, log 13): an uncorrupted frame passes and one with a structural bit
corrupted fails, so symbols that complete uncorrupted frames only count no frame error. R96: a payload
of a frame that occurs is not longer than `MAX_PDU_LEN`, so its event has an encoding of its own. -/
def Obligations.CompleteFrameDispatchesRegions : Prop :=
  (∀ (c : Cfg) (s : State),
    let failed := { s with
      frmBuf := [],
      frameErrCnt := BitVec.ofNat 32 (min (s.frameErrCnt.toNat + 1) (2 ^ 32 - 1)) }
    let decoded := fun (r : Region) =>
      c.payloadCheck r.kind (c.fecDecode r.kind (deinterleave c r.kind r.data))
    let regions := c.frameSplit s.frmBuf
    let bad := (regions.filter (fun r => (decoded r).isNone)).length
    let passed := { s with
      frmBuf := [],
      payloadErrCnt := BitVec.ofNat 32 (min (s.payloadErrCnt.toNat + bad) (2 ^ 32 - 1)),
      evt := s.evt ++ regions.flatMap (fun r =>
        match decoded r with
        | none => []
        | some p =>
          match r.kind with
          | .pdu => encode (.pushPdu r.chanId p)
          | .ancillary => encode (.pushAncillary p)) }
    (c.frameCheck s.frmBuf = false → frameComplete c s = failed) ∧
    (c.frameCheck s.frmBuf = true → frameComplete c s = passed) ∧
    (c.cleanFrame s.frmBuf = true → frameComplete c s = passed) ∧
    (∀ F b, c.cleanFrame F = true → b < c.structBits → s.frmBuf = c.flipBit b F →
      frameComplete c s = failed) ∧
    (c.FrameOccurs s.frmBuf → c.frameCheck s.frmBuf = true →
      ∀ r ∈ regions, ∀ p ∈ decoded r,
        p.length ≤ c.maxPduLen ∧ (dispatchEvent r p).WellFormed = true)) ∧
  (∀ (c : Cfg) (syms : List (Symbol × Option Nat)) (s : State), s.frmFill < c.symsPerFrame →
    (∀ F ∈ (frameStream c syms s).1, c.cleanFrame F = true) →
    (frameStream c syms s).2.frameErrCnt = s.frameErrCnt)

/-- R227: deinterleaving only reorders: for each kind and length there is one permutation of the
positions, and the result holds the input's elements in that order. -/
def Obligations.DeinterleaveIsPermutation : Prop :=
  ∀ (c : Cfg) (k : Kind) (n : Nat), ∃ pos : List Nat, pos.Perm (List.range n) ∧
    ∀ l : List Soft, l.length = n →
      deinterleave c k l = pos.map (fun p => l.getD p 0) ∧ (deinterleave c k l).Perm l

/-- R287, R35: the counters decide nothing: a delivery to blocks that differ in their counters only
leaves blocks that differ in their counters only. -/
def Obligations.CountersDecideNothing : Prop :=
  ∀ (c : Cfg) (ws : List Word) (f p l : BitVec 32) (s t : State),
    execAt c (.deliver ws) s = .next t →
    ∃ f' p' l', execAt c (.deliver ws) (withCounters f p l s) = .next (withCounters f' p' l' t)
end

