-- ==== Sys2Proof/Laws/Fields.lean ====
section
/-! SUPPORT. The fields of a word put together from its fields (spec/30_encoding.md R91, R95), and how
many words payload bytes take (spec/20_memory.md R68). -/

namespace Sys2Proof

theorem opField_arg (o : BitVec 4) (a : BitVec 28) : opField (o ++ a) = o :=
  BitVec.extractLsb'_append_eq_left

theorem argField_arg (o : BitVec 4) (a : BitVec 28) : argField (o ++ a) = a :=
  BitVec.extractLsb'_append_eq_right

theorem opField_byte (o : BitVec 4) (m : BitVec 20) (b : BitVec 8) : opField (o ++ m ++ b) = o := by
  ext i hi
  simp [opField, BitVec.getElem_extractLsb']
  grind

theorem mbzField_byte (o : BitVec 4) (m : BitVec 20) (b : BitVec 8) : mbzField (o ++ m ++ b) = m := by
  ext i hi
  simp [mbzField, BitVec.getElem_extractLsb']
  grind

theorem lowByte_byte (o : BitVec 4) (m : BitVec 20) (b : BitVec 8) : lowByte (o ++ m ++ b) = b :=
  BitVec.extractLsb'_append_eq_right

theorem opField_len (o : BitVec 4) (c : BitVec 12) (n : BitVec 16) : opField (o ++ c ++ n) = o := by
  ext i hi
  simp [opField, BitVec.getElem_extractLsb']
  grind

theorem chanField_len (o : BitVec 4) (c : BitVec 12) (n : BitVec 16) :
    chanField (o ++ c ++ n) = c := by
  ext i hi
  simp [chanField, BitVec.getElem_extractLsb']
  grind

theorem lenField_len (o : BitVec 4) (c : BitVec 12) (n : BitVec 16) : lenField (o ++ c ++ n) = n :=
  BitVec.extractLsb'_append_eq_right

end Sys2Proof
end

