-- ==== Sys2Proof/Laws/State.lean ====
section
/-! SUPPORT. One lemma per field per update: what the shared operations leave as it was and what they
write, so that no later proof unfolds a record update. -/

namespace Sys2Proof.Machine

/-! `post` writes EVT. -/

@[simp] theorem post_evt (e : Instr) (s : State) : (post e s).evt = s.evt ++ encode e := rfl
@[simp] theorem post_skip (e : Instr) (s : State) : (post e s).skip = s.skip := rfl
@[simp] theorem post_dbuf (e : Instr) (s : State) : (post e s).dbuf = s.dbuf := rfl
@[simp] theorem post_used (e : Instr) (s : State) : (post e s).used = s.used := rfl
@[simp] theorem post_hist (e : Instr) (s : State) : (post e s).hist = s.hist := rfl
@[simp] theorem post_phase (e : Instr) (s : State) : (post e s).phase = s.phase := rfl
@[simp] theorem post_snrWin (e : Instr) (s : State) : (post e s).snrWin = s.snrWin := rfl
@[simp] theorem post_gainTab (e : Instr) (s : State) : (post e s).gainTab = s.gainTab := rfl
@[simp] theorem post_curIdx (e : Instr) (s : State) : (post e s).curIdx = s.curIdx := rfl
@[simp] theorem post_bestIdx (e : Instr) (s : State) : (post e s).bestIdx = s.bestIdx := rfl
@[simp] theorem post_bestSnr (e : Instr) (s : State) : (post e s).bestSnr = s.bestSnr := rfl
@[simp] theorem post_remaining (e : Instr) (s : State) : (post e s).remaining = s.remaining := rfl
@[simp] theorem post_lock (e : Instr) (s : State) : (post e s).lock = s.lock := rfl
@[simp] theorem post_acqRun (e : Instr) (s : State) : (post e s).acqRun = s.acqRun := rfl
@[simp] theorem post_acqF (e : Instr) (s : State) : (post e s).acqF = s.acqF := rfl
@[simp] theorem post_acqT (e : Instr) (s : State) : (post e s).acqT = s.acqT := rfl
@[simp] theorem post_ctx (e : Instr) (s : State) : (post e s).ctx = s.ctx := rfl
@[simp] theorem post_track (e : Instr) (s : State) : (post e s).track = s.track := rfl
@[simp] theorem post_lossRun (e : Instr) (s : State) : (post e s).lossRun = s.lossRun := rfl
@[simp] theorem post_frmBuf (e : Instr) (s : State) : (post e s).frmBuf = s.frmBuf := rfl
@[simp] theorem post_frameErrCnt (e : Instr) (s : State) : (post e s).frameErrCnt = s.frameErrCnt := rfl
@[simp] theorem post_payloadErrCnt (e : Instr) (s : State) : (post e s).payloadErrCnt = s.payloadErrCnt := rfl
@[simp] theorem post_lockLossCnt (e : Instr) (s : State) : (post e s).lockLossCnt = s.lockLossCnt := rfl
@[simp] theorem post_halted (e : Instr) (s : State) : (post e s).halted = s.halted := rfl
@[simp] theorem post_faultCode (e : Instr) (s : State) : (post e s).faultCode = s.faultCode := rfl
@[simp] theorem post_cmd (e : Instr) (s : State) : (post e s).cmd = s.cmd := rfl
@[simp] theorem post_ret (e : Instr) (s : State) : (post e s).ret = s.ret := rfl
@[simp] theorem post_retFree (e : Instr) (s : State) : (post e s).retFree = s.retFree := rfl

/-! `consume` moves the front of the decimated buffer. -/

@[simp] theorem consume_dbuf (n : Nat) (s : State) : (consume n s).dbuf = s.dbuf.drop n := rfl
@[simp] theorem consume_used (n : Nat) (s : State) : (consume n s).used = s.used + n := rfl
@[simp] theorem consume_skip (n : Nat) (s : State) : (consume n s).skip = s.skip := rfl
@[simp] theorem consume_hist (n : Nat) (s : State) : (consume n s).hist = s.hist := rfl
@[simp] theorem consume_phase (n : Nat) (s : State) : (consume n s).phase = s.phase := rfl
@[simp] theorem consume_snrWin (n : Nat) (s : State) : (consume n s).snrWin = s.snrWin := rfl
@[simp] theorem consume_gainTab (n : Nat) (s : State) : (consume n s).gainTab = s.gainTab := rfl
@[simp] theorem consume_curIdx (n : Nat) (s : State) : (consume n s).curIdx = s.curIdx := rfl
@[simp] theorem consume_bestIdx (n : Nat) (s : State) : (consume n s).bestIdx = s.bestIdx := rfl
@[simp] theorem consume_bestSnr (n : Nat) (s : State) : (consume n s).bestSnr = s.bestSnr := rfl
@[simp] theorem consume_remaining (n : Nat) (s : State) : (consume n s).remaining = s.remaining := rfl
@[simp] theorem consume_lock (n : Nat) (s : State) : (consume n s).lock = s.lock := rfl
@[simp] theorem consume_acqRun (n : Nat) (s : State) : (consume n s).acqRun = s.acqRun := rfl
@[simp] theorem consume_acqF (n : Nat) (s : State) : (consume n s).acqF = s.acqF := rfl
@[simp] theorem consume_acqT (n : Nat) (s : State) : (consume n s).acqT = s.acqT := rfl
@[simp] theorem consume_ctx (n : Nat) (s : State) : (consume n s).ctx = s.ctx := rfl
@[simp] theorem consume_track (n : Nat) (s : State) : (consume n s).track = s.track := rfl
@[simp] theorem consume_lossRun (n : Nat) (s : State) : (consume n s).lossRun = s.lossRun := rfl
@[simp] theorem consume_frmBuf (n : Nat) (s : State) : (consume n s).frmBuf = s.frmBuf := rfl
@[simp] theorem consume_frameErrCnt (n : Nat) (s : State) : (consume n s).frameErrCnt = s.frameErrCnt := rfl
@[simp] theorem consume_payloadErrCnt (n : Nat) (s : State) : (consume n s).payloadErrCnt = s.payloadErrCnt := rfl
@[simp] theorem consume_lockLossCnt (n : Nat) (s : State) : (consume n s).lockLossCnt = s.lockLossCnt := rfl
@[simp] theorem consume_halted (n : Nat) (s : State) : (consume n s).halted = s.halted := rfl
@[simp] theorem consume_faultCode (n : Nat) (s : State) : (consume n s).faultCode = s.faultCode := rfl
@[simp] theorem consume_cmd (n : Nat) (s : State) : (consume n s).cmd = s.cmd := rfl
@[simp] theorem consume_ret (n : Nat) (s : State) : (consume n s).ret = s.ret := rfl
@[simp] theorem consume_retFree (n : Nat) (s : State) : (consume n s).retFree = s.retFree := rfl
@[simp] theorem consume_evt (n : Nat) (s : State) : (consume n s).evt = s.evt := rfl

/-! `memWrite` appends to the decimated buffer. -/

@[simp] theorem memWrite_dbuf (c : Cfg) (v : Sample) (s : State) :
    (memWrite c v s).dbuf = s.dbuf ++ [v] := rfl
@[simp] theorem memWrite_skip (c : Cfg) (v : Sample) (s : State) : (memWrite c v s).skip = s.skip := rfl
@[simp] theorem memWrite_hist (c : Cfg) (v : Sample) (s : State) : (memWrite c v s).hist = s.hist := rfl
@[simp] theorem memWrite_phase (c : Cfg) (v : Sample) (s : State) : (memWrite c v s).phase = s.phase := rfl
@[simp] theorem memWrite_snrWin (c : Cfg) (v : Sample) (s : State) : (memWrite c v s).snrWin = s.snrWin := rfl
@[simp] theorem memWrite_gainTab (c : Cfg) (v : Sample) (s : State) : (memWrite c v s).gainTab = s.gainTab := rfl
@[simp] theorem memWrite_curIdx (c : Cfg) (v : Sample) (s : State) : (memWrite c v s).curIdx = s.curIdx := rfl
@[simp] theorem memWrite_bestIdx (c : Cfg) (v : Sample) (s : State) : (memWrite c v s).bestIdx = s.bestIdx := rfl
@[simp] theorem memWrite_bestSnr (c : Cfg) (v : Sample) (s : State) : (memWrite c v s).bestSnr = s.bestSnr := rfl
@[simp] theorem memWrite_remaining (c : Cfg) (v : Sample) (s : State) : (memWrite c v s).remaining = s.remaining := rfl
@[simp] theorem memWrite_lock (c : Cfg) (v : Sample) (s : State) : (memWrite c v s).lock = s.lock := rfl
@[simp] theorem memWrite_acqRun (c : Cfg) (v : Sample) (s : State) : (memWrite c v s).acqRun = s.acqRun := rfl
@[simp] theorem memWrite_acqF (c : Cfg) (v : Sample) (s : State) : (memWrite c v s).acqF = s.acqF := rfl
@[simp] theorem memWrite_acqT (c : Cfg) (v : Sample) (s : State) : (memWrite c v s).acqT = s.acqT := rfl
@[simp] theorem memWrite_ctx (c : Cfg) (v : Sample) (s : State) : (memWrite c v s).ctx = s.ctx := rfl
@[simp] theorem memWrite_track (c : Cfg) (v : Sample) (s : State) : (memWrite c v s).track = s.track := rfl
@[simp] theorem memWrite_lossRun (c : Cfg) (v : Sample) (s : State) : (memWrite c v s).lossRun = s.lossRun := rfl
@[simp] theorem memWrite_frmBuf (c : Cfg) (v : Sample) (s : State) : (memWrite c v s).frmBuf = s.frmBuf := rfl
@[simp] theorem memWrite_frameErrCnt (c : Cfg) (v : Sample) (s : State) : (memWrite c v s).frameErrCnt = s.frameErrCnt := rfl
@[simp] theorem memWrite_payloadErrCnt (c : Cfg) (v : Sample) (s : State) : (memWrite c v s).payloadErrCnt = s.payloadErrCnt := rfl
@[simp] theorem memWrite_lockLossCnt (c : Cfg) (v : Sample) (s : State) : (memWrite c v s).lockLossCnt = s.lockLossCnt := rfl
@[simp] theorem memWrite_halted (c : Cfg) (v : Sample) (s : State) : (memWrite c v s).halted = s.halted := rfl
@[simp] theorem memWrite_faultCode (c : Cfg) (v : Sample) (s : State) : (memWrite c v s).faultCode = s.faultCode := rfl
@[simp] theorem memWrite_cmd (c : Cfg) (v : Sample) (s : State) : (memWrite c v s).cmd = s.cmd := rfl
@[simp] theorem memWrite_ret (c : Cfg) (v : Sample) (s : State) : (memWrite c v s).ret = s.ret := rfl
@[simp] theorem memWrite_retFree (c : Cfg) (v : Sample) (s : State) : (memWrite c v s).retFree = s.retFree := rfl
@[simp] theorem memWrite_evt (c : Cfg) (v : Sample) (s : State) : (memWrite c v s).evt = s.evt := rfl

/-! `frameReset` empties the frame store. -/

@[simp] theorem frameReset_frmBuf (s : State) : (frameReset s).frmBuf = [] := rfl
@[simp] theorem frameReset_skip (s : State) : (frameReset s).skip = s.skip := rfl
@[simp] theorem frameReset_dbuf (s : State) : (frameReset s).dbuf = s.dbuf := rfl
@[simp] theorem frameReset_used (s : State) : (frameReset s).used = s.used := rfl
@[simp] theorem frameReset_hist (s : State) : (frameReset s).hist = s.hist := rfl
@[simp] theorem frameReset_phase (s : State) : (frameReset s).phase = s.phase := rfl
@[simp] theorem frameReset_snrWin (s : State) : (frameReset s).snrWin = s.snrWin := rfl
@[simp] theorem frameReset_gainTab (s : State) : (frameReset s).gainTab = s.gainTab := rfl
@[simp] theorem frameReset_curIdx (s : State) : (frameReset s).curIdx = s.curIdx := rfl
@[simp] theorem frameReset_bestIdx (s : State) : (frameReset s).bestIdx = s.bestIdx := rfl
@[simp] theorem frameReset_bestSnr (s : State) : (frameReset s).bestSnr = s.bestSnr := rfl
@[simp] theorem frameReset_remaining (s : State) : (frameReset s).remaining = s.remaining := rfl
@[simp] theorem frameReset_lock (s : State) : (frameReset s).lock = s.lock := rfl
@[simp] theorem frameReset_acqRun (s : State) : (frameReset s).acqRun = s.acqRun := rfl
@[simp] theorem frameReset_acqF (s : State) : (frameReset s).acqF = s.acqF := rfl
@[simp] theorem frameReset_acqT (s : State) : (frameReset s).acqT = s.acqT := rfl
@[simp] theorem frameReset_ctx (s : State) : (frameReset s).ctx = s.ctx := rfl
@[simp] theorem frameReset_track (s : State) : (frameReset s).track = s.track := rfl
@[simp] theorem frameReset_lossRun (s : State) : (frameReset s).lossRun = s.lossRun := rfl
@[simp] theorem frameReset_frameErrCnt (s : State) : (frameReset s).frameErrCnt = s.frameErrCnt := rfl
@[simp] theorem frameReset_payloadErrCnt (s : State) : (frameReset s).payloadErrCnt = s.payloadErrCnt := rfl
@[simp] theorem frameReset_lockLossCnt (s : State) : (frameReset s).lockLossCnt = s.lockLossCnt := rfl
@[simp] theorem frameReset_halted (s : State) : (frameReset s).halted = s.halted := rfl
@[simp] theorem frameReset_faultCode (s : State) : (frameReset s).faultCode = s.faultCode := rfl
@[simp] theorem frameReset_cmd (s : State) : (frameReset s).cmd = s.cmd := rfl
@[simp] theorem frameReset_ret (s : State) : (frameReset s).ret = s.ret := rfl
@[simp] theorem frameReset_retFree (s : State) : (frameReset s).retFree = s.retFree := rfl
@[simp] theorem frameReset_evt (s : State) : (frameReset s).evt = s.evt := rfl

/-! `startSearch` writes the controller and empties the estimator window. -/

@[simp] theorem startSearch_gainTab (g : List Word) (s : State) : (startSearch g s).gainTab = g := rfl
@[simp] theorem startSearch_curIdx (g : List Word) (s : State) : (startSearch g s).curIdx = 0 := rfl
@[simp] theorem startSearch_bestIdx (g : List Word) (s : State) : (startSearch g s).bestIdx = 0 := rfl
@[simp] theorem startSearch_bestSnr (g : List Word) (s : State) :
    (startSearch g s).bestSnr = ⟨0, 1⟩ := rfl
@[simp] theorem startSearch_remaining (g : List Word) (s : State) :
    (startSearch g s).remaining = g.length := rfl
@[simp] theorem startSearch_snrWin (g : List Word) (s : State) : (startSearch g s).snrWin = [] := rfl
@[simp] theorem startSearch_skip (g : List Word) (s : State) : (startSearch g s).skip = s.skip := rfl
@[simp] theorem startSearch_dbuf (g : List Word) (s : State) : (startSearch g s).dbuf = s.dbuf := rfl
@[simp] theorem startSearch_used (g : List Word) (s : State) : (startSearch g s).used = s.used := rfl
@[simp] theorem startSearch_hist (g : List Word) (s : State) : (startSearch g s).hist = s.hist := rfl
@[simp] theorem startSearch_phase (g : List Word) (s : State) : (startSearch g s).phase = s.phase := rfl
@[simp] theorem startSearch_lock (g : List Word) (s : State) : (startSearch g s).lock = s.lock := rfl
@[simp] theorem startSearch_acqRun (g : List Word) (s : State) : (startSearch g s).acqRun = s.acqRun := rfl
@[simp] theorem startSearch_acqF (g : List Word) (s : State) : (startSearch g s).acqF = s.acqF := rfl
@[simp] theorem startSearch_acqT (g : List Word) (s : State) : (startSearch g s).acqT = s.acqT := rfl
@[simp] theorem startSearch_ctx (g : List Word) (s : State) : (startSearch g s).ctx = s.ctx := rfl
@[simp] theorem startSearch_track (g : List Word) (s : State) : (startSearch g s).track = s.track := rfl
@[simp] theorem startSearch_lossRun (g : List Word) (s : State) : (startSearch g s).lossRun = s.lossRun := rfl
@[simp] theorem startSearch_frmBuf (g : List Word) (s : State) : (startSearch g s).frmBuf = s.frmBuf := rfl
@[simp] theorem startSearch_frameErrCnt (g : List Word) (s : State) : (startSearch g s).frameErrCnt = s.frameErrCnt := rfl
@[simp] theorem startSearch_payloadErrCnt (g : List Word) (s : State) : (startSearch g s).payloadErrCnt = s.payloadErrCnt := rfl
@[simp] theorem startSearch_lockLossCnt (g : List Word) (s : State) : (startSearch g s).lockLossCnt = s.lockLossCnt := rfl
@[simp] theorem startSearch_halted (g : List Word) (s : State) : (startSearch g s).halted = s.halted := rfl
@[simp] theorem startSearch_faultCode (g : List Word) (s : State) : (startSearch g s).faultCode = s.faultCode := rfl
@[simp] theorem startSearch_cmd (g : List Word) (s : State) : (startSearch g s).cmd = s.cmd := rfl
@[simp] theorem startSearch_ret (g : List Word) (s : State) : (startSearch g s).ret = s.ret := rfl
@[simp] theorem startSearch_retFree (g : List Word) (s : State) : (startSearch g s).retFree = s.retFree := rfl
@[simp] theorem startSearch_evt (g : List Word) (s : State) : (startSearch g s).evt = s.evt := rfl

/-! `resetBlock` keeps the channels. -/

@[simp] theorem resetBlock_cmd (c : Cfg) (s : State) : (resetBlock c s).cmd = s.cmd := rfl
@[simp] theorem resetBlock_ret (c : Cfg) (s : State) : (resetBlock c s).ret = s.ret := rfl
@[simp] theorem resetBlock_retFree (c : Cfg) (s : State) : (resetBlock c s).retFree = s.retFree := rfl
@[simp] theorem resetBlock_evt (c : Cfg) (s : State) : (resetBlock c s).evt = s.evt := rfl

end Sys2Proof.Machine
end

