-- ==== Sys2Proof/Laws/Ops.lean ====
section
/-! SUPPORT. What each shared operation can do, said once: the call and fault operations as one record
update each, the counters as numbers, the decimated buffer as a sequence. -/

namespace Sys2Proof.Machine

/-- What taking answers, emitting events and raising a fault can change: EVT grows, RET is read, and a
fault may be latched, but never twice. -/
def HostTurn (s t : State) : Prop :=
  ∃ ws r n h f, t = { s with evt := s.evt ++ ws, ret := r, retFree := n, halted := h, faultCode := f } ∧
    (s.halted = true → h = true ∧ f = s.faultCode) ∧
    ((s.halted = true ↔ s.faultCode.isSome = true) → (h = true ↔ f.isSome = true))

theorem HostTurn.refl (s : State) : HostTurn s s :=
  ⟨[], s.ret, s.retFree, s.halted, s.faultCode, by simp, fun h => ⟨h, rfl⟩, fun h => h⟩

theorem HostTurn.trans {s t u : State} (h1 : HostTurn s t) (h2 : HostTurn t u) : HostTurn s u := by
  obtain ⟨w1, r1, n1, a1, f1, rfl, p1, q1⟩ := h1
  obtain ⟨w2, r2, n2, a2, f2, rfl, p2, q2⟩ := h2
  refine ⟨w1 ++ w2, r2, n2, a2, f2, by simp, fun h => ?_, fun h => q2 (q1 h)⟩
  obtain ⟨ha, hf⟩ := p1 h
  obtain ⟨hb, hg⟩ := p2 ha
  exact ⟨hb, hg.trans hf⟩

theorem takeRet_cons {s : State} {r : Word} {rest : List Word} (h : s.ret = r :: rest) :
    takeRet s = (r, { s with ret := rest }) := by
  simp [takeRet, h]

theorem takeRet_nil {s : State} (h : s.ret = []) :
    takeRet s = (Config.hostAnswer s.retFree, { s with retFree := s.retFree + 1 }) := by
  simp [takeRet, h]

theorem call_cons {s : State} {r : Word} {rest : List Word} (e : Instr) (h : s.ret = r :: rest) :
    call e s = (r, { s with evt := s.evt ++ encode e, ret := rest }) := by
  simp [call, takeRet, post, h]

theorem call_nil {s : State} (e : Instr) (h : s.ret = []) :
    call e s = (Config.hostAnswer s.retFree,
      { s with evt := s.evt ++ encode e, retFree := s.retFree + 1 }) := by
  simp [call, takeRet, post, h]

theorem call_hostTurn (e : Instr) (s : State) : HostTurn s (call e s).2 := by
  cases h : s.ret with
  | nil =>
    rw [call_nil e h]
    exact ⟨encode e, s.ret, s.retFree + 1, s.halted, s.faultCode, rfl, fun h => ⟨h, rfl⟩, fun h => h⟩
  | cons r rest =>
    rw [call_cons e h]
    exact ⟨encode e, rest, s.retFree, s.halted, s.faultCode, rfl, fun h => ⟨h, rfl⟩, fun h => h⟩

theorem raiseFatal_halted {s : State} (code : FatalCode) (h : s.halted = true) :
    raiseFatal code s = s := by
  simp [raiseFatal, h]

theorem raiseFatal_running {s : State} (code : FatalCode) (h : s.halted = false) :
    raiseFatal code s =
      { s with halted := true, faultCode := some code, evt := s.evt ++ encode (.fault code) } := by
  simp [raiseFatal, h, post]

theorem raiseFatal_hostTurn (code : FatalCode) (s : State) : HostTurn s (raiseFatal code s) := by
  cases h : s.halted with
  | true => rw [raiseFatal_halted code h]; exact HostTurn.refl s
  | false =>
    rw [raiseFatal_running code h]
    exact ⟨encode (.fault code), s.ret, s.retFree, true, some code, rfl, by simp [h], by simp⟩

theorem callOrFail_hostTurn (e : Instr) (s : State) : HostTurn s (callOrFail e s) := by
  unfold callOrFail
  split
  · exact (call_hostTurn e s).trans (raiseFatal_hostTurn .src _)
  · exact call_hostTurn e s

theorem applyGainThenReset_hostTurn (g : Word) (s : State) : HostTurn s (applyGainThenReset g s) := by
  unfold applyGainThenReset
  dsimp only
  split
  · exact (call_hostTurn _ s).trans (raiseFatal_hostTurn .src _)
  · exact (call_hostTurn _ s).trans (callOrFail_hostTurn _ _)

/-- A commit writes the index and the count and then makes at most the pair of calls (R149). -/
theorem gainCommit_hostTurn (s : State) :
    HostTurn { s with curIdx := s.bestIdx, remaining := 0 } (gainCommit s) := by
  unfold gainCommit
  dsimp only
  split
  · exact applyGainThenReset_hostTurn _ _
  · exact HostTurn.refl _

/-- An advance writes the index and the count and then makes the pair of calls (R150). -/
theorem gainAdvance_hostTurn (s : State) :
    HostTurn { s with curIdx := s.curIdx + 1, remaining := s.remaining - 1 } (gainAdvance s) :=
  applyGainThenReset_hostTurn _ _

theorem countUp_toNat (n : BitVec 32) : (countUp n).toNat = min (n.toNat + 1) (2 ^ 32 - 1) := by
  simp only [countUp, BitVec.toNat_ofNat]
  omega

theorem occupancy_eq (s : State) : s.avail - s.used = occupancy s := by
  simp [State.avail, occupancy]

theorem memRead_length {a n : Nat} {s : State} (h : a + n ≤ occupancy s) :
    (memRead a n s).length = n := by
  simp only [memRead, occupancy, List.length_take, List.length_drop] at *
  omega

/-- What `PUMP` reads is a window of decimated samples (R63). -/
theorem memRead_isWindow {w n : Nat} {s : State} (hw : ∀ x ∈ s.dbuf, x.Fits w) (h : n ≤ occupancy s) :
    IsWindow w n (memRead 0 n s) :=
  ⟨memRead_length (by simpa using h), fun x hx => hw x (by
    simp only [memRead, List.drop_zero] at hx
    exact List.mem_of_mem_take hx)⟩

theorem sat_fits (n : Nat) (v : Int) : Fits n (sat n v) := by
  have h : (0 : Int) < 2 ^ (n - 1) := by positivity
  unfold sat Fits
  omega

/-- Exactly the payload words are split off, whatever follows (R92). -/
theorem splitWords_append (a b : List Word) : splitWords a.length (a ++ b) = some (a, b) := by
  induction a with
  | nil => rfl
  | cons w ws ih => simp [splitWords, ih]

/-- The words split off and the words left make up the whole. -/
theorem splitWords_eq : ∀ {n : Nat} {ws a b : List Word}, splitWords n ws = some (a, b) →
    a.length = n ∧ a ++ b = ws
  | 0, ws, a, b, h => by
    simp only [splitWords, Option.some.injEq, Prod.mk.injEq] at h
    obtain ⟨rfl, rfl⟩ := h
    exact ⟨rfl, rfl⟩
  | n + 1, [], a, b, h => by simp [splitWords] at h
  | n + 1, w :: ws, a, b, h => by
    simp only [splitWords] at h
    split at h
    · cases h
    · rename_i a' b' h'
      simp only [Option.some.injEq, Prod.mk.injEq] at h
      obtain ⟨rfl, rfl⟩ := h
      obtain ⟨h1, h2⟩ := splitWords_eq h'
      exact ⟨by simp [h1], by simp [h2]⟩

end Sys2Proof.Machine
end

