-- ==== Sys2Proof/Laws/PerInstr.lean ====
section
/-! SUPPORT. A law of every transaction's encoding: the first word of a well-formed transaction alone
says how many words follow it (spec/30_encoding.md R92, R96). -/

namespace Sys2Proof.Laws.EncodedLength

/-- The words after the first are as many as the first word says, on the transaction's channel. -/
def Statement (i : Instr) : Prop :=
  i.WellFormed = true → ∃ w rest, encode i = w :: rest ∧
    rest.length = if i.isCommand = true then payloadLen w else eventPayloadLen w

theorem payloadLen_arg {o : BitVec 4} {a : BitVec 28} (h3 : o ≠ 3#4) (h4 : o ≠ 4#4) :
    payloadLen (o ++ a) = 0 := by
  unfold payloadLen
  rw [opField_arg]
  split
  · exact absurd rfl h3
  · exact absurd rfl h4
  · rfl

theorem nop (arg : BitVec 28) : Statement (.nop arg) :=
  fun _ => ⟨_, [], rfl, (payloadLen_arg (by decide) (by decide)).symm⟩

theorem reset (arg : BitVec 28) : Statement (.reset arg) :=
  fun _ => ⟨_, [], rfl, (payloadLen_arg (by decide) (by decide)).symm⟩

theorem setSkip (n : BitVec 28) : Statement (.setSkip n) :=
  fun _ => ⟨_, [], rfl, (payloadLen_arg (by decide) (by decide)).symm⟩

theorem payloadLen_byte (m : BitVec 20) {n : Nat} (h : n < 2 ^ 8) :
    payloadLen (0x3#4 ++ m ++ BitVec.ofNat 8 n) = n := by
  unfold payloadLen
  rw [opField_byte, lowByte_byte]
  exact Nat.mod_eq_of_lt h

theorem loadGainTable (gains : List Word) : Statement (.loadGainTable gains) :=
  fun h => ⟨_, gains, rfl, (payloadLen_byte 0#20 (of_decide_eq_true h)).symm⟩

theorem loadGainTableBad (mbz : BitVec 20) (payload : List Word) :
    Statement (.loadGainTableBad mbz payload) :=
  fun h => ⟨_, payload, rfl,
    (payloadLen_byte mbz (of_decide_eq_true (Bool.and_eq_true_iff.1 h).2)).symm⟩

theorem deliver (samples : List Word) : Statement (.deliver samples) := by
  intro h
  refine ⟨_, samples, rfl, Eq.symm ?_⟩
  show payloadLen (0x4#4 ++ BitVec.ofNat 28 samples.length) = samples.length
  unfold payloadLen
  rw [opField_arg, argField_arg]
  exact Nat.mod_eq_of_lt (of_decide_eq_true h)

theorem payloadLen_index (m : BitVec 20) (b : BitVec 8) : payloadLen (0x5#4 ++ m ++ b) = 0 := by
  unfold payloadLen
  rw [opField_byte]
  rfl

theorem readReg (index : BitVec 8) : Statement (.readReg index) :=
  fun _ => ⟨_, [], rfl, (payloadLen_index 0#20 index).symm⟩

theorem readRegBad (mbz : BitVec 20) (index : BitVec 8) : Statement (.readRegBad mbz index) :=
  fun _ => ⟨_, [], rfl, (payloadLen_index mbz index).symm⟩

theorem reserved6 (arg : BitVec 28) : Statement (.reserved6 arg) :=
  fun _ => ⟨_, [], rfl, (payloadLen_arg (by decide) (by decide)).symm⟩

theorem reserved7 (arg : BitVec 28) : Statement (.reserved7 arg) :=
  fun _ => ⟨_, [], rfl, (payloadLen_arg (by decide) (by decide)).symm⟩

theorem reserved8 (arg : BitVec 28) : Statement (.reserved8 arg) :=
  fun _ => ⟨_, [], rfl, (payloadLen_arg (by decide) (by decide)).symm⟩

theorem reserved9 (arg : BitVec 28) : Statement (.reserved9 arg) :=
  fun _ => ⟨_, [], rfl, (payloadLen_arg (by decide) (by decide)).symm⟩

theorem reservedA (arg : BitVec 28) : Statement (.reservedA arg) :=
  fun _ => ⟨_, [], rfl, (payloadLen_arg (by decide) (by decide)).symm⟩

theorem reservedB (arg : BitVec 28) : Statement (.reservedB arg) :=
  fun _ => ⟨_, [], rfl, (payloadLen_arg (by decide) (by decide)).symm⟩

theorem reservedC (arg : BitVec 28) : Statement (.reservedC arg) :=
  fun _ => ⟨_, [], rfl, (payloadLen_arg (by decide) (by decide)).symm⟩

theorem reservedD (arg : BitVec 28) : Statement (.reservedD arg) :=
  fun _ => ⟨_, [], rfl, (payloadLen_arg (by decide) (by decide)).symm⟩

theorem reservedE (arg : BitVec 28) : Statement (.reservedE arg) :=
  fun _ => ⟨_, [], rfl, (payloadLen_arg (by decide) (by decide)).symm⟩

theorem reservedF (arg : BitVec 28) : Statement (.reservedF arg) :=
  fun _ => ⟨_, [], rfl, (payloadLen_arg (by decide) (by decide)).symm⟩

theorem applyGain (value : Word) : Statement (.applyGain value) :=
  fun _ => ⟨_, [value], rfl, rfl⟩

theorem resetBuffering : Statement .resetBuffering :=
  fun _ => ⟨_, [], rfl, rfl⟩

theorem onSnr (fig : SnrT) : Statement (.onSnr fig) :=
  fun _ => ⟨_, [_, _, _, _], rfl, rfl⟩

theorem packBytes_length : ∀ (bytes : List Byte),
    (packBytes bytes).length = wordsForBytes bytes.length
  | [] => rfl
  | [_] => by simp [packBytes, wordsForBytes]
  | [_, _] => by simp [packBytes, wordsForBytes]
  | [_, _, _] => by simp [packBytes, wordsForBytes]
  | _ :: _ :: _ :: _ :: bs => by
    simp only [packBytes, List.length_cons, packBytes_length bs, wordsForBytes]
    omega

theorem pushPdu (chanId : BitVec 12) (bytes : List Byte) : Statement (.pushPdu chanId bytes) := by
  intro h
  refine ⟨_, packBytes bytes, rfl, (packBytes_length bytes).trans (Eq.symm ?_)⟩
  show eventPayloadLen (0x4#4 ++ chanId ++ BitVec.ofNat 16 bytes.length) = _
  unfold eventPayloadLen
  rw [opField_len, lenField_len]
  exact congrArg wordsForBytes (Nat.mod_eq_of_lt (of_decide_eq_true h))

theorem pushAncillary (bytes : List Byte) : Statement (.pushAncillary bytes) := by
  intro h
  refine ⟨_, packBytes bytes, rfl, (packBytes_length bytes).trans (Eq.symm ?_)⟩
  show eventPayloadLen (0x5#4 ++ 0#12 ++ BitVec.ofNat 16 bytes.length) = _
  unfold eventPayloadLen
  rw [opField_len, lenField_len]
  exact congrArg wordsForBytes (Nat.mod_eq_of_lt (of_decide_eq_true h))

theorem regValue (index : BitVec 8) (value : Word) : Statement (.regValue index value) := by
  intro _
  refine ⟨_, [value], rfl, ?_⟩
  show 1 = eventPayloadLen (0x6#4 ++ 0#20 ++ index)
  unfold eventPayloadLen
  rw [opField_byte]
  rfl

theorem fault (code : FatalCode) : Statement (.fault code) := by
  intro _
  cases code <;> exact ⟨_, [], rfl, rfl⟩

end Sys2Proof.Laws.EncodedLength
end

