-- ==== Sys2Proof/Laws/Pump.lean ====
section
/-! SUPPORT. What the components behind the decimated buffer can do: each operation as one update of
the fields it may write, with every other field named in the update as it was. -/

namespace Sys2Proof.Machine

/-- `DECIM.PUSH` writes the history and the phase (R121). -/
theorem decimPush_frame (c : Cfg) (x : Sample) (s : State) :
    ∃ p, (decimPush c x s).2 = { s with phase := p, hist := (x :: s.hist).take (c.nTaps - 1) } := by
  unfold decimPush
  split
  · exact ⟨0, rfl⟩
  · exact ⟨s.phase + 1, rfl⟩

/-- `DEC.REGION` posts words or counts an error (R226). -/
theorem decRegion_frame (c : Cfg) (s : State) (r : Region) :
    ∃ ws n, decRegion c s r = { s with evt := s.evt ++ ws, payloadErrCnt := n } := by
  unfold decRegion
  split
  · exact ⟨_, s.payloadErrCnt, rfl⟩
  · exact ⟨[], _, by simp; rfl⟩

theorem decRegions_frame (c : Cfg) (rs : List Region) : ∀ (s : State),
    ∃ ws n, rs.foldl (decRegion c) s = { s with evt := s.evt ++ ws, payloadErrCnt := n } := by
  induction rs with
  | nil => exact fun s => ⟨[], s.payloadErrCnt, by simp⟩
  | cons r rs ih =>
    intro s
    obtain ⟨w1, n1, h1⟩ := decRegion_frame c s r
    obtain ⟨w2, n2, h2⟩ := ih { s with evt := s.evt ++ w1, payloadErrCnt := n1 }
    exact ⟨w1 ++ w2, n2, by rw [List.foldl_cons, h1, h2]; simp⟩

/-- `FRAME.COMPLETE` empties the store, posts words and counts errors (R213). -/
theorem frameComplete_frame (c : Cfg) (s : State) :
    ∃ ws n m, frameComplete c s =
      { s with frmBuf := [], evt := s.evt ++ ws, payloadErrCnt := n, frameErrCnt := m } := by
  unfold frameComplete
  dsimp only
  split
  · obtain ⟨ws, n, h⟩ := decRegions_frame c (c.frameSplit s.frmBuf) { s with frmBuf := [] }
    exact ⟨ws, n, s.frameErrCnt, h⟩
  · exact ⟨[], s.payloadErrCnt, _, by simp; rfl⟩

/-- `FRAME.SYMBOL` writes the store, posts words and counts errors; the store it leaves is the old one,
empty, or the symbol at its position after the old one or alone, and not a whole frame (R212). -/
theorem frameSymbol_frame (c : Cfg) (sym : Symbol) (pos : Option Nat) (s : State) :
    ∃ b ws n m, frameSymbol c sym pos s =
        { s with frmBuf := b, evt := s.evt ++ ws, payloadErrCnt := n, frameErrCnt := m } ∧
      (b = s.frmBuf ∨ b = [] ∨
        b.length ≠ c.symsPerFrame ∧
          (b = s.frmBuf ++ [sym] ∧ pos = some s.frmFill ∨ b = [sym] ∧ pos = some 0)) := by
  have hs : ∀ syms, (syms = s.frmBuf ++ [sym] ∧ pos = some s.frmFill ∨
      syms = [sym] ∧ pos = some 0) → ∃ b ws n m,
      frameStore c syms s =
        { s with frmBuf := b, evt := s.evt ++ ws, payloadErrCnt := n, frameErrCnt := m } ∧
      (b = s.frmBuf ∨ b = [] ∨
        b.length ≠ c.symsPerFrame ∧
          (b = s.frmBuf ++ [sym] ∧ pos = some s.frmFill ∨ b = [sym] ∧ pos = some 0)) := by
    intro syms h
    unfold frameStore
    split
    · obtain ⟨ws, n, m, e⟩ := frameComplete_frame c { s with frmBuf := syms }
      exact ⟨[], ws, n, m, e, .inr (.inl rfl)⟩
    · rename_i hl
      exact ⟨syms, [], s.payloadErrCnt, s.frameErrCnt, by simp, .inr (.inr ⟨hl, h⟩)⟩
  unfold frameSymbol
  split
  · exact ⟨s.frmBuf, [], s.payloadErrCnt, s.frameErrCnt, by simp, .inl rfl⟩
  · split
    · rename_i h
      exact hs _ (.inl ⟨rfl, by rw [h]⟩)
    · split
      · rename_i h
        exact hs _ (.inr ⟨rfl, by rw [h]⟩)
      · exact ⟨[], [], s.payloadErrCnt, s.frameErrCnt, by simp [frameReset], .inr (.inl rfl)⟩

/-- One more window at the end of a tracker's run (R186). -/
theorem trackerRun_concat (step : SyncCtx → List Sample → SyncResult) (w : List Sample) :
    ∀ (wins : List (List Sample)) (ctx : SyncCtx),
      trackerRun step ctx (wins ++ [w]) = trackerRun step ctx wins ++
        [((step (trackerCtx step ctx wins) w).sym, (step (trackerCtx step ctx wins) w).pos)]
  | [], _ => rfl
  | v :: wins, ctx => congrArg (_ :: ·) (trackerRun_concat step w wins (step ctx v).ctx)

/-- `ACQ.LOCK` opens a run with nothing stored (R172). -/
theorem lockRun_open (c : Cfg) {w : List Sample} (hw : IsWindow c.wD c.acqWin w) :
    c.LockRun [] (c.syncInit (c.acqCorr w).f (c.acqCorr w).t) :=
  ⟨w, [], hw, by simp, rfl, List.Sublist.refl _⟩

/-- What a symbol step of the tracker does to a lock's run: the store that `FRAME.SYMBOL` leaves is
again one that the run can bring about, with the tracker's new context (R186, R212). -/
theorem lockRun_step {c : Cfg} {F G : List Symbol} {ctx : SyncCtx} {w : List Sample}
    (h : c.LockRun F ctx) (hw : IsWindow c.wD c.symMax w)
    (hG : G = F ∨ G = [] ∨ G = F ++ [(c.syncStep ctx w).sym] ∧ (c.syncStep ctx w).pos = some F.length ∨
      G = [(c.syncStep ctx w).sym] ∧ (c.syncStep ctx w).pos = some 0) :
    c.LockRun G (c.syncStep ctx w).ctx := by
  obtain ⟨w0, wins, h0, hws, rfl, hF⟩ := h
  refine ⟨w0, wins ++ [w], h0, fun v hv => ?_, by simp [trackerCtx], ?_⟩
  · rcases List.mem_append.1 hv with hv | hv
    · exact hws v hv
    · rwa [List.mem_singleton.1 hv]
  · rw [trackerRun_concat]
    rcases hG with rfl | rfl | ⟨rfl, hp⟩ | ⟨rfl, hp⟩
    · exact hF.trans (List.sublist_append_left _ _)
    · exact List.nil_sublist _
    · rw [List.mapIdx_concat, ← hp]
      exact hF.append (List.Sublist.refl _)
    · simpa only [List.mapIdx_cons, List.mapIdx_nil, hp] using List.sublist_append_right _ _

/-- `TRACK.UPDATE` writes the tracking state and the loss run, and keeps the run short (R188). -/
theorem trackUpdate_frame (c : Cfg) (q : Int) (s : State) :
    ∃ t l, (trackUpdate c q s).2 = { s with track := t, lossRun := l } ∧ t ≠ .none ∧
      (s.lossRun < c.lossSustain → l < c.lossSustain) := by
  have := c.lossSustain_range.1
  unfold trackUpdate
  split
  · exact ⟨.stable, 0, rfl, by decide, fun _ => by omega⟩
  · split
    · split
      · exact ⟨.degraded, s.lossRun, rfl, by decide, fun h => h⟩
      · exact ⟨.degraded, s.lossRun + 1, rfl, by decide, fun _ => by omega⟩
    · exact ⟨.degraded, 0, rfl, by decide, fun _ => by omega⟩

/-- What acquisition and synchronization may write: the buffer's front, their own fields, the frame
store, the counters and EVT; samples are only taken from the front, each once (R64, R65). -/
def PumpTurns (s t : State) : Prop :=
  ∃ n lk ar af a cx tk lr fb fe pe ll ws, n ≤ s.dbuf.length ∧ t = { s with
    dbuf := s.dbuf.drop n, used := s.used + n, lock := lk, acqRun := ar, acqF := af, acqT := a,
    ctx := cx, track := tk, lossRun := lr, frmBuf := fb, frameErrCnt := fe, payloadErrCnt := pe,
    lockLossCnt := ll, evt := s.evt ++ ws }

theorem PumpTurns.refl (s : State) : PumpTurns s s :=
  ⟨0, s.lock, s.acqRun, s.acqF, s.acqT, s.ctx, s.track, s.lossRun, s.frmBuf, s.frameErrCnt,
    s.payloadErrCnt, s.lockLossCnt, [], by simp⟩

theorem PumpTurns.trans {s t u : State} (h1 : PumpTurns s t) (h2 : PumpTurns t u) : PumpTurns s u := by
  obtain ⟨n1, _, _, _, _, _, _, _, _, _, _, _, w1, l1, rfl⟩ := h1
  obtain ⟨n2, a, b, d, e, f, g, h, i, j, k, l, w2, l2, rfl⟩ := h2
  refine ⟨n1 + n2, a, b, d, e, f, g, h, i, j, k, l, w1 ++ w2, ?_, ?_⟩
  · simp only [List.length_drop] at l2
    omega
  · simp [List.drop_drop, Nat.add_assoc]

/-- What a turn measures itself by: the samples twice, and one while there is no lock (R246). -/
def pumpMeasure (s : State) : Nat := 2 * occupancy s + if s.lock = .locked then 0 else 1

/-- `ACQ.STEP` on a buffer that holds a window takes turns of the pump's kind and comes nearer to its
rest (R171, R172). -/
theorem acqStep_turns {c : Cfg} {s : State} (hw : ∀ x ∈ s.dbuf, x.Fits c.wD)
    (hl : s.lock ≠ .locked) (ho : c.acqWin ≤ occupancy s) :
    PumpTurns s (acqStep c s) ∧ pumpMeasure (acqStep c s) < pumpMeasure s := by
  have ha := c.acqAdv_range
  have ht := c.acqCorr_t _ (memRead_isWindow hw ho)
  unfold occupancy at ho
  have hadv : c.acqAdv ≤ s.dbuf.length := by omega
  have hsub : s.dbuf.length - c.acqAdv < s.dbuf.length := by omega
  unfold acqStep
  dsimp only
  split
  · split
    · exact ⟨⟨(c.acqCorr (memRead 0 c.acqWin s)).t, .locked, 0, _, _, _, .entered, 0, s.frmBuf,
        s.frameErrCnt, s.payloadErrCnt, s.lockLossCnt, [], by omega,
        by simp only [List.append_nil]; rfl⟩, by
        simp [acqLock, pumpMeasure, occupancy, hl]⟩
    · exact ⟨⟨c.acqAdv, .acquiring, s.acqRun + 1, _, _, s.ctx, s.track, s.lossRun, s.frmBuf,
        s.frameErrCnt, s.payloadErrCnt, s.lockLossCnt, [], by omega,
        by simp only [List.append_nil]; rfl⟩, by
        simp [pumpMeasure, occupancy, hl]; omega⟩
  · exact ⟨⟨c.acqAdv, .unlocked, 0, s.acqF, s.acqT, s.ctx, s.track, s.lossRun, s.frmBuf,
        s.frameErrCnt, s.payloadErrCnt, s.lockLossCnt, [], by omega,
        by simp only [List.append_nil]; rfl⟩, by
        simp [pumpMeasure, occupancy, hl]; omega⟩

/-- `SYNC.SYMBOL` on a buffer that holds a symbol takes turns of the pump's kind and comes nearer to
its rest (R186). -/
theorem syncSymbol_turns {c : Cfg} {s : State} (hw : ∀ x ∈ s.dbuf, x.Fits c.wD)
    (hl : s.lock = .locked) (ho : c.symMax ≤ occupancy s) :
    PumpTurns s (syncSymbol c s) ∧ pumpMeasure (syncSymbol c s) < pumpMeasure s := by
  have hslack := c.symSlack_lt
  have hadv : c.symLen - c.symSlack ≤ (c.syncStep s.ctx (memRead 0 c.symMax s)).adv ∧
      (c.syncStep s.ctx (memRead 0 c.symMax s)).adv ≤ c.symLen + c.symSlack :=
    c.syncStep_adv _ _ (memRead_isWindow hw ho)
  unfold syncSymbol
  dsimp only
  generalize c.syncStep s.ctx (memRead 0 c.symMax s) = o at hadv ⊢
  unfold occupancy Cfg.symMax at ho
  obtain ⟨t, l, e, -, -⟩ := trackUpdate_frame c o.q (consume o.adv { s with ctx := o.ctx })
  generalize trackUpdate c o.q (consume o.adv { s with ctx := o.ctx }) = u at e ⊢
  obtain ⟨lost, u2⟩ := u
  simp only at e ⊢
  subst e
  split
  · exact ⟨⟨o.adv, .unlocked, 0, s.acqF, s.acqT, o.ctx, .none, 0, [], s.frameErrCnt,
      s.payloadErrCnt, _, [], by omega,
      by simp only [List.append_nil]; rfl⟩, by
      simp [syncLoss, frameReset, consume, pumpMeasure, occupancy, hl]; omega⟩
  · obtain ⟨b, ws, n, m, e, -⟩ := frameSymbol_frame c o.sym o.pos
      { consume o.adv { s with ctx := o.ctx } with track := t, lossRun := l }
    rw [e]
    exact ⟨⟨o.adv, s.lock, s.acqRun, s.acqF, s.acqT, o.ctx, t, l, b, m, n, s.lockLossCnt, ws,
      by omega, rfl⟩, by simp [consume, pumpMeasure, occupancy, hl]; omega⟩

/-- A turn of the pump (R246). -/
theorem pumpTurn_turns {c : Cfg} {s t : State} (hw : ∀ x ∈ s.dbuf, x.Fits c.wD)
    (h : pumpTurn c s = some t) : PumpTurns s t ∧ pumpMeasure t < pumpMeasure s := by
  unfold pumpTurn at h
  split at h
  · cases h
  · split at h
    · cases h
      rename_i hc
      exact acqStep_turns hw hc.1 hc.2
    · split at h
      · cases h
        rename_i hc
        exact syncSymbol_turns hw hc.1 hc.2
      · cases h

/-- The decimated buffer's values stay what they are. -/
theorem PumpTurns.fits {w : Nat} {s t : State} (h : PumpTurns s t) (hw : ∀ x ∈ s.dbuf, x.Fits w) :
    ∀ x ∈ t.dbuf, x.Fits w := by
  obtain ⟨n, _, _, _, _, _, _, _, _, _, _, _, _, _, rfl⟩ := h
  exact fun x hx => hw x (List.mem_of_mem_drop hx)

/-- `PUMP` in one induction: what every turn keeps holds after the loop (R246). -/
theorem pumpLoop_induct {c : Cfg} {P : State → Prop}
    (hs : ∀ s t, (∀ x ∈ s.dbuf, x.Fits c.wD) → P s → pumpTurn c s = some t → P t) :
    ∀ (fuel : Nat) (s : State), (∀ x ∈ s.dbuf, x.Fits c.wD) → P s → P (pumpLoop c fuel s)
  | 0, _, _, h => h
  | fuel + 1, s, hw, h => by
    unfold pumpLoop
    split
    · exact h
    · rename_i t ht
      exact pumpLoop_induct hs fuel t ((pumpTurn_turns hw ht).1.fits hw) (hs s t hw h ht)

theorem pumpLoop_turns {c : Cfg} (fuel : Nat) {s : State} (hw : ∀ x ∈ s.dbuf, x.Fits c.wD) :
    PumpTurns s (pumpLoop c fuel s) :=
  pumpLoop_induct (P := PumpTurns s) (fun _ _ hx h ht => h.trans (pumpTurn_turns hx ht).1) fuel s hw
    (PumpTurns.refl s)

/-- `PUMP` as one update (R246). -/
theorem pump_turns {c : Cfg} {s : State} (hw : ∀ x ∈ s.dbuf, x.Fits c.wD) :
    PumpTurns s (pump c s) :=
  pumpLoop_turns _ hw

end Sys2Proof.Machine
end

