-- ==== Sys2Proof/Laws/Search.lean ====
section
/-! SUPPORT. What the Spectral SNR Estimator and the Gain Search Controller can do: each operation as one
update of the fields it may write, with every other field named in the update as it was. -/

namespace Sys2Proof.Machine

/-- The two powers of a figure are summed powers of the same transform (R142, R143). -/
theorem snrEstimate_powers (c : Cfg) (win : List Sample) :
    (snrEstimate c win).S = powerSum (c.fft64 (windowed c win)) c.sigBins ∧
    (snrEstimate c win).N = powerSum (c.fft64 (windowed c win)) (fun k => !c.sigBins k) := ⟨rfl, rfl⟩

/-- What the estimator and the controller may write: the window, the controller's indices, best figure
and count, which never grows, and what a host turn may change; never the table, the decimated buffer
or anything behind it (R144, R308). -/
def SearchTurn (s t : State) : Prop :=
  ∃ w ci bi bs rm ws r n h f, rm ≤ s.remaining ∧ t = { s with
    snrWin := w, curIdx := ci, bestIdx := bi, bestSnr := bs, remaining := rm,
    evt := s.evt ++ ws, ret := r, retFree := n, halted := h, faultCode := f }

theorem SearchTurn.refl (s : State) : SearchTurn s s :=
  ⟨s.snrWin, s.curIdx, s.bestIdx, s.bestSnr, s.remaining, [], s.ret, s.retFree, s.halted, s.faultCode,
    Nat.le_refl _, by simp⟩

theorem SearchTurn.trans {s t u : State} (h1 : SearchTurn s t) (h2 : SearchTurn t u) :
    SearchTurn s u := by
  obtain ⟨_, _, _, _, _, w1, _, _, _, _, l1, rfl⟩ := h1
  obtain ⟨a, b, c, d, e, w2, f, g, h, i, l2, rfl⟩ := h2
  exact ⟨a, b, c, d, e, w1 ++ w2, f, g, h, i, Nat.le_trans l2 l1, by simp⟩

theorem HostTurn.search {s t : State} (h : HostTurn s t) : SearchTurn s t := by
  obtain ⟨ws, r, n, h, f, rfl, -, -⟩ := h
  exact ⟨s.snrWin, s.curIdx, s.bestIdx, s.bestSnr, s.remaining, ws, r, n, h, f, Nat.le_refl _, rfl⟩

/-- Moving the index and lowering the count. -/
theorem searchTurn_move (s : State) (i n : Nat) (h : n ≤ s.remaining) :
    SearchTurn s { s with curIdx := i, remaining := n } :=
  ⟨s.snrWin, i, s.bestIdx, s.bestSnr, n, [], s.ret, s.retFree, s.halted, s.faultCode, h, by simp⟩

theorem gainDecide_search (cont : Bool) (s : State) : SearchTurn s (gainDecide cont s) := by
  unfold gainDecide
  split
  · exact (searchTurn_move s _ 0 (Nat.zero_le _)).trans (gainCommit_hostTurn s).search
  · exact (searchTurn_move s _ _ (Nat.sub_le _ _)).trans (gainAdvance_hostTurn s).search

theorem recordBest_search (fig : SnrT) (s : State) : SearchTurn s (recordBest fig s) := by
  unfold recordBest
  split
  · exact ⟨s.snrWin, s.curIdx, s.curIdx, fig, s.remaining, [], s.ret, s.retFree, s.halted, s.faultCode,
      Nat.le_refl _, by simp⟩
  · exact SearchTurn.refl s

theorem askHook_search (fig : SnrT) (s : State) : SearchTurn s (askHook fig s) := by
  have hc := (call_hostTurn (.onSnr fig) s).search
  unfold askHook
  dsimp only
  split
  · exact hc.trans (raiseFatal_hostTurn _ _).search
  · split
    · exact hc
    · exact hc.trans (gainDecide_search _ _)

/-- `GAIN.STEP` (R148). -/
theorem gainStep_search (c : Cfg) (fig : SnrT) (s : State) : SearchTurn s (gainStep c fig s) := by
  unfold gainStep
  split
  · exact SearchTurn.refl s
  · split
    · exact (recordBest_search fig s).trans (askHook_search _ _)
    · exact (recordBest_search fig s).trans (gainDecide_search _ _)

/-- Writing the window. -/
theorem searchTurn_window (s : State) (w : List Sample) : SearchTurn s { s with snrWin := w } :=
  ⟨w, s.curIdx, s.bestIdx, s.bestSnr, s.remaining, [], s.ret, s.retFree, s.halted, s.faultCode,
    Nat.le_refl _, by simp⟩

/-- `SNR.PUSH` (R141). -/
theorem snrPush_search (c : Cfg) (d : Sample) (s : State) : SearchTurn s (snrPush c d s) := by
  unfold snrPush
  split
  · exact (searchTurn_window s []).trans (gainStep_search c _ _)
  · exact searchTurn_window s _

end Sys2Proof.Machine
end

