-- ==== Sys2Proof/Tests/Slice0.lean ====
section
/-! SUPPORT. The model's own tests: what WellFormed refuses, the decoding of one word written out by hand
for each constructor, single steps with the results of spec/95_test_vectors.md, and a witness for the
hypotheses of each obligation. The configurations are the vectors' CFG-T and CFG-D. -/

namespace Sys2Proof.Tests

open Sys2Proof.Machine Sys2Proof.Safety

/-! ## The vectors' configurations -/

/-- The period-4 part of the 64-point DFT: exact on windows of period 4. -/
def dft4 (v : List Sample) : List Sample :=
  let r (k : Nat) : Sample :=
    let t := v.mapIdx (fun n x =>
      match (n * k) % 4 with
      | 0 => x
      | 1 => (⟨x.q, -x.i⟩ : Sample)
      | 2 => (⟨-x.i, -x.q⟩ : Sample)
      | _ => (⟨-x.q, x.i⟩ : Sample))
    ⟨(t.map Sample.i).sum, (t.map Sample.q).sum⟩
  (List.range 64).map (fun k => if k % 16 = 0 then r (k / 16) else Sample.zero)

/-- The greatest squared norm of a list and the least position that attains it. -/
def bestOf : Nat → AcqResult → List Sample → AcqResult
  | _, r, [] => r
  | n, r, x :: xs => bestOf (n+1) (if normSq x > r.e then ⟨normSq x, 0, n⟩ else r) xs

theorem bestOf_t : ∀ (w : List Sample) (n : Nat) (r : AcqResult), r.t < n ∨ r.t = 0 →
    (bestOf n r w).t < n + w.length ∨ (bestOf n r w).t = 0 := by
  intro w
  induction w with
  | nil => intro n r h; simpa [bestOf] using h
  | cons x xs ih =>
    intro n r h
    rw [bestOf, List.length_cons]
    split
    · have := ih (n+1) ⟨normSq x, 0, n⟩ (Or.inl (by simp)); omega
    · have := ih (n+1) r (by omega); omega

/-- A frame position of a two-symbol frame, if the number is one. -/
def posOf (p : Int) : Option Nat := if 0 ≤ p ∧ p < 2 then some p.toNat else none

theorem posOf_lt (q : Int) (p : Nat) (h : p ∈ posOf q) : p < 2 := by
  unfold posOf at h
  split at h
  · simp at h; omega
  · simp at h

/-- The integrity check of CFG-T. -/
def checkT (F : List Symbol) : Bool :=
  let d (a b : Nat) : Int := ((F.getD a []).getD b Sample.zero).i
  decide ((d 0 1 + d 0 2 + d 0 3 + d 1 1 + d 1 2 + d 1 3) % 16 = 0)

/-- A number with its bit `b` inverted. -/
def flipLow (b : Nat) (v : Int) : Int := if 2 ^ b ≤ v % 2 ^ (b + 1) then v - 2 ^ b else v + 2 ^ b

/-- A frame of CFG-T with bit `b` of its first data value inverted. -/
def flipT (b : Nat) : List Symbol → List Symbol
  | [p, x, y, z] :: G => [p, ⟨flipLow b x.i, x.q⟩, y, z] :: G
  | F => F

/-- The uncorrupted frames of CFG-T: those whose checksum comes out. -/
def cleanT (F : List Symbol) : Bool := decide (IsFrame 16 4 2 F) && checkT F

theorem frameT_cases {F : List Symbol} (h : IsFrame 16 4 2 F) :
    ∃ p x y z q u v w, F = [[p, x, y, z], [q, u, v, w]] := by
  obtain ⟨hl, hs⟩ := h
  obtain ⟨A, B, rfl⟩ := List.length_eq_two.1 hl
  have hA := (hs A (by simp)).1
  have hB := (hs B (by simp)).1
  match A, B, hA, hB with
  | [p, x, y, z], [q, u, v, w], _, _ => exact ⟨p, x, y, z, q, u, v, w, rfl⟩

theorem flipLow_fits {b : Nat} {v : Int} (hb : b < 4) (h : Fits 16 v) : Fits 16 (flipLow b v) := by
  unfold flipLow
  unfold Fits at *
  interval_cases b <;> norm_num at * <;> split <;> omega

theorem flipT_shape {F : List Symbol} {b : Nat} (h : IsFrame 16 4 2 F) (hb : b < 4) :
    IsFrame 16 4 2 (flipT b F) := by
  obtain ⟨p, x, y, z, q, u, v, w, rfl⟩ := frameT_cases h
  refine ⟨rfl, fun sym hsym => ?_⟩
  simp only [flipT, List.mem_cons, List.not_mem_nil, or_false] at hsym
  rcases hsym with rfl | rfl
  · have hA := (h.2 [p, x, y, z] (by simp)).2
    refine ⟨rfl, fun a ha => ?_⟩
    simp only [List.mem_cons, List.not_mem_nil, or_false] at ha
    rcases ha with rfl | rfl | rfl | rfl
    · exact hA _ (by simp)
    · exact ⟨flipLow_fits hb (hA x (by simp)).1, (hA x (by simp)).2⟩
    · exact hA _ (by simp)
    · exact hA _ (by simp)
  · exact h.2 _ (by simp)

theorem checkT_pFrame : PFrame checkT cleanT 4 flipT := by
  intro F h
  rw [cleanT, Bool.and_eq_true, decide_eq_true_eq] at h
  refine ⟨h.2, fun b hb => ?_⟩
  obtain ⟨p, x, y, z, q, u, v, w, rfl⟩ := frameT_cases h.1
  have hc := h.2
  simp only [checkT, flipT, flipLow, List.getD_cons_zero, List.getD_cons_succ, decide_eq_true_eq,
    decide_eq_false_iff_not] at hc ⊢
  interval_cases b <;> norm_num at * <;> split <;> omega

/-- The regions of a frame of CFG-T. -/
def splitT (F : List Symbol) : List Region :=
  let d (a b : Nat) : Int := ((F.getD a []).getD b Sample.zero).i
  [⟨.pdu, BitVec.ofInt 12 (d 0 1), [d 0 2, d 0 3]⟩, ⟨.ancillary, 0, [d 1 1, d 1 2]⟩]

theorem splitT_data {F : List Symbol} {r : Region} (h : r ∈ splitT F) : r.data.length = 2 := by
  simp only [splitT, List.mem_cons, List.not_mem_nil, or_false] at h
  rcases h with rfl | rfl <;> rfl

/-- The payload check of CFG-T: all but the last byte when that is the sum of the others. -/
def payloadT (b : List Byte) : Option (List Byte) :=
  match b.getLast? with
  | none => none
  | some z => if z = b.dropLast.sum then some b.dropLast else none

theorem payloadT_length {b p : List Byte} {n : Nat} (h : b.length = n + 1 ∧ payloadT b = some p) :
    p.length ≤ n := by
  obtain ⟨hl, hp⟩ := h
  unfold payloadT at hp
  split at hp
  · cases hp
  · split at hp
    · cases hp
      simp [hl]
    · cases hp

theorem abs_sum_le (B : Int) : ∀ (l : List Int), (∀ a ∈ l, |a| ≤ B) → |l.sum| ≤ l.length * B
  | [], _ => by simp
  | a :: l, h => by
    have h1 := abs_sum_le B l (fun x hx => h x (List.mem_cons_of_mem _ hx))
    have h2 := h a (List.mem_cons_self ..)
    have h3 := abs_add_le a l.sum
    rw [List.sum_cons, List.length_cons]
    push_cast
    linarith

/-- Every part of every bin is at most 64 times a sample's part. -/
theorem dft4_parts {v : List Sample} {B : Int} (hl : v.length = 64)
    (hv : ∀ x ∈ v, |x.i| ≤ B ∧ |x.q| ≤ B) (hB : 0 ≤ B) (k : Nat) :
    |((dft4 v).getD k Sample.zero).i| ≤ 64 * B ∧ |((dft4 v).getD k Sample.zero).q| ≤ 64 * B := by
  have hm : ∀ x ∈ v, |x.i| ≤ B ∧ |x.q| ≤ B ∧ |-x.i| ≤ B ∧ |-x.q| ≤ B := by
    intro x hx
    have := hv x hx
    simp only [abs_neg]
    tauto
  have hz : |Sample.zero.i| ≤ 64 * B ∧ |Sample.zero.q| ≤ 64 * B := by
    simp [Sample.zero]; omega
  rcases Nat.lt_or_ge k 64 with h | h
  · simp only [dft4, List.getD_eq_getElem?_getD, List.getElem?_map, List.getElem?_range h,
      Option.map_some, Option.getD_some]
    split
    · constructor <;>
      · refine (abs_sum_le B _ fun a ha => ?_).trans (by simp [hl])
        simp only [List.mem_map, List.mem_mapIdx] at ha
        obtain ⟨_, ⟨n, hn, rfl⟩, rfl⟩ := ha
        have := hm _ (List.getElem_mem hn)
        split <;> tauto
    · exact hz
  · rw [List.getD_eq_default _ _ (by simpa [dft4] using h)]
    exact hz

/-- The summed powers of CFG-T are below 2^50. -/
theorem dft4_power {win : List Sample} (h : IsWindow 16 snrN win) (bins : Nat → Bool) :
    powerSum (dft4 (win.mapIdx fun _ x => ⟨((1 : Nat) : Int) * x.i, ((1 : Nat) : Int) * x.q⟩)) bins
      < 2 ^ 64 := by
  have hv : (win.mapIdx fun _ x => (⟨((1 : Nat) : Int) * x.i, ((1 : Nat) : Int) * x.q⟩ : Sample)) = win := by
    refine List.ext_getElem (by simp) fun n h1 h2 => ?_
    simp
  rw [hv, powerSum]
  have hp := dft4_parts (B := 2 ^ 15) h.1 (fun x hx => by
    have := h.2 x hx
    simp only [Sample.Fits, Fits] at this
    norm_num at this
    rw [abs_le, abs_le]; omega) (by norm_num)
  refine Nat.lt_of_le_of_lt (List.sum_le_card_nsmul _ (2 ^ 43) fun a ha => ?_) ?_
  · obtain ⟨k, -, rfl⟩ := List.mem_map.1 ha
    obtain ⟨h1, h2⟩ := hp k
    have h3 := sq_le_sq' (abs_le.1 h1).1 (abs_le.1 h1).2
    have h4 := sq_le_sq' (abs_le.1 h2).1 (abs_le.1 h2).2
    rw [Int.toNat_le]
    push_cast
    linarith
  · have : ((List.range snrN).filter bins).length ≤ 64 := by
      simpa using List.length_filter_le bins (List.range snrN)
    rw [List.length_map, smul_eq_mul]
    omega

/-- CFG-T of spec/95_test_vectors.md section 0. -/
def cfgT : Cfg where
  m := 1
  m_range := by decide
  nTaps := 1
  h := [1]
  h_shape := by decide
  coefFrac := 0
  qD := defaultQD 16 0
  qD_fits := by intro a; exact sat_fits 16 _
  fft64 := dft4
  fft64_length := by intro v _; simp [dft4]
  powers_fit := fun _ h => ⟨dft4_power h _, dft4_power h _⟩
  acqWin := 4
  acqAdv := 4
  acqAdv_range := by decide
  acqCorr := bestOf 0 ⟨0,0,0⟩
  acqCorr_t := by
    intro w h
    have := bestOf_t w 0 ⟨0,0,0⟩ (Or.inr rfl)
    have h2 := h.1
    omega
  acqCorr_zeros := by decide
  acqThresh := 99
  acqSustain := 2
  symLen := 4
  symSlack_lt := by decide
  bufLen := 4
  bufLen_range := by decide
  scCount := 4
  symsPerFrame := 2
  symsPerFrame_range := by decide
  syncInit := fun _ _ => [0]
  syncStep := fun c w =>
    ⟨[c.getD 0 0 + 1], w, (w.getD 0 Sample.zero).i, 4, posOf (w.getD 0 Sample.zero).q⟩
  syncStep_adv := by intro c w _; simp
  syncStep_pos := by
    intro c w _ p hp
    exact posOf_lt _ p hp
  syncStep_sym := by intro c w h; exact h
  qLoss := 5
  qDegrade := 10
  lossSustain := 2
  frameCheck := checkT
  cleanFrame := cleanT
  structBits := 4
  flipBit := flipT
  structBits_pos := by decide
  cleanFrame_exists := ⟨[List.replicate 4 Sample.zero, List.replicate 4 Sample.zero], by decide⟩
  cleanFrame_shape := by
    intro F h
    rw [cleanT, Bool.and_eq_true, decide_eq_true_eq] at h
    exact ⟨h.1, fun b hb => flipT_shape h.1 hb⟩
  pFrame := checkT_pFrame
  frameSplit := splitT
  interleaver := fun _ n => (List.range n).reverse
  interleaver_perm := by intro k n; exact List.reverse_perm _
  fecDecode := fun _ d => d.map (BitVec.ofInt 8)
  maxPduLen := 1
  payloadCheck := fun _ b => payloadT b
  payload_len := by
    intro F _ _ _ _ r hr p hp
    exact payloadT_length ⟨by simp [splitT_data hr], hp⟩

/-- CFG-D of spec/95_test_vectors.md section 0. -/
def cfgD : Cfg :=
  { cfgT with
    m := 2, m_range := by decide
    nTaps := 4, nTaps_pos := by decide
    h := [1, 3, 3, 1], h_shape := by decide
    coefFrac := 3
    qD := defaultQD 16 3
    qD_fits := by intro a; exact sat_fits 16 _
    acqWin := 8, acqAdv := 8, acqAdv_range := by decide
    acqCorr_t := by
      intro w h
      have := bestOf_t w 0 ⟨0,0,0⟩ (Or.inr rfl)
      have h2 := h.1
      show (bestOf 0 ⟨0,0,0⟩ w).t < 8
      omega
    acqCorr_zeros := by decide +revert
    bufLen := 8, bufLen_range := by decide
    payload_len := by
      intro F _ _ _ _ r hr p hp
      exact payloadT_length ⟨by simp [cfgT, splitT_data hr], hp⟩ }

/-- The reset state under CFG-T. -/
def s0 : State := State.resetAt cfgT

/-- The state after one step that runs, for the tests to look at. -/
def after (o : Host.Outcome State Fault Refusal) : State :=
  match o with
  | .next t => t
  | .fault r => nomatch r
  | .refused _ => s0

/-- One step of the block at `c` from reset with the words on CMD and the answers on RET. -/
def ran (c : Cfg) (cmd ret : List Word) : State :=
  after (stepAt c { State.resetAt c with cmd := cmd, ret := ret })

/-! ## What WellFormed refuses -/

theorem test_wf_gain_count (l : List Word) (h : l.length = 256) :
    (Instr.loadGainTable l).WellFormed = false := by simp [Instr.WellFormed, h]
theorem test_wf_gain_count_limit (l : List Word) (h : l.length = 255) :
    (Instr.loadGainTable l).WellFormed = true := by simp [Instr.WellFormed, h]
theorem test_wf_bad_field_zero : (Instr.loadGainTableBad 0 [5]).WellFormed = false := by decide
theorem test_wf_bad_field_count (l : List Word) (h : l.length = 256) :
    (Instr.loadGainTableBad 1 l).WellFormed = false := by simp [Instr.WellFormed, h]
theorem test_wf_deliver_count (l : List Word) (h : l.length = 2 ^ 28) :
    (Instr.deliver l).WellFormed = false := by simp [Instr.WellFormed, h]
theorem test_wf_read_bad_zero : (Instr.readRegBad 0 11).WellFormed = false := by decide
theorem test_wf_snr_signal : (Instr.onSnr ⟨2 ^ 64, 1⟩).WellFormed = false := by decide
theorem test_wf_snr_noise : (Instr.onSnr ⟨1, 2 ^ 64⟩).WellFormed = false := by decide
theorem test_wf_pdu_length (b : List Byte) (h : b.length = 2 ^ 16) :
    (Instr.pushPdu 3 b).WellFormed = false := by simp [Instr.WellFormed, h]
theorem test_wf_ancillary_length (b : List Byte) (h : b.length = 2 ^ 16) :
    (Instr.pushAncillary b).WellFormed = false := by simp [Instr.WellFormed, h]

/-! ## Decoding, one word or more for each constructor (spec/95_test_vectors.md 2.1, 2.9) -/

theorem test_decode_nop : decode [0x0ABCDEF1] = .ok (.nop 0xABCDEF1, []) := by decide
theorem test_decode_reset : decode [0x10000000] = .ok (.reset 0, []) := by decide
theorem test_decode_set_skip : decode [0x2FFFFFFF] = .ok (.setSkip 268435455, []) := by decide
theorem test_decode_load_gains :
    decode [0x30000002, 0x00000005, 0xFFFFFFFA] = .ok (.loadGainTable [5, 0xFFFFFFFA], []) := by decide
theorem test_decode_load_none : decode [0x30000000, 0x30000000] =
    .ok (.loadGainTable [], [0x30000000]) := by decide
theorem test_decode_load_bad : decode [0x30000102, 0x00000005, 0xFFFFFFFA] =
    .ok (.loadGainTableBad 1 [5, 0xFFFFFFFA], []) := by decide
theorem test_decode_deliver : decode [0x40000002, 0x00000008, 0xFFF80010] =
    .ok (.deliver [0x00000008, 0xFFF80010], []) := by decide
theorem test_decode_deliver_payload : decode [0x40000001, 0x60000000] =
    .ok (.deliver [0x60000000], []) := by decide
theorem test_decode_read_reg : decode [0x500000FF] = .ok (.readReg 255, []) := by decide
theorem test_decode_read_bad : decode [0x50000100] = .ok (.readRegBad 1 0, []) := by decide
theorem test_decode_reserved6 : decode [0x60000000] = .ok (.reserved6 0, []) := by decide
theorem test_decode_reserved7 : decode [0x70000001] = .ok (.reserved7 1, []) := by decide
theorem test_decode_reserved8 : decode [0x80000000] = .ok (.reserved8 0, []) := by decide
theorem test_decode_reserved9 : decode [0x90000002] = .ok (.reserved9 2, []) := by decide
theorem test_decode_reservedA : decode [0xA0000000] = .ok (.reservedA 0, []) := by decide
theorem test_decode_reservedB : decode [0xB0000003] = .ok (.reservedB 3, []) := by decide
theorem test_decode_reservedC : decode [0xC0000000] = .ok (.reservedC 0, []) := by decide
theorem test_decode_reservedD : decode [0xD0000004] = .ok (.reservedD 4, []) := by decide
theorem test_decode_reservedE : decode [0xE0000000] = .ok (.reservedE 0, []) := by decide
theorem test_decode_reservedF : decode [0xF0000005, 0x00000000] =
    .ok (.reservedF 5, [0x00000000]) := by decide
theorem test_decode_short : decode [0x40000002, 0x00000008] = .error .shortPayload := by decide
theorem test_decode_apply_gain : decodeEvent [0x10000000, 0x0000005A] =
    .ok (.applyGain 90, []) := by decide
theorem test_decode_reset_buffering : decodeEvent [0x20000000] = .ok (.resetBuffering, []) := by
  decide
theorem test_decode_on_snr :
    decodeEvent [0x30000000, 0x00009000, 0x00000000, 0x00001000, 0x00000000] =
      .ok (.onSnr ⟨36864, 4096⟩, []) := by decide
theorem test_decode_push_pdu : decodeEvent [0x40030003, 0x00BEADDE] =
    .ok (.pushPdu 3 [0xDE, 0xAD, 0xBE], []) := by decide
theorem test_decode_push_ancillary : decodeEvent [0x50000005, 0x04030201, 0x00000005] =
    .ok (.pushAncillary [1, 2, 3, 4, 5], []) := by decide
theorem test_decode_reg_value : decodeEvent [0x60000000, 0x00000006] =
    .ok (.regValue 0 6, []) := by decide
theorem test_decode_fault : decodeEvent [0x70000002] = .ok (.fault .cfg, []) := by decide
theorem test_decode_event_number : decodeEvent [0x80000000] = .error (.eventNumber 8) := by decide
theorem test_decode_event_field : decodeEvent [0x20000001] = .error (.eventField 1) := by decide
theorem test_decode_fault_code : decodeEvent [0x70000003] = .error (.faultCode 3) := by decide
theorem test_encode_pdu_empty : encode (.pushPdu 5 []) = [0x40050000] := by decide
theorem test_table_word : decodeTableWord 96 0xFFFFFFFA0000000530000002 =
    some (.loadGainTable [5, 0xFFFFFFFA]) := by decide

/-! ## Single steps (spec/95_test_vectors.md 2.1, 2.5, 2.10, 2.11) -/

theorem test_step_nop : ran cfgT [0x0ABCDEF1] [] = s0 := by decide
theorem test_step_waits : ran cfgT [0x40000002, 0x00000008] [] =
    { s0 with cmd := [0x40000002, 0x00000008] } := by decide
theorem test_step_reset :
    after (stepAt cfgT { s0 with cmd := [0x1FFFFFFF], skip := 7, halted := true,
                                 faultCode := some .src, gainTab := [5], remaining := 1 }) = s0 := by
  decide
theorem test_step_set_skip : (ran cfgT [0x20000003] []).skip = 3 := by decide
theorem test_step_load_gains :
    (ran cfgT [0x30000002, 0x00000005, 0xFFFFFFFA] [0, 0]).evt = [0x10000000, 5, 0x20000000] := by
  decide
/-- X1. -/
theorem test_step_load_gains_fault :
    let t := ran cfgT [0x30000002, 0x00000005, 0xFFFFFFFA] [0, 0x80000000]
    t.evt = [0x10000000, 5, 0x20000000, 0x70000001] ∧ t.remaining = 2 ∧ status t = 0x70 := by decide
/-- E9. -/
theorem test_step_load_bad :
    let t := ran cfgT [0x30000102, 0x00000005, 0xFFFFFFFA] []
    t.evt = [0x70000002] ∧ t.cmd = [] ∧ t.gainTab = [] ∧ status t = 0xA0 := by decide
/-- E11: one decimated sample. -/
theorem test_step_deliver :
    let t := ran cfgD [0x40000002, 0x00000008, 0xFFF80010] []
    t.dbuf = [⟨5, -1⟩] ∧ t.phase = 0 ∧ t.hist = [⟨16, -8⟩, ⟨8, 0⟩, ⟨0, 0⟩] := by decide
/-- K10: the first three samples are discarded. -/
theorem test_step_deliver_skip :
    let t := after (stepAt cfgD { State.resetAt cfgD with skip := 3, cmd :=
      [0x40000005, 1, 2, 3, 0x00000008, 0xFFF80010] })
    t.dbuf = [⟨5, -1⟩] ∧ t.skip = 0 := by decide
theorem test_step_read_reg : (ran cfgT [0x500000FF] []).evt = [0x600000FF, 0] := by decide
/-- K11. -/
theorem test_step_read_skip :
    (after (stepAt cfgT { s0 with skip := 3, cmd := [0x50000001] })).evt = [0x60000001, 3] := by decide
theorem test_step_read_bad : (ran cfgT [0x50000100] []).evt = [0x70000002] := by decide
/-- E17: the next word is a command of its own. -/
theorem test_step_reserved :
    let t := ran cfgT [0xF0000005, 0x00000000] []
    t.evt = [0x70000002] ∧ t.cmd = [0] := by decide
/-- X3: a second fault changes nothing. -/
theorem test_step_reserved_halted :
    let s := { s0 with halted := true, faultCode := some .src }
    after (stepAt cfgT { s with cmd := [0xF0000000] }) = s := by decide
theorem test_exec_apply_gain :
    (after (exec (.applyGain 0xFFFFFFFA) { s0 with ret := [0, 7] })).evt = [0x10000000, 0xFFFFFFFA] := by
  decide
theorem test_exec_reset_buffering :
    (after (exec .resetBuffering { s0 with ret := [0x80000000, 7] })).evt =
      [0x20000000, 0x70000001] := by decide
/-- H2: commit on the answer 0, back to the first gain. -/
theorem test_exec_on_snr :
    let t := after (exec (.onSnr ⟨1, 1⟩) { s0 with gainTab := [1, 2, 3], curIdx := 1, bestIdx := 0, remaining := 2, ret := [0, 0, 0] })
    t.evt = [0x30000000, 1, 0, 1, 0, 0x10000000, 1, 0x20000000] ∧ t.curIdx = 0 ∧ t.remaining = 0 := by
  decide
theorem test_exec_push_pdu :
    (after (exec (.pushPdu 3 [0xDE, 0xAD, 0xBE]) s0)).evt = [0x40030003, 0x00BEADDE] := by decide
theorem test_exec_push_ancillary :
    (after (exec (.pushAncillary [1, 2, 3, 4, 5]) s0)).evt =
      [0x50000005, 0x04030201, 0x00000005] := by decide
theorem test_exec_reg_value : (after (exec (.regValue 0 6) s0)).evt = [0x60000000, 6] := by decide
theorem test_exec_fault :
    let t := after (exec (.fault .cfg) s0)
    t.evt = [0x70000002] ∧ t.halted = true ∧ t.faultCode = some .cfg := by decide

/-! ## Operations (spec/95_test_vectors.md 2.1 to 2.9) -/

/-- Section 2.1: a sample word read with 8 bits to a part. -/
theorem test_sample_narrow : sampleOf 8 0x00FF0180 = ⟨-128, -1⟩ := by decide
/-- D5 and D6: rounding toward minus infinity, and saturation. -/
theorem test_quantiser : defaultQD 16 3 (-1) = -1 ∧ defaultQD 16 3 1 = 0 ∧
    defaultQD 16 3 524272 = 32767 ∧ defaultQD 16 3 (-524288) = -32768 := by decide
/-- C1 to C7. -/
theorem test_snr_order : ge ⟨7, 2⟩ ⟨10, 3⟩ = true ∧ ge ⟨5, 1⟩ ⟨10, 1⟩ = false ∧
    ge ⟨0, 0⟩ ⟨0, 1⟩ = true ∧ ge ⟨5, 0⟩ ⟨1000000, 1⟩ = true ∧ ge ⟨100, 1⟩ ⟨5, 0⟩ = false := by decide
theorem test_snr_drop : ltDrop cfgT ⟨5, 1⟩ ⟨10, 1⟩ = false ∧ ltDrop cfgT ⟨4, 1⟩ ⟨10, 1⟩ = true ∧
    ltDrop cfgT ⟨100, 1⟩ ⟨5, 0⟩ = true ∧ ltDrop cfgT ⟨0, 0⟩ ⟨0, 1⟩ = false := by decide
/-- A3: the second evaluation in a row locks and consumes up to the pilot. -/
theorem test_acq_lock :
    let t := acqStep cfgT { s0 with lock := .acquiring, acqRun := 1,
                                    dbuf := [⟨1, 0⟩, ⟨20, 1⟩, ⟨2, 0⟩, ⟨2, 0⟩] }
    t.lock = .locked ∧ t.track = .entered ∧ t.acqRun = 0 ∧
      t.dbuf = [⟨20, 1⟩, ⟨2, 0⟩, ⟨2, 0⟩] := by decide
/-- K1, fourth to sixth figure. -/
theorem test_track : trackUpdate cfgT 6 { s0 with lossRun := 1 } =
      (false, { s0 with track := .degraded, lossRun := 0 }) ∧
    (trackUpdate cfgT 2 { s0 with lossRun := 1 }).1 = true := by decide
/-- F8: a whole frame, its two payloads dispatched in order. -/
theorem test_frame :
    (frameSymbol cfgT [⟨20, 1⟩, ⟨9, 0⟩, ⟨9, 0⟩, ⟨13, 0⟩] (some 1)
      { s0 with frmBuf := [[⟨20, 0⟩, ⟨3, 0⟩, ⟨7, 0⟩, ⟨7, 0⟩]] }).evt =
      [0x40030001, 0x00000007, 0x50000001, 0x00000009] := by decide

/-! ## Witnesses: a state and operands that meet the hypotheses of each obligation -/

/-- A halted state. -/
def sH : State := { s0 with halted := true, faultCode := some .src }

/-- A search over three gains with the second candidate in force and recorded as the best. -/
def sG : State := { s0 with gainTab := [1, 2, 3], curIdx := 1, bestIdx := 1, bestSnr := ⟨20, 1⟩,
                            remaining := 2, ret := [1, 0, 0] }

/-- A locked state with one symbol of two stored. -/
def sL : State := { s0 with lock := .locked, track := .stable, frmBuf := [[⟨20, 0⟩, ⟨3, 0⟩, ⟨7, 0⟩, ⟨7, 0⟩]],
                            dbuf := [⟨20, 1⟩, ⟨9, 0⟩, ⟨9, 0⟩, ⟨13, 0⟩] }

/-- The second symbol of vector F8. -/
def symB : Symbol := [⟨20, 1⟩, ⟨9, 0⟩, ⟨9, 0⟩, ⟨13, 0⟩]

theorem witness_CommandsDecodeBack : (Instr.loadGainTableBad 1 [5]).isCommand = true ∧
    (Instr.loadGainTableBad 1 [5]).WellFormed = true := by decide
theorem witness_EventsDecodeBack : (Instr.pushPdu 4095 [1, 2, 3, 4, 5]).isCommand = false ∧
    (Instr.pushPdu 4095 [1, 2, 3, 4, 5]).WellFormed = true := by decide
theorem witness_DecodedCommandsEncodeBack :
    decode [0x30000001, 5, 0] = .ok (.loadGainTable [5], [0]) := by decide
theorem witness_EveryCommandWordDecodes :
    [5#32, 6].length = payloadLen 0x30000102 ∧ [5#32].length < payloadLen 0x40000002 := by decide
theorem witness_StepRunsDecodedCommand :
    decode ({ s0 with cmd := [0x20000003, 9] } : State).cmd = .ok (.setSkip 3, [9]) ∧
    decode ({ s0 with cmd := [0x30000001] } : State).cmd = .error .shortPayload ∧
    decode s0.cmd = .error .noWord := by decide

theorem zero_fits (n : Nat) : Sample.zero.Fits n := by
  have : (0 : Int) < 2 ^ (n - 1) := by positivity
  refine ⟨⟨?_, ?_⟩, ⟨?_, ?_⟩⟩ <;> simp only [Sample.zero] <;> omega

theorem witness_FilterOk (c : Cfg) : FilterOk c (State.resetAt c) :=
  ⟨⟨List.length_replicate, fun x hx => by
    rw [List.eq_of_mem_replicate hx]; exact zero_fits _⟩, c.m_range.1⟩

theorem witness_StepKeepsInvariant :
    let s : State := { State.reset with cmd := [0x20000003] }
    Inv Config.cfg s ∧ step s = .next { State.reset with skip := 3 } := by
  refine ⟨⟨⟨(witness_FilterOk Config.cfg).hist, (witness_FilterOk Config.cfg).phase⟩,
    ⟨Nat.zero_le _, by simp [State.reset, State.resetAt], fun _ => ?_, fun h => (by cases h)⟩,
    ⟨by decide, by simp [State.reset, State.resetAt]⟩,
    ⟨by decide, fun h => (by cases h), fun _ h => (by cases h), fun _ => ⟨rfl, rfl, rfl⟩⟩,
    ⟨Config.cfg.acqSustain_range.1, by simp [State.reset, State.resetAt], ?_,
      by simp [State.reset, State.resetAt], Config.cfg.lossSustain_range.1⟩,
    ⟨Config.cfg.symsPerFrame_range.1, by simp [State.reset, State.resetAt], fun h => (by cases h),
      fun _ => rfl⟩,
    ⟨by decide, by decide⟩,
    by simp [State.reset, State.resetAt]⟩, rfl⟩
  · exact Nat.lt_of_lt_of_le Config.cfg.acqAdv_range.1 Config.cfg.acqAdv_range.2
  · exact Nat.lt_of_lt_of_le Config.cfg.acqAdv_range.1 Config.cfg.acqAdv_range.2

theorem witness_LoadGainTableStartsSearch :
    let s : State := { s0 with ret := [0, 1, 7] }
    s.halted = false ∧ s.ret = 0#32 :: 1 :: [7] ∧ retErr 0 = false ∧ retErr 1 = false := by decide
theorem witness_LoadGainTableSourceFault :
    let s : State := { s0 with ret := [0x80000000] }
    let t : State := { s0 with ret := [0, 0x80000000] }
    (s.halted = false ∧ s.ret = 0x80000000#32 :: [] ∧ retErr 0x80000000 = true) ∧
    (t.halted = false ∧ t.ret = 0#32 :: 0x80000000 :: [] ∧ retErr 0 = false ∧
      retErr 0x80000000 = true) := by decide

/-- The running block that EmptyGainTableSearchesNothing, BadFieldTakesConfigFault,
ReservedOpcodesTakeConfigFault and FirstFaultLatches speak of, and the halted one of the last. -/
theorem witness_running_and_halted : s0.halted = false ∧ sH.halted = true := by decide
theorem witness_HaltedIgnoresCommands : sH.halted = true ∧
    (Instr.deliver [5]).isCommand = true ∧ (∀ arg, Instr.deliver [5] ≠ .reset arg) ∧
    (∀ index, Instr.deliver [5] ≠ .readReg index) :=
  ⟨rfl, rfl, fun _ h => (by cases h), fun _ h => (by cases h)⟩
theorem witness_RegisterMapValues :
    s0.gainLen = 0 ∧ sG.curIdx < sG.gainTab.length ∧ 20 ≤ (20 : BitVec 8).toNat := by decide
theorem witness_SkippedSamplesReachNothing :
    let s : State := { s0 with skip := 2 }
    s.halted = false ∧ [7#32, 8].length ≤ s.skip.toNat := by decide

/-- The three cases: within a group of `M`, at its end during a search, at its end outside one. -/
theorem witness_DeliverTakesSamplesInOrder :
    let a : State := { State.reset with phase := Config.cfg.m }
    let b : State := { State.reset with phase := Config.cfg.m - 1, gainTab := [1], remaining := 1 }
    let d : State := { State.reset with phase := Config.cfg.m - 1 }
    (a.halted = false ∧ a.skip = 0 ∧ a.phase ≠ Config.cfg.m - 1) ∧
    (b.halted = false ∧ b.skip = 0 ∧ b.phase = Config.cfg.m - 1 ∧ 0 < b.remaining) ∧
    (d.halted = false ∧ d.skip = 0 ∧ d.phase = Config.cfg.m - 1 ∧ d.remaining = 0) := by
  have := Config.cfg.m_range.1
  exact ⟨⟨rfl, rfl, by show Config.cfg.m ≠ Config.cfg.m - 1; omega⟩,
    ⟨rfl, rfl, rfl, Nat.one_pos⟩, ⟨rfl, rfl, rfl, rfl⟩⟩
theorem witness_DeliverCompletesInDecodeMode : State.reset.halted = false ∧
    State.reset.remaining = 0 ∧ FilterOk Config.cfg State.reset :=
  ⟨rfl, rfl, witness_FilterOk _⟩
theorem witness_DeliverySplitsAnywhere : [1#32].length + [2#32, 3].length < 2 ^ 28 := by decide
theorem witness_CallsTakeOneAnswer :
    ({ s0 with ret := [1, 7] } : State).ret = 1#32 :: [7] ∧ retErr 1 = false := by decide
theorem witness_FailedCallsTakeSourceFault :
    let s : State := { s0 with ret := [0x80000001, 7] }
    s.halted = false ∧ s.ret = 0x80000001#32 :: [7] ∧ retErr 0x80000001 = true := by decide
theorem witness_UnlistedAnswersAreFree : s0.ret = [] := by decide

/-- Both grounds for the commit: the answer 0, and the answer 1 on the last candidate. -/
theorem witness_HookAnswerCommits :
    let s : State := { sG with ret := [0] }
    let t : State := { sG with curIdx := 2, bestIdx := 2, remaining := 1, ret := [1] }
    (s.ret = 0#32 :: [] ∧ retErr 0 = false ∧ 0 < s.remaining ∧ s.bestIdx = s.curIdx ∧
      retFlag 0 = false) ∧
    (t.ret = 1#32 :: [] ∧ retErr 1 = false ∧ 0 < t.remaining ∧ t.bestIdx = t.curIdx ∧
      t.gainLen ≤ t.curIdx + 1) := by decide
theorem witness_HookAnswerContinues : sG.curIdx + 1 < sG.gainTab.length ∧
    sG.ret = 1#32 :: 0 :: 0 :: [] ∧ retErr 1 = false ∧ retFlag 1 = true ∧ retErr 0 = false ∧
    0 < sG.remaining := by decide
theorem witness_PostsOnlyAppendWords : [1#8, 2, 3].length < 2 ^ 16 := by decide
theorem witness_PayloadBytesPackLowFirst : (0 : Nat) < 4 ∧ (3 : Nat) < 4 := by decide
theorem witness_EventsAreOnlyAppended : exec (.readReg 1) s0 =
    .next { s0 with evt := [0x60000001, 0] } := rfl
theorem witness_HaltedUntilReset : sH.halted = true ∧ (∀ arg, Instr.fault .cfg ≠ .reset arg) ∧
    exec (.fault .cfg) sH = .next sH :=
  ⟨rfl, fun _ h => (by cases h), rfl⟩
theorem witness_SampleWordAssembly : (1 ≤ 1 ∧ 1 ≤ 16) ∧ (1 ≤ 16 ∧ 16 ≤ 16) := by decide
theorem witness_PolyphaseEqualsDirectForm : Sample.i Sample.zero = 0 ∧ Sample.q Sample.zero = 0 := by
  decide

/-- A search with the last sample of a group of `M` to come and `n` samples in the window. -/
def sE (n : Nat) : State :=
  { State.reset with phase := Config.cfg.m - 1, gainTab := [1], remaining := 1,
                     snrWin := List.replicate n Sample.zero }

theorem sE_decimate (n : Nat) (x : Sample) : (decimate Config.cfg [x] (sE n)).1.length = 1 ∧
    (decimate Config.cfg [x] (sE n)).2.phase = 0 := by
  simp [decimate, decimPush, sE]

/-- A window that stays open and one that is filled, by decimated samples and by a DELIVER, and a
DELIVER that a search outlives. -/
theorem witness_EstimatePartitionsBins : IsWindow cfgT.wD 64 (List.replicate 64 Sample.zero) := by
  decide
theorem witness_EstimatorCycleOf64 :
    let xs := ([0#32].drop (sE 63).skip.toNat).map (sampleOf Config.cfg.wIn)
    let r := fun (n : Nat) => decimate Config.cfg xs { sE n with skip := BitVec.ofNat 28 (0 - 1) }
    ([Sample.zero] ≠ [] ∧ s0.snrFill + [Sample.zero].length < 64 ∧
      (sE 63).snrFill + [Sample.zero].length = 64) ∧
    ((sE 62).halted = false ∧ 0 < (sE 62).remaining ∧ (sE 62).snrFill + (r 62).1.length < 64) ∧
    (xs ≠ [] ∧ (r 63).2.phase = 0 ∧ (sE 63).snrFill + (r 63).1.length = 64) ∧
    (0 < (sE 0).remaining ∧ exec (.deliver [0]) { sE 0 with skip := 1 } = .next (sE 0)) := by
  refine ⟨by decide, ⟨rfl, Nat.one_pos, ?_⟩, ⟨by simp [sE, State.reset, State.resetAt],
    (sE_decimate 63 _).2, ?_⟩, Nat.one_pos, rfl⟩
  · show 62 + (decimate Config.cfg [sampleOf Config.cfg.wIn 0] (sE 62)).1.length < 64
    rw [(sE_decimate 62 _).1]
    decide
  · show 63 + (decimate Config.cfg [sampleOf Config.cfg.wIn 0] (sE 63)).1.length = 64
    rw [(sE_decimate 63 _).1]

/-- The candidate in force, another one to commit to, a next one to advance to, and the three kinds of
answers. -/
theorem witness_CommitAppliesBestGain :
    let s : State := { sG with bestIdx := 0, ret := [0, 0] }
    let t : State := { s with ret := [0x80000000] }
    let u : State := { s with ret := [0, 0x80000000] }
    sG.bestIdx = sG.curIdx ∧ (s.bestIdx < s.gainTab.length ∧ s.bestIdx ≠ s.curIdx) ∧
    s.curIdx + 1 < s.gainTab.length ∧
    (s.ret = 0#32 :: 0 :: [] ∧ retErr 0 = false) ∧
    (t.halted = false ∧ t.ret = 0x80000000#32 :: [] ∧ retErr 0x80000000 = true) ∧
    (u.halted = false ∧ u.ret = 0#32 :: 0x80000000 :: []) := by decide
theorem witness_SingleGainCommitsSilently : cfgT.hookExternal = false := by decide

/-- A figure with no candidate left, with an external hook, one that commits (a fall below half of the
best; the last candidate), and one that goes on. -/
theorem witness_SearchNeverRescans :
    let h : Cfg := { cfgT with hookExternal := true }
    let s : State := { sG with ret := [0, 0] }
    let l : State := { sG with curIdx := 2, remaining := 1 }
    (ControllerOk sG ∧ 0 < sG.remaining) ∧ s0.remaining = 0 ∧ h.hookExternal = true ∧
    (cfgT.hookExternal = false ∧ ltDrop cfgT ⟨9, 1⟩ sG.bestSnr = true) ∧
    (0 < l.remaining ∧ l.gainLen ≤ l.curIdx + 1) ∧
    (s.curIdx + 1 < s.gainTab.length ∧ ltDrop cfgT ⟨10, 1⟩ s.bestSnr = false ∧
      ge ⟨10, 1⟩ s.bestSnr = false ∧ s.ret = 0#32 :: 0 :: [] ∧ retErr 0 = false) :=
  ⟨⟨⟨by decide, fun _ => by decide, fun h => (by cases h), fun h => (by cases h)⟩, by decide⟩, rfl,
    rfl, by decide, by decide, by decide⟩

/-- The figures of vector G1: a peak at the third of four, and a fall below half of it. -/
theorem witness_SearchCommitsToMaximum :
    let figs : List SnrT := [⟨10, 1⟩, ⟨20, 1⟩, ⟨30, 1⟩, ⟨14, 1⟩]
    cfgT.hookExternal = false ∧ figs.length = [0#32, 90, 200, 300].length ∧ 2 < figs.length ∧
    (∀ i j (hi : i < figs.length) (hj : j < figs.length), i ≤ j →
      (j ≤ 2 → ge figs[j] figs[i] = true) ∧ (2 ≤ i → ge figs[i] figs[j] = true)) ∧
    ltDrop cfgT figs[3] figs[2] = true := by
  refine ⟨rfl, rfl, by decide, fun i j hi hj => ?_, by decide⟩
  have hi' : i < 4 := hi
  have hj' : j < 4 := hj
  interval_cases i <;> interval_cases j <;> simp [ge]

/-- Vectors A1, A2 and A3: a miss, a longer run, a lock. -/
theorem witness_AcquisitionStepOutcomes :
    let a : State := { s0 with dbuf := List.replicate 4 Sample.zero }
    let b : State := { s0 with dbuf := [⟨0, 0⟩, ⟨20, 0⟩, ⟨1, 0⟩, ⟨1, 0⟩] }
    let d : State := { b with lock := .acquiring, acqRun := 1 }
    (cfgT.acqCorr (a.dbuf.take cfgT.acqWin)).e ≤ cfgT.acqThresh ∧
    (cfgT.acqThresh < (cfgT.acqCorr (b.dbuf.take cfgT.acqWin)).e ∧
      b.acqRun + 1 < cfgT.acqSustain) ∧
    (cfgT.acqThresh < (cfgT.acqCorr (d.dbuf.take cfgT.acqWin)).e ∧
      cfgT.acqSustain ≤ d.acqRun + 1) := by decide
theorem witness_DeadInputStaysUnlocked : cfgT.qD 0 = 0 ∧ s0.halted = false ∧ s0.remaining = 0 ∧
    s0.lock = .unlocked ∧ s0.acqRun = 0 ∧ (∀ x ∈ s0.hist, x = Sample.zero) ∧
    (∀ x ∈ s0.dbuf, x = Sample.zero) := by decide

/-- The figures 10, 5, 4 at the edges of their ranges, without and with a run. -/
theorem witness_TrackUpdateOutcomes : cfgT.qDegrade ≤ 10 ∧ (5 < cfgT.qDegrade ∧ cfgT.qLoss ≤ 5) ∧
    (4 < cfgT.qLoss ∧ s0.lossRun + 1 < cfgT.lossSustain) ∧
    (4 < cfgT.qLoss ∧ cfgT.lossSustain ≤ ({ s0 with lossRun := 1 } : State).lossRun + 1) := by decide
theorem witness_LockTransitionTable :
    (sL.track = .none ↔ sL.lock ≠ .locked) ∧ pumpTurn cfgT sL = some (syncSymbol cfgT sL) := by decide

/-- A turn of each kind, no turn of each kind at the boundary, and a buffer in range. -/
theorem witness_PumpRunsToRest :
    let a : State := { s0 with dbuf := List.replicate 4 Sample.zero }
    (a.halted = false ∧ a.lock ≠ .locked ∧ cfgT.acqWin ≤ occupancy a) ∧
    (sL.halted = false ∧ sL.lock = .locked ∧ cfgT.symMax ≤ occupancy sL) ∧
    sH.halted = true ∧
    (s0.lock ≠ .locked ∧ occupancy (consume 1 a) < cfgT.acqWin) ∧
    (sL.lock = .locked ∧ occupancy (consume 1 sL) < cfgT.symMax) ∧
    (∀ x ∈ sL.dbuf, x.Fits cfgT.wD) ∧ (pumpTurn cfgT sL).isSome = true ∧
    pumpTurn cfgT s0 = none := by decide
theorem witness_PumpConsumesInOrder :
    (∀ x ∈ sL.dbuf, x.Fits cfgT.wD) ∧ (pump cfgT sL).used = 4 := by decide

/-- Each clause: the next position of a longer frame, the last one, a restart, a restart where a frame
is one symbol, a position out of sequence. -/
theorem witness_FrameSymbolPlacement :
    let c1 : Cfg := {}
    (0 = s0.frmFill ∧ s0.frmFill + 1 ≠ cfgT.symsPerFrame) ∧
    (1 = sL.frmFill ∧ sL.frmFill + 1 = cfgT.symsPerFrame) ∧
    (0 ≠ sL.frmFill ∧ cfgT.symsPerFrame ≠ 1) ∧ c1.symsPerFrame = 1 ∧
    (1 ≠ s0.frmFill ∧ 1 ≠ 0) := by decide
theorem witness_DecodeOnlyAfterCompleteFrame : sL.frmFill < cfgT.symsPerFrame ∧
    (frameSymbol cfgT symB (some 1) sL).evt ≠ sL.evt := by decide

/-- The frame of vector F8 occurs under CFG-T: one lock of two symbols brings it about. -/
theorem test_frame_occurs : cfgT.FrameOccurs (sL.frmBuf ++ [symB]) :=
  ⟨rfl, [2], List.replicate 4 Sample.zero, sL.frmBuf ++ [symB], by decide, by decide, rfl, by decide⟩

/-- CFG-T's payload check takes a list of any length; `MAX_PDU_LEN` bounds what its frames decode to. -/
theorem test_payload_check_total : cfgT.payloadCheck .pdu [1, 2, 3] = some [1, 2] ∧
    cfgT.maxPduLen = 1 := by decide

/-- Vectors F8 and F9, the frame of F8 as an uncorrupted one, each of its structural bits corrupted, a
stream of symbols that completes it, and a payload of it. -/
theorem witness_CompleteFrameDispatchesRegions :
    let F := sL.frmBuf ++ [symB]
    cfgT.frameCheck F = true ∧
    cfgT.frameCheck (sL.frmBuf ++ [[⟨20, 1⟩, ⟨9, 0⟩, ⟨9, 0⟩, ⟨14, 0⟩]]) = false ∧
    cfgT.cleanFrame F = true ∧ (0 < cfgT.structBits ∧ 3 < cfgT.structBits) ∧
    cfgT.frameCheck (cfgT.flipBit 3 F) = false ∧
    sL.frmFill < cfgT.symsPerFrame ∧ (frameStream cfgT [(symB, some 1)] sL).1 = [F] ∧
    cfgT.FrameOccurs F ∧ ⟨.pdu, 3, [7, 7]⟩ ∈ cfgT.frameSplit F ∧
    cfgT.payloadCheck .pdu (cfgT.fecDecode .pdu (deinterleave cfgT .pdu [7, 7])) = some [7] :=
  ⟨by decide, by decide, by decide, by decide, by decide, by decide, by decide, test_frame_occurs,
    by decide, by decide⟩
theorem witness_DeinterleaveIsPermutation : [(5 : Soft), 6].length = 2 ∧
    deinterleave cfgT .pdu [5, 6] = [6, 5] := by decide
theorem witness_CountersDecideNothing :
    execAt cfgT (.deliver [5]) s0 = .next { s0 with dbuf := [⟨5, 0⟩] } := rfl

end Sys2Proof.Tests
end

/-! Proofs about the step and the configuration record (spec/46_orchestrator_host.md R240,
spec/00_scope.md R10): O6, O7. -/
section

namespace Sys2Proof.Machine

/-! What `fetch` answers, by what the decoder reads from CMD (R92, R240). -/

theorem fetch_of_decode_ok {s : State} {i : Instr} {rest : List Word}
    (h : decode s.cmd = .ok (i, rest)) : fetch s = .ok (i, { s with cmd := rest }) := by
  simp only [fetch, h]

theorem fetch_of_decode_error {s : State} {r : NoTransaction} (h : decode s.cmd = .error r) :
    fetch s = .error r := by
  simp only [fetch, h]

/-! The step of the machine and of the block at any configuration, by what `fetch` answers. -/

theorem step_of_fetch_ok {s t : State} {i : Instr} (h : fetch s = .ok (i, t)) :
    step s = exec i t := by
  simp only [step, h]

theorem step_of_fetch_error {s : State} {r : NoTransaction} (h : fetch s = .error r) :
    step s = .next s := by
  simp only [step, h]

theorem stepAt_of_fetch_ok (c : Cfg) {s t : State} {i : Instr} (h : fetch s = .ok (i, t)) :
    stepAt c s = execAt c i t := by
  simp only [stepAt, h]

theorem stepAt_of_fetch_error (c : Cfg) {s : State} {r : NoTransaction}
    (h : fetch s = .error r) : stepAt c s = .next s := by
  simp only [stepAt, h]

/-- Only `RESET` and `DELIVER` read the configuration by themselves, and both read `Config.cfg`. -/
theorem exec_eq_execAt (i : Instr) (s : State) : exec i s = execAt Config.cfg i s := by
  cases i with
  | reset arg => rfl
  | deliver samples => rfl
  | _ => rfl

theorem step_eq_stepAt (s : State) : step s = stepAt Config.cfg s := by
  cases h : fetch s with
  | error r => rw [step_of_fetch_error h, stepAt_of_fetch_error _ h]
  | ok p =>
    obtain ⟨i, t⟩ := p
    rw [step_of_fetch_ok h, stepAt_of_fetch_ok _ h, exec_eq_execAt]

/-- Settles O6: the step follows `fetch`, and `fetch` follows the decoder. -/
theorem stepRunsDecodedCommand : Obligations.StepRunsDecodedCommand :=
  ⟨fun _ _ _ h => step_of_fetch_ok (fetch_of_decode_ok h),
    fun _ _ h => step_of_fetch_error (fetch_of_decode_error h)⟩

/-- Settles O7, by cases over the instructions and over what `fetch` answers. -/
theorem machineIsTheBlockAtItsConfig : Obligations.MachineIsTheBlockAtItsConfig :=
  ⟨exec_eq_execAt, step_eq_stepAt⟩

end Sys2Proof.Machine

end

/-! Proofs about the order of SNR figures (spec/00_scope.md R16): O43. -/
section

namespace Sys2Proof.Machine

open Sys2Proof.Safety

/-- The figure stands for +infinity (R16): signal and no noise. -/
abbrev SnrInfinite (a : SnrT) : Prop := a.N = 0 ∧ 0 < a.S

/-- A finite figure without noise has no signal either. -/
theorem signal_eq_zero {a : SnrT} (ha : ¬ SnrInfinite a) (hN : a.N = 0) : a.S = 0 :=
  Nat.eq_zero_of_not_pos fun hS => ha ⟨hN, hS⟩

theorem snrVal_infinite {a : SnrT} (ha : SnrInfinite a) : snrVal a = ⊤ := by
  simp [snrVal, ha.1, ha.2.ne']

/-- The value of a finite figure is the quotient, which for the figure `0 / 0` is 0 in `ℚ` too. -/
theorem snrVal_finite {a : SnrT} (ha : ¬ SnrInfinite a) :
    snrVal a = ((a.S / a.N : ℚ) : WithTop ℚ) := by
  by_cases hN : a.N = 0
  · simp [snrVal, hN, signal_eq_zero ha hN]
  · simp [snrVal, hN]

theorem dropLimit_zero_ratio {c : Cfg} (hc : c.gainDropNum = 0) (b : SnrT) : dropLimit c b = 0 := by
  by_cases hN : b.N = 0 <;> simp [dropLimit, hc, hN]

theorem dropLimit_infinite {c : Cfg} {b : SnrT} (hc : c.gainDropNum ≠ 0) (hb : SnrInfinite b) :
    dropLimit c b = ⊤ := by
  simp [dropLimit, hc, hb.1, hb.2.ne']

theorem dropLimit_finite (c : Cfg) {b : SnrT} (hb : ¬ SnrInfinite b) :
    dropLimit c b = ((b.S / b.N * c.gainDropNum / c.gainDropDen : ℚ) : WithTop ℚ) := by
  by_cases hN : b.N = 0
  · simp [dropLimit, hN, signal_eq_zero hb hN]
  · simp [dropLimit, hN]

/-- `ge` on finite figures compares the quotients. -/
theorem ge_finite {a b : SnrT} (ha : ¬ SnrInfinite a) (hb : ¬ SnrInfinite b) :
    ge a b = true ↔ (b.S / b.N : ℚ) ≤ a.S / a.N := by
  rw [ge, if_neg ha, if_neg hb]
  by_cases hbN : b.N = 0
  · have hval : (0 : ℚ) ≤ a.S / a.N := by positivity
    simpa [hbN] using hval
  · have hbN' : (0 : ℚ) < b.N := by exact_mod_cast Nat.pos_of_ne_zero hbN
    by_cases haN : a.N = 0
    · simp [hbN, haN, div_le_iff₀ hbN']
    · have haN' : (0 : ℚ) < a.N := by exact_mod_cast Nat.pos_of_ne_zero haN
      rw [if_neg hbN, if_neg haN, decide_eq_true_iff, div_le_div_iff₀ hbN' haN']
      norm_cast

/-- `ltDrop` on finite figures compares the quotient with the scaled quotient. -/
theorem ltDrop_finite {c : Cfg} {a b : SnrT} (hc : c.gainDropNum ≠ 0) (ha : ¬ SnrInfinite a)
    (hb : ¬ SnrInfinite b) :
    ltDrop c a b = true ↔ (a.S / a.N : ℚ) < b.S / b.N * c.gainDropNum / c.gainDropDen := by
  have hnum : (0 : ℚ) < c.gainDropNum := by exact_mod_cast Nat.pos_of_ne_zero hc
  have hden : (0 : ℚ) < c.gainDropDen := by exact_mod_cast c.gainDrop_range.2
  rw [ltDrop, if_neg ha, if_neg hc]
  by_cases hbN : b.N = 0
  · have hlimit : ¬ (a.S / a.N : ℚ) < 0 := not_lt.2 (by positivity)
    simpa [hbN, signal_eq_zero hb hbN] using hlimit
  · have hbN' : (0 : ℚ) < b.N := by exact_mod_cast Nat.pos_of_ne_zero hbN
    by_cases haN : a.N = 0
    · simp [hbN, haN, lt_div_iff₀ hden, hbN', hnum, div_pos_iff_of_pos_right]
    · have haN' : (0 : ℚ) < a.N := by exact_mod_cast Nat.pos_of_ne_zero haN
      rw [if_neg hbN, if_neg haN, decide_eq_true_iff, div_mul_eq_mul_div, div_div,
        div_lt_div_iff₀ haN' (by positivity), ← mul_assoc, mul_right_comm _ (c.gainDropNum : ℚ)]
      norm_cast

theorem ge_iff_snrVal_le (a b : SnrT) : ge a b = true ↔ snrVal b ≤ snrVal a := by
  by_cases ha : SnrInfinite a
  · simp [ge, ha, snrVal_infinite ha]
  · by_cases hb : SnrInfinite b
    · simp [ge, ha, hb, snrVal_infinite hb, snrVal_finite ha]
    · rw [ge_finite ha hb, snrVal_finite ha, snrVal_finite hb, WithTop.coe_le_coe]

theorem ltDrop_iff_snrVal_lt (c : Cfg) (a b : SnrT) :
    ltDrop c a b = true ↔ snrVal a < dropLimit c b := by
  by_cases ha : SnrInfinite a
  · simp [ltDrop, ha, snrVal_infinite ha]
  · by_cases hc : c.gainDropNum = 0
    · have hval : ¬ (a.S / a.N : ℚ) < 0 := not_lt.2 (by positivity)
      rw [snrVal_finite ha, dropLimit_zero_ratio hc, ← WithTop.coe_zero, WithTop.coe_lt_coe]
      simpa [ltDrop, ha, hc] using hval
    · by_cases hb : SnrInfinite b
      · simp [ltDrop, ha, hc, hb.1, hb.2, dropLimit_infinite hc hb, snrVal_finite ha]
      · rw [ltDrop_finite hc ha hb, snrVal_finite ha, dropLimit_finite c hb, WithTop.coe_lt_coe]

/-- Settles O43: infinite figures by cases, finite ones by cross-multiplication in `ℚ`. -/
theorem snrOrderIsOrderOfValues : Obligations.SnrOrderIsOrderOfValues :=
  fun c a b => ⟨ge_iff_snrVal_le a b, ltDrop_iff_snrVal_lt c a b⟩

end Sys2Proof.Machine

end

/-! Proofs about the figure of the estimator (spec/41_snr_gain.md R142, R143; spec/00_scope.md R10):
O41. -/
section

namespace Sys2Proof.Machine

/-- A summed power as a sum over the bins it takes (R142). -/
theorem powerSum_eq_sum (X : List Sample) (bins : Nat → Bool) :
    (powerSum X bins : Int) = ∑ k ∈ (Finset.range 64).filter (fun k => bins k = true),
      ((X.getD k Sample.zero).i * (X.getD k Sample.zero).i +
        (X.getD k Sample.zero).q * (X.getD k Sample.zero).q) := by
  have hbins : (Finset.range 64).filter (fun k => bins k = true) =
      ((List.range 64).filter bins).toFinset := by
    rw [List.toFinset_filter, List.toFinset_range]
  rw [powerSum, hbins, ← List.sum_toFinset _ (List.nodup_range.filter bins), Nat.cast_sum]
  refine Finset.sum_congr rfl fun k _ => Int.toNat_of_nonneg ?_
  exact add_nonneg (mul_self_nonneg _) (mul_self_nonneg _)

/-- The windowed samples, position by position (R142). -/
theorem windowed_eq_ofFn (c : Cfg) (win : List Sample) :
    windowed c win = List.ofFn (fun n : Fin win.length =>
      (⟨c.snrWindow n * win[n].i, c.snrWindow n * win[n].q⟩ : Sample)) :=
  List.mapIdx_eq_ofFn win _

/-- A number below the clamp travels as it is (R14). -/
theorem usat64_toNat_of_lt {n : Nat} (h : n < 2 ^ 64) : (usat64 n).toNat = n := by
  rw [usat64, BitVec.toNat_ofNat]
  omega

/-- The powers of a window in range have at most `W_P` bits: the constraint of the configuration
record says so (R10, R252; log 1). -/
theorem snrEstimate_lt (c : Cfg) {win : List Sample} (h : IsWindow c.wD 64 win) :
    (snrEstimate c win).S < 2 ^ c.wP ∧ (snrEstimate c win).N < 2 ^ c.wP :=
  c.powers_fit win h

/-- Settles O41: both powers are sums over bins, those of the two parts of a partition; the bounds are
those of the configuration record (log 1). -/
theorem estimatePartitionsBins : Obligations.EstimatePartitionsBins := by
  intro c win v P
  have hv : windowed c win = v := windowed_eq_ofFn c win
  obtain ⟨hSigPower, hNoisePower⟩ := snrEstimate_powers c win
  have hS : ((snrEstimate c win).S : Int) =
      ∑ k ∈ (Finset.range 64).filter (fun k => c.sigBins k = true), P k := by
    rw [hSigPower, hv, powerSum_eq_sum]
  have hN : ((snrEstimate c win).N : Int) =
      ∑ k ∈ (Finset.range 64).filter (fun k => c.sigBins k = false), P k := by
    rw [hNoisePower, hv, powerSum_eq_sum]
    simp only [Bool.not_eq_true', P]
  refine ⟨hS, hN, ?_, fun hwin => ?_⟩
  · simpa only [hS, hN, Bool.not_eq_true] using
      Finset.sum_filter_add_sum_filter_not (Finset.range 64) (fun k => c.sigBins k = true) P
  · have hWord : 2 ^ c.wP ≤ 2 ^ 64 := Nat.pow_le_pow_right (by decide) c.wP_le
    obtain ⟨hSlt, hNlt⟩ := snrEstimate_lt c hwin
    exact ⟨hSlt, hNlt, usat64_toNat_of_lt (hSlt.trans_le hWord),
      usat64_toNat_of_lt (hNlt.trans_le hWord)⟩

end Sys2Proof.Machine

end

/-! Proofs about the register map, the `STATUS` word and the reset values (spec/10_state.md R41, R42,
R47): O8, O21, O22. -/
section

namespace Sys2Proof.Machine

/-- Settles O8. -/
theorem resetValues : Obligations.ResetValues :=
  fun _ => ⟨rfl, rfl, rfl, rfl, rfl, rfl, rfl, rfl, rfl, rfl, rfl, rfl, rfl, rfl, rfl, rfl, rfl, rfl, rfl,
    rfl, rfl, rfl⟩

theorem usat64_toNat (n : Nat) : (usat64 n).toNat = min n (2 ^ 64 - 1) := by
  rw [usat64, BitVec.toNat_ofNat]
  omega

/-- The two words of a 64-bit quantity make it up (R69). -/
theorem hiWord_append_loWord (v : BitVec 64) : hiWord v ++ loWord v = v := by
  ext i hi
  simp [hiWord, loWord]
  grind

/-- A power's pair of words, put together, is the clamped number (R41, R69). -/
theorem powerWords_toNat (n : Nat) :
    (hiWord (usat64 n) ++ loWord (usat64 n)).toNat = min n (2 ^ 64 - 1) := by
  rw [hiWord_append_loWord, usat64_toNat]

theorem activeGain_empty {s : State} (h : s.gainLen = 0) : activeGain s = 0 := by
  simp [activeGain, h]

theorem activeGain_of_lt {s : State} (h : s.curIdx < s.gainTab.length) :
    activeGain s = s.gainTab[s.curIdx] := by
  have hlen : 1 ≤ s.gainLen := Nat.one_le_of_lt h
  rw [activeGain, if_pos hlen, gainAt, List.getD_eq_getElem _ _ h]

/-- The reserved indices 20 to 255 read as 0 (R41). -/
theorem reg_reserved {k : BitVec 8} (hk : 20 ≤ k.toNat) (s : State) : reg k s = 0 := by
  unfold reg
  split
  case h_21 => rfl
  all_goals omega

/-- Settles O21: the register map index by index; the active gain, the pairs of words and the reserved
indices by their own lemmas. -/
theorem registerMapValues : Obligations.RegisterMapValues := fun s =>
  ⟨rfl, rfl, rfl, rfl, rfl, rfl, activeGain_empty, activeGain_of_lt, powerWords_toNat _,
    powerWords_toNat _, rfl, rfl, rfl, rfl, rfl, rfl, rfl, rfl, rfl, fun _ hk => reg_reserved hk s⟩

/-- The bits of `STATUS` (R42): each belongs to one field. -/
theorem status_getLsbD (s : State) (i : Nat) :
    (status s).getLsbD i =
      if i < 2 then (lockField s.lock).getLsbD i
      else if i < 4 then (trackField s.track).getLsbD (i - 2)
      else if i < 5 then decide (0 < s.remaining)
      else if i < 6 then s.halted
      else (faultField s.faultCode).getLsbD (i - 6) := by
  unfold status
  rw [BitVec.getLsbD_append, BitVec.getLsbD_append, BitVec.getLsbD_append, BitVec.getLsbD_append,
    BitVec.getLsbD_append]
  grind

theorem status_lockField (s : State) : (status s).extractLsb' 0 2 = lockField s.lock := by
  ext i hi
  rw [BitVec.getElem_extractLsb', status_getLsbD, if_pos (by omega), Nat.zero_add,
    BitVec.getLsbD_eq_getElem hi]

theorem status_trackField (s : State) : (status s).extractLsb' 2 2 = trackField s.track := by
  ext i hi
  rw [BitVec.getElem_extractLsb', status_getLsbD, if_neg (by omega), if_pos (by omega),
    Nat.add_sub_cancel_left, BitVec.getLsbD_eq_getElem hi]

/-- The bits from 6 up hold the fault code, and zeros above it. -/
theorem status_getLsbD_fault (s : State) (i : Nat) :
    (status s).getLsbD (6 + i) = (faultField s.faultCode).getLsbD i := by
  rw [status_getLsbD, if_neg (by omega), if_neg (by omega), if_neg (by omega), if_neg (by omega),
    Nat.add_sub_cancel_left]

theorem status_faultField (s : State) : (status s).extractLsb' 6 2 = faultField s.faultCode := by
  ext i hi
  rw [BitVec.getElem_extractLsb', status_getLsbD_fault, BitVec.getLsbD_eq_getElem hi]

theorem status_high (s : State) : (status s).extractLsb' 8 24 = 0 := by
  ext i hi
  rw [BitVec.getElem_extractLsb', show 8 + i = 6 + (2 + i) by omega, status_getLsbD_fault,
    BitVec.getLsbD_of_ge _ _ (by omega)]
  simp

/-- Settles O22: each field of `STATUS` is where its bits are, and has the number of its state. -/
theorem statusFieldsShowState : Obligations.StatusFieldsShowState := by
  intro s
  refine ⟨?_, ?_, status_getLsbD s 4, status_getLsbD s 5, ?_, status_high s⟩
  · rw [status_lockField]
    cases s.lock <;> rfl
  · rw [status_trackField]
    cases s.track <;> rfl
  · rw [status_faultField]
    rcases s.faultCode with _ | _ | _ <;> rfl

end Sys2Proof.Machine

end

/-! Proofs about the sample loop of `DELIVER` under the skip count (spec/10_state.md R23,
spec/46_orchestrator_host.md R244): O23. -/
section

namespace Sys2Proof.Machine

/-! One raw sample of a `DELIVER`, by case (R244). -/

theorem deliverOne_halted (c : Cfg) (x : Sample) {s : State} (hh : s.halted = true) :
    deliverOne c s x = s := by
  rw [deliverOne, if_pos hh]

theorem deliverOne_skipped (c : Cfg) (x : Sample) {s : State} (hr : s.halted = false)
    (hs : 0 < s.skip) : deliverOne c s x = { s with skip := s.skip - 1 } := by
  rw [deliverOne, if_neg (by simp [hr]), if_pos hs]

theorem deliverOne_filtered (c : Cfg) (x : Sample) {s : State} (hr : s.halted = false)
    (hs : s.skip = 0) (hp : s.phase ≠ c.m - 1) : deliverOne c s x = (decimPush c x s).2 := by
  simp [deliverOne, decimPush, hr, hs, hp]

theorem deliverOne_routed (c : Cfg) (x : Sample) {s : State} (hr : s.halted = false)
    (hs : s.skip = 0) (hp : s.phase = c.m - 1) :
    deliverOne c s x = route c (firOutput c (x :: s.hist)) (decimPush c x s).2 := by
  simp [deliverOne, decimPush, hr, hs, hp]

theorem deliver_cons (c : Cfg) (x : Sample) (xs : List Sample) (s : State) :
    deliver c (x :: xs) s = deliver c xs (deliverOne c s x) := rfl

theorem deliver_halted (c : Cfg) (xs : List Sample) {s : State} (hh : s.halted = true) :
    deliver c xs s = s := by
  induction xs with
  | nil => rfl
  | cons x xs ih => rw [deliver_cons, deliverOne_halted c x hh, ih]

/-- Samples that the skip count covers only lower it (R23). -/
theorem deliver_skipped (c : Cfg) (xs : List Sample) : ∀ (s : State), s.halted = false →
    xs.length ≤ s.skip.toNat →
    deliver c xs s = { s with skip := s.skip - BitVec.ofNat 28 xs.length } := by
  induction xs with
  | nil => intro s _ _; simp [deliver]
  | cons x xs ih =>
    intro s hr hl
    rw [List.length_cons] at hl ⊢
    have hs : 0 < s.skip := by bv_omega
    have hrest : xs.length ≤ (s.skip - 1).toNat := by bv_omega
    have hcount :
        s.skip - 1 - BitVec.ofNat 28 xs.length = s.skip - BitVec.ofNat 28 (xs.length + 1) := by
      bv_omega
    rw [deliver_cons, deliverOne_skipped c x hr hs, ih { s with skip := s.skip - 1 } hr hrest, hcount]

/-- Settles O23, by induction on the samples. -/
theorem skippedSamplesReachNothing : Obligations.SkippedSamplesReachNothing := by
  intro ws s hr hl
  have h := deliver_skipped Config.cfg (ws.map (sampleOf Config.cfg.wIn)) s hr (by simpa using hl)
  rw [List.length_map] at h
  exact congrArg Host.Outcome.next h

end Sys2Proof.Machine

end

/-! What one transaction does, said once: the few that write the block's own fields, and all others as
a turn of the host's channels (spec/46_orchestrator_host.md R241 to R256). With it, O36. -/
section

namespace Sys2Proof.Machine

theorem post_hostTurn (e : Instr) (s : State) : HostTurn s (post e s) :=
  ⟨encode e, s.ret, s.retFree, s.halted, s.faultCode, rfl, fun h => ⟨h, rfl⟩, fun h => h⟩

/-- A fault that is latched stays as it is (R283). -/
theorem HostTurn.keeps_fault {s t : State} (h : HostTurn s t) (hh : s.halted = true) :
    t.halted = true ∧ t.faultCode = s.faultCode := by
  obtain ⟨ws, r, n, a, f, rfl, keeps, -⟩ := h
  exact keeps hh

/-- The decision of `GAIN.STEP` is a commit, or an advance before the last gain (R148). -/
theorem gainDecide_cases (cont : Bool) (s : State) :
    HostTurn { s with curIdx := s.bestIdx, remaining := 0 } (gainDecide cont s) ∨
    s.curIdx + 1 < s.gainLen ∧
      HostTurn { s with curIdx := s.curIdx + 1, remaining := s.remaining - 1 }
        (gainDecide cont s) := by
  unfold gainDecide
  split
  · exact .inl (gainCommit_hostTurn s)
  · rename_i hc
    exact .inr ⟨by omega, gainAdvance_hostTurn s⟩

/-- The hook's call is all there is, or its answer decides while candidates remain (R148, R151). -/
theorem askHook_cases (fig : SnrT) (s : State) :
    HostTurn s (askHook fig s) ∨
    ∃ cont t, HostTurn s t ∧ 0 < t.remaining ∧ askHook fig s = gainDecide cont t := by
  have hcall := call_hostTurn (.onSnr fig) s
  unfold askHook
  dsimp only
  split
  · exact .inl (hcall.trans (raiseFatal_hostTurn _ _))
  · split
    · exact .inl hcall
    · rename_i hr
      exact .inr ⟨_, _, hcall, Nat.pos_of_ne_zero hr, rfl⟩

/-- A table that is taken starts its search and then makes at most the pair of calls (R147). -/
theorem loadGains_hostTurn (gains : List Word) {s : State} (hr : s.halted = false) :
    HostTurn (startSearch gains s) (loadGains gains s) := by
  unfold loadGains
  rw [if_neg (by simp [hr])]
  cases gains with
  | nil => exact HostTurn.refl _
  | cons g gs => exact applyGainThenReset_hostTurn _ _

theorem loadGains_halted (gains : List Word) {s : State} (hh : s.halted = true) :
    loadGains gains s = s := by
  unfold loadGains
  rw [if_pos hh]

/-- The next states of a transaction at a configuration. -/
inductive ExecTurn (c : Cfg) : Instr → State → State → Prop
  | reset (arg : BitVec 28) (s : State) : ExecTurn c (.reset arg) s (resetBlock c s)
  | setSkip (n : BitVec 28) {s : State} : s.halted = false →
      ExecTurn c (.setSkip n) s { s with skip := n }
  | startSearch (gains : List Word) {s t : State} : s.halted = false →
      HostTurn (Machine.startSearch gains s) t → ExecTurn c (.loadGainTable gains) s t
  | deliver (samples : List Word) (s : State) :
      ExecTurn c (.deliver samples) s (deliver c (samples.map (sampleOf c.wIn)) s)
  | askHook (fig : SnrT) (s : State) : ExecTurn c (.onSnr fig) s (askHook fig s)
  | host {i : Instr} {s t : State} : HostTurn s t → ExecTurn c i s t

/-- Every transaction answers a next state, and one of these. -/
theorem execAt_turn (c : Cfg) (i : Instr) (s : State) :
    ∃ t, execAt c i s = .next t ∧ ExecTurn c i s t := by
  cases i with
  | nop arg => exact ⟨s, rfl, .host (HostTurn.refl s)⟩
  | reset arg => exact ⟨_, rfl, .reset arg s⟩
  | setSkip n =>
    refine ⟨_, rfl, ?_⟩
    split
    · exact .host (HostTurn.refl s)
    · rename_i hr
      exact .setSkip n (Bool.eq_false_of_not_eq_true hr)
  | loadGainTable gains =>
    refine ⟨_, rfl, ?_⟩
    cases hh : s.halted with
    | true => rw [loadGains_halted gains hh]; exact .host (HostTurn.refl s)
    | false => exact .startSearch gains hh (loadGains_hostTurn gains hh)
  | deliver samples => exact ⟨_, rfl, .deliver samples s⟩
  | onSnr fig => exact ⟨_, rfl, .askHook fig s⟩
  | loadGainTableBad _ _ | readRegBad _ _ | reserved6 _ | reserved7 _ | reserved8 _ | reserved9 _
  | reservedA _ | reservedB _ | reservedC _ | reservedD _ | reservedE _ | reservedF _ | fault _ =>
    exact ⟨_, rfl, .host (raiseFatal_hostTurn _ s)⟩
  | readReg _ | pushPdu _ _ | pushAncillary _ | regValue _ _ =>
    exact ⟨_, rfl, .host (post_hostTurn _ s)⟩
  | applyGain _ | resetBuffering => exact ⟨_, rfl, .host (callOrFail_hostTurn _ s)⟩

theorem execTurn_of_execAt {c : Cfg} {i : Instr} {s t : State} (h : execAt c i s = .next t) :
    ExecTurn c i s t := by
  obtain ⟨u, hu, turn⟩ := execAt_turn c i s
  rw [hu] at h
  cases h
  exact turn

theorem gainDecide_keeps_fault (cont : Bool) {s : State} (hh : s.halted = true) :
    (gainDecide cont s).halted = true ∧ (gainDecide cont s).faultCode = s.faultCode := by
  rcases gainDecide_cases cont s with commit | ⟨-, advance⟩
  · exact commit.keeps_fault hh
  · exact advance.keeps_fault hh

theorem askHook_keeps_fault (fig : SnrT) {s : State} (hh : s.halted = true) :
    (askHook fig s).halted = true ∧ (askHook fig s).faultCode = s.faultCode := by
  rcases askHook_cases fig s with call | ⟨cont, t, call, -, e⟩
  · exact call.keeps_fault hh
  · obtain ⟨ht, hf⟩ := call.keeps_fault hh
    rw [e, ← hf]
    exact gainDecide_keeps_fault cont ht

/-- Settles O36, by cases over what a transaction can do: one that writes the block's own fields does
so only when the block runs, or is `RESET`, or decides a search as a turn of the channels. -/
theorem haltedUntilReset : Obligations.HaltedUntilReset := by
  intro i s t hh hreset hexec
  rw [exec_eq_execAt] at hexec
  cases execTurn_of_execAt hexec with
  | reset arg => exact absurd rfl (hreset arg)
  | setSkip n hr => simp [hh] at hr
  | startSearch gains hr => simp [hh] at hr
  | deliver samples => rw [deliver_halted _ _ hh]; exact ⟨hh, rfl⟩
  | askHook fig => exact askHook_keeps_fault fig hh
  | host turn => exact turn.keeps_fault hh

end Sys2Proof.Machine

end

/-! The invariants of the block by the fields they read: an update of other fields keeps them
(spec/10_state.md R23 to R36). -/
section

namespace Sys2Proof.Safety

open Sys2Proof.Machine

variable {c : Cfg} {s t : State}

theorem FilterOk.congr (h : FilterOk c s) (hist : t.hist = s.hist) (phase : t.phase = s.phase) :
    FilterOk c t :=
  ⟨by rw [hist]; exact h.hist, by rw [phase]; exact h.phase⟩

theorem BufferOk.congr (h : BufferOk c s) (dbuf : t.dbuf = s.dbuf) (used : t.used = s.used)
    (lock : t.lock = s.lock) : BufferOk c t := by
  obtain ⟨capacity, width, noAcq, noSync⟩ := h
  constructor <;> simpa only [State.avail, occupancy, dbuf, used, lock]

theorem EstimatorOk.congr (h : EstimatorOk c s) (snrWin : t.snrWin = s.snrWin) :
    EstimatorOk c t := by
  obtain ⟨fill, width⟩ := h
  constructor <;> simpa only [State.snrFill, snrWin]

theorem ControllerOk.congr (h : ControllerOk s) (gainTab : t.gainTab = s.gainTab)
    (curIdx : t.curIdx = s.curIdx) (bestIdx : t.bestIdx = s.bestIdx)
    (remaining : t.remaining = s.remaining) : ControllerOk t := by
  obtain ⟨length, searching, committed, empty⟩ := h
  constructor <;> simpa only [State.gainLen, gainTab, curIdx, bestIdx, remaining]

theorem LockOk.congr (h : LockOk c s) (lock : t.lock = s.lock) (acqRun : t.acqRun = s.acqRun)
    (acqT : t.acqT = s.acqT) (track : t.track = s.track) (lossRun : t.lossRun = s.lossRun) :
    LockOk c t := by
  obtain ⟨hAcqRun, acquiring, hAcqT, hTrack, hLossRun⟩ := h
  constructor <;> simpa only [lock, acqRun, acqT, track, lossRun]

theorem FrameOk.congr (h : FrameOk c s) (frmBuf : t.frmBuf = s.frmBuf) (ctx : t.ctx = s.ctx)
    (lock : t.lock = s.lock) : FrameOk c t := by
  obtain ⟨fill, shape, run, unlocked⟩ := h
  constructor <;> simpa only [State.frmFill, frmBuf, ctx, lock]

theorem EstimatorOk.of_empty (h : s.snrWin = []) : EstimatorOk c s := by
  constructor <;> simp [State.snrFill, h]

/-- The ratio 0, with which every search begins (R147), is in range. -/
theorem zeroRatio_figure : (⟨0, 1⟩ : SnrT).S < 2 ^ 64 ∧ (⟨0, 1⟩ : SnrT).N < 2 ^ 64 := by decide

/-- The part of the invariants that a search and a turn of the channels can touch. -/
structure SearchOk (c : Cfg) (s : State) : Prop where
  estimator : EstimatorOk c s
  controller : ControllerOk s
  figure : s.bestSnr.S < 2 ^ 64 ∧ s.bestSnr.N < 2 ^ 64
  halted : s.halted = true ↔ s.faultCode.isSome = true

/-- The part of the invariants that every turn of the pump keeps. -/
structure PumpOk (c : Cfg) (s : State) : Prop where
  width : ∀ x ∈ s.dbuf, x.Fits c.wD
  lock : LockOk c s
  frame : FrameOk c s

theorem Inv.searchOk (h : Inv c s) : SearchOk c s :=
  ⟨h.estimator, h.controller, h.figure, h.halted⟩

theorem Inv.pumpOk (h : Inv c s) : PumpOk c s := ⟨h.buffer.width, h.lock, h.frame⟩

theorem Inv.of_parts (filter : FilterOk c s) (buffer : BufferOk c s) (search : SearchOk c s)
    (pump : PumpOk c s) : Inv c s :=
  ⟨filter, buffer, search.estimator, search.controller, pump.lock, pump.frame, search.figure,
    search.halted⟩

theorem SearchOk.congr (h : SearchOk c s) (snrWin : t.snrWin = s.snrWin)
    (gainTab : t.gainTab = s.gainTab) (curIdx : t.curIdx = s.curIdx)
    (bestIdx : t.bestIdx = s.bestIdx) (bestSnr : t.bestSnr = s.bestSnr)
    (remaining : t.remaining = s.remaining) (halted : t.halted = s.halted)
    (faultCode : t.faultCode = s.faultCode) : SearchOk c t :=
  ⟨h.estimator.congr snrWin, h.controller.congr gainTab curIdx bestIdx remaining,
    by rw [bestSnr]; exact h.figure, by rw [halted, faultCode]; exact h.halted⟩

theorem PumpOk.congr (h : PumpOk c s) (dbuf : t.dbuf = s.dbuf) (lock : t.lock = s.lock)
    (acqRun : t.acqRun = s.acqRun) (acqT : t.acqT = s.acqT) (ctx : t.ctx = s.ctx)
    (track : t.track = s.track) (lossRun : t.lossRun = s.lossRun) (frmBuf : t.frmBuf = s.frmBuf) :
    PumpOk c t :=
  ⟨by rw [dbuf]; exact h.width, h.lock.congr lock acqRun acqT track lossRun,
    h.frame.congr frmBuf ctx lock⟩

/-- `skip`, the counters and the channels are in no invariant. -/
theorem Inv.set_skip (h : Inv c s) (n : BitVec 28) : Inv c { s with skip := n } :=
  .of_parts (h.filter.congr rfl rfl) (h.buffer.congr rfl rfl rfl)
    (h.searchOk.congr rfl rfl rfl rfl rfl rfl rfl rfl)
    (h.pumpOk.congr rfl rfl rfl rfl rfl rfl rfl rfl)

theorem Inv.set_channels (h : Inv c s) (cmd ret : List Word) (n : Nat) (evt : List Word) :
    Inv c { s with cmd := cmd, ret := ret, retFree := n, evt := evt } :=
  .of_parts (h.filter.congr rfl rfl) (h.buffer.congr rfl rfl rfl)
    (h.searchOk.congr rfl rfl rfl rfl rfl rfl rfl rfl)
    (h.pumpOk.congr rfl rfl rfl rfl rfl rfl rfl rfl)

theorem zero_fits (n : Nat) : Sample.zero.Fits n := by
  have hpow : (0 : Int) < 2 ^ (n - 1) := by positivity
  have hfits : Fits n 0 := ⟨by omega, hpow⟩
  exact ⟨hfits, hfits⟩

theorem resetAt_filterOk (c : Cfg) : FilterOk c (State.resetAt c) where
  hist := ⟨List.length_replicate, fun _ hx => by rw [List.eq_of_mem_replicate hx]; exact zero_fits _⟩
  phase := c.m_range.1

theorem resetAt_bufferOk (c : Cfg) : BufferOk c (State.resetAt c) where
  capacity := Nat.zero_le _
  width := nofun
  noAcq _ := c.acqAdv_range.1.trans c.acqAdv_range.2
  noSync := nofun

theorem resetAt_searchOk (c : Cfg) : SearchOk c (State.resetAt c) where
  estimator := EstimatorOk.of_empty rfl
  controller := ⟨Nat.zero_le _, nofun, nofun, fun _ => ⟨rfl, rfl, rfl⟩⟩
  figure := zeroRatio_figure
  halted := ⟨nofun, nofun⟩

theorem resetAt_pumpOk (c : Cfg) : PumpOk c (State.resetAt c) where
  width := nofun
  lock :=
    ⟨c.acqSustain_range.1, ⟨nofun, fun h => absurd h.1 (Nat.lt_irrefl 0)⟩,
      c.acqAdv_range.1.trans c.acqAdv_range.2, ⟨fun _ => nofun, fun _ => rfl⟩,
      c.lossSustain_range.1⟩
  frame := ⟨c.symsPerFrame_range.1, nofun, nofun, fun _ => rfl⟩

/-- Settles O9: the stores are empty, the counts and indices 0, and every bound is positive. -/
theorem resetMeetsInvariant : Obligations.ResetMeetsInvariant := fun c =>
  .of_parts (resetAt_filterOk c) (resetAt_bufferOk c) (resetAt_searchOk c) (resetAt_pumpOk c)

theorem resetBlock_inv (c : Cfg) (s : State) : Inv c (resetBlock c s) :=
  (resetMeetsInvariant c).set_channels s.cmd s.ret s.retFree s.evt

end Sys2Proof.Safety

end

/-! The estimator and the controller keep their part of the invariants (spec/41_snr_gain.md R141 to
R151; spec/10_state.md R26 to R28). -/
section

namespace Sys2Proof.Safety

open Sys2Proof.Machine

variable {c : Cfg} {s t : State}

/-- A fault comes with its code, so a turn of the channels keeps R36 and all else. -/
theorem SearchOk.host (h : SearchOk c s) (turn : HostTurn s t) : SearchOk c t := by
  obtain ⟨ws, r, n, halted, code, rfl, -, keeps⟩ := turn
  exact ⟨h.estimator.congr rfl, h.controller.congr rfl rfl rfl rfl, h.figure, keeps h.halted⟩

theorem Inv.host (h : Inv c s) (turn : HostTurn s t) : Inv c t := by
  have hsearch := h.searchOk.host turn
  obtain ⟨ws, r, n, halted, code, rfl, -, -⟩ := turn
  exact .of_parts (h.filter.congr rfl rfl) (h.buffer.congr rfl rfl rfl) hsearch
    (h.pumpOk.congr rfl rfl rfl rfl rfl rfl rfl rfl)

/-- The controller's update by a commit during a search (R149). -/
theorem ControllerOk.commit (h : ControllerOk s) (hr : 0 < s.remaining) :
    ControllerOk { s with curIdx := s.bestIdx, remaining := 0 } := by
  obtain ⟨hlen, hcur, -, hbest⟩ := h.searching hr
  refine ⟨h.length, nofun, fun _ _ => ⟨rfl, hbest.trans_lt hcur⟩, fun hempty => ?_⟩
  exact absurd hempty (Nat.ne_of_gt hlen)

/-- The controller's update by an advance during a search (R150). -/
theorem ControllerOk.advance (h : ControllerOk s) (hr : 0 < s.remaining)
    (hnext : s.curIdx + 1 < s.gainLen) :
    ControllerOk { s with curIdx := s.curIdx + 1, remaining := s.remaining - 1 } := by
  obtain ⟨hlen, hcur, hrem, hbest⟩ := h.searching hr
  have hleft : s.remaining - 1 = s.gainLen - (s.curIdx + 1) := by omega
  refine ⟨h.length, fun _ => ⟨hlen, hnext, hleft, hbest.trans (Nat.le_succ _)⟩, fun hzero _ => ?_,
    fun hempty => absurd hempty (Nat.ne_of_gt hlen)⟩
  change s.remaining - 1 = 0 at hzero
  omega

theorem ControllerOk.startSearch {gains : List Word} (hg : gains.length ≤ gainMax) (s : State) :
    ControllerOk (Machine.startSearch gains s) where
  length := hg
  searching hr := ⟨hr, hr, rfl, Nat.le_refl 0⟩
  committed hzero hlen := by
    change gains.length = 0 at hzero
    change 1 ≤ gains.length at hlen
    omega
  empty hempty := ⟨hempty, rfl, rfl⟩

theorem gainDecide_searchOk (cont : Bool) (h : SearchOk c s) (hr : 0 < s.remaining) :
    SearchOk c (gainDecide cont s) := by
  rcases gainDecide_cases cont s with commit | ⟨hnext, advance⟩
  · have hmoved : SearchOk c { s with curIdx := s.bestIdx, remaining := 0 } :=
      ⟨h.estimator.congr rfl, h.controller.commit hr, h.figure, h.halted⟩
    exact hmoved.host commit
  · have hmoved : SearchOk c { s with curIdx := s.curIdx + 1, remaining := s.remaining - 1 } :=
      ⟨h.estimator.congr rfl, h.controller.advance hr hnext, h.figure, h.halted⟩
    exact hmoved.host advance

theorem askHook_searchOk (fig : SnrT) (h : SearchOk c s) : SearchOk c (askHook fig s) := by
  rcases askHook_cases fig s with call | ⟨cont, t, call, hr, e⟩
  · exact h.host call
  · rw [e]
    exact gainDecide_searchOk cont (h.host call) hr

theorem recordBest_remaining (fig : SnrT) (s : State) :
    (recordBest fig s).remaining = s.remaining := by
  unfold recordBest
  split <;> rfl

/-- Recording a figure during a search (R148). -/
theorem recordBest_searchOk {fig : SnrT} (hf : fig.S < 2 ^ 64 ∧ fig.N < 2 ^ 64) (h : SearchOk c s)
    (hr : 0 < s.remaining) : SearchOk c (recordBest fig s) := by
  unfold recordBest
  split
  · obtain ⟨hlen, hcur, hrem, -⟩ := h.controller.searching hr
    exact ⟨h.estimator.congr rfl,
      ⟨h.controller.length, fun _ => ⟨hlen, hcur, hrem, Nat.le_refl _⟩,
        fun hzero => absurd hzero hr.ne', fun hempty => absurd hempty (Nat.ne_of_gt hlen)⟩,
      hf, h.halted⟩
  · exact h

theorem gainStep_searchOk {fig : SnrT} (hf : fig.S < 2 ^ 64 ∧ fig.N < 2 ^ 64) (h : SearchOk c s) :
    SearchOk c (gainStep c fig s) := by
  unfold gainStep
  split
  · exact h
  · rename_i hr
    have hr' : 0 < s.remaining := Nat.pos_of_ne_zero hr
    have hrec := recordBest_searchOk hf h hr'
    split
    · exact askHook_searchOk fig hrec
    · exact gainDecide_searchOk _ hrec (by rwa [recordBest_remaining])

/-- The figure of a full window travels unclamped (R252). -/
theorem snrEstimate_figure {win : List Sample} (hw : IsWindow c.wD 64 win) :
    (snrEstimate c win).S < 2 ^ 64 ∧ (snrEstimate c win).N < 2 ^ 64 := by
  have hword : 2 ^ c.wP ≤ 2 ^ 64 := Nat.pow_le_pow_right (by decide) c.wP_le
  obtain ⟨hS, hN⟩ := snrEstimate_lt c hw
  exact ⟨hS.trans_le hword, hN.trans_le hword⟩

theorem forall_mem_concat_fits {w : Nat} {l : List Sample} {d : Sample} (hl : ∀ x ∈ l, x.Fits w)
    (hd : d.Fits w) : ∀ x ∈ l ++ [d], x.Fits w :=
  List.forall_mem_append.2 ⟨hl, List.forall_mem_singleton.2 hd⟩

theorem snrPush_searchOk {d : Sample} (hd : d.Fits c.wD) (h : SearchOk c s) :
    SearchOk c (snrPush c d s) := by
  have hwidth := forall_mem_concat_fits h.estimator.width hd
  have hfill : s.snrFill < 64 := h.estimator.fill
  unfold snrPush
  split
  · rename_i hfull
    have hlen : (s.snrWin ++ [d]).length = 64 := by
      rw [List.length_append]
      exact congrArg (· + 1) hfull
    exact gainStep_searchOk (snrEstimate_figure ⟨hlen, hwidth⟩)
      ⟨EstimatorOk.of_empty rfl, h.controller.congr rfl rfl rfl rfl, h.figure, h.halted⟩
  · rename_i hfull
    have hlen : (s.snrWin ++ [d]).length < 64 := by
      rw [List.length_append]
      exact Nat.lt_of_le_of_ne hfill fun heq => hfull (Nat.succ.inj heq)
    exact ⟨⟨hlen, hwidth⟩, h.controller.congr rfl rfl rfl rfl, h.figure, h.halted⟩

/-- A search writes neither the filter nor the buffer nor anything behind it (R144). -/
theorem Inv.search (h : Inv c s) (turn : SearchTurn s t) (hs : SearchOk c t) : Inv c t := by
  obtain ⟨w, ci, bi, bs, rm, ws, r, n, halted, code, -, rfl⟩ := turn
  exact .of_parts (h.filter.congr rfl rfl) (h.buffer.congr rfl rfl rfl) hs
    (h.pumpOk.congr rfl rfl rfl rfl rfl rfl rfl rfl)

theorem askHook_inv (fig : SnrT) (h : Inv c s) : Inv c (askHook fig s) :=
  h.search (askHook_search fig s) (askHook_searchOk fig h.searchOk)

theorem snrPush_inv {d : Sample} (hd : d.Fits c.wD) (h : Inv c s) : Inv c (snrPush c d s) :=
  h.search (snrPush_search c d s) (snrPush_searchOk hd h.searchOk)

theorem startSearch_inv {gains : List Word} (hg : gains.length ≤ gainMax) (h : Inv c s) :
    Inv c (startSearch gains s) :=
  .of_parts (h.filter.congr rfl rfl) (h.buffer.congr rfl rfl rfl)
    ⟨EstimatorOk.of_empty rfl, .startSearch hg s, zeroRatio_figure, h.halted⟩
    (h.pumpOk.congr rfl rfl rfl rfl rfl rfl rfl rfl)

end Sys2Proof.Safety

end

/-! The pump keeps its part of the invariants and comes to rest (spec/42_acquisition.md R171, R172;
spec/43_sync_demod.md R186 to R189; spec/44_frame.md R212; spec/46_orchestrator_host.md R246). -/
section

namespace Sys2Proof.Safety

open Sys2Proof.Machine

variable {c : Cfg} {s t : State}

theorem PumpOk.frmBuf_of_unlocked (h : PumpOk c s) (hl : s.lock ≠ .locked) : s.frmBuf = [] :=
  List.length_eq_zero_iff.1 (h.frame.unlocked hl)

theorem PumpOk.track_of_unlocked (h : PumpOk c s) (hl : s.lock ≠ .locked) : s.track = .none :=
  h.lock.track.2 hl

/-- Without lock the store is empty and stays so, whatever the context (R33). -/
theorem FrameOk.of_empty (hb : s.frmBuf = []) (run : s.lock = .locked → c.LockRun [] s.ctx) :
    FrameOk c s := by
  have hpos := c.symsPerFrame_range.1
  refine ⟨?_, ?_, ?_, ?_⟩ <;> simp only [State.frmFill, hb]
  · exact hpos
  · exact nofun
  · exact run
  · exact fun _ => rfl

theorem acqStep_lockOk (h : PumpOk c s) (hl : s.lock ≠ .locked) (ho : c.acqWin ≤ occupancy s) :
    LockOk c (acqStep c s) := by
  have hacqT := c.acqCorr_t _ (memRead_isWindow h.width ho)
  have htrack := h.track_of_unlocked hl
  have hsustain := c.acqSustain_range.1
  unfold acqStep
  dsimp only
  split
  · split
    · exact ⟨hsustain, ⟨nofun, fun h => absurd rfl h.2⟩, hacqT, ⟨nofun, fun h => absurd rfl h⟩,
        c.lossSustain_range.1⟩
    · rename_i hrun
      exact ⟨Nat.lt_of_not_le hrun, ⟨fun _ => ⟨Nat.succ_pos _, nofun⟩, fun _ => rfl⟩, hacqT,
        ⟨fun _ => nofun, fun _ => htrack⟩, h.lock.lossRun⟩
  · exact ⟨hsustain, ⟨nofun, fun h => absurd h.1 (Nat.lt_irrefl 0)⟩, h.lock.acqT,
      ⟨fun _ => nofun, fun _ => htrack⟩, h.lock.lossRun⟩

theorem acqStep_frameOk (h : PumpOk c s) (hl : s.lock ≠ .locked) (ho : c.acqWin ≤ occupancy s) :
    FrameOk c (acqStep c s) := by
  have hbuf := h.frmBuf_of_unlocked hl
  unfold acqStep
  dsimp only
  split
  · split
    · exact .of_empty hbuf fun _ => lockRun_open c (memRead_isWindow h.width ho)
    · exact .of_empty hbuf nofun
  · exact .of_empty hbuf nofun

theorem acqStep_pumpOk (h : PumpOk c s) (hl : s.lock ≠ .locked) (ho : c.acqWin ≤ occupancy s) :
    PumpOk c (acqStep c s) :=
  ⟨(acqStep_turns h.width hl ho).1.fits h.width, acqStep_lockOk h hl ho, acqStep_frameOk h hl ho⟩

theorem trackUpdate_lockOk (q : Int) (h : LockOk c s) (hl : s.lock = .locked) :
    LockOk c (trackUpdate c q s).2 := by
  obtain ⟨track, run, e, htrack, hrun⟩ := trackUpdate_frame c q s
  rw [e]
  exact ⟨h.acqRun, h.acquiring, h.acqT, ⟨fun h => absurd h htrack, fun h => absurd hl h⟩,
    hrun h.lossRun⟩

theorem syncLoss_lockOk (h : LockOk c s) : LockOk c (syncLoss s) :=
  ⟨c.acqSustain_range.1, ⟨nofun, fun h => absurd h.1 (Nat.lt_irrefl 0)⟩, h.acqT,
    ⟨fun _ => nofun, fun _ => rfl⟩, c.lossSustain_range.1⟩

theorem frameSymbol_lockOk (sym : Symbol) (pos : Option Nat) (h : LockOk c s) :
    LockOk c (frameSymbol c sym pos s) := by
  obtain ⟨b, ws, n, m, e, -⟩ := frameSymbol_frame c sym pos s
  rw [e]
  exact h.congr rfl rfl rfl rfl rfl

/-- The symbol that the tracker returns for a window goes into the store; `t` is the state of that
moment, with the store of `s` and the tracker's new context (R186, R212). -/
theorem frameSymbol_frameOk {w : List Sample} (h : FrameOk c s) (hl : s.lock = .locked)
    (hw : IsWindow c.wD c.symMax w) (hbuf : t.frmBuf = s.frmBuf)
    (hctx : t.ctx = (c.syncStep s.ctx w).ctx) (hlock : t.lock = .locked) :
    FrameOk c (frameSymbol c (c.syncStep s.ctx w).sym (c.syncStep s.ctx w).pos t) := by
  have hpos := c.symsPerFrame_range.1
  have hfill := h.fill
  have hsym := c.syncStep_sym s.ctx w hw
  obtain ⟨b, ws, n, m, e, hb⟩ :=
    frameSymbol_frame c (c.syncStep s.ctx w).sym (c.syncStep s.ctx w).pos t
  rw [e]
  simp only [State.frmFill, hbuf] at hb hfill
  refine ⟨?_, ?_, fun _ => ?_, fun hun => absurd hlock hun⟩
  · change b.length < c.symsPerFrame
    rcases hb with rfl | rfl | ⟨hne, ⟨rfl, -⟩ | ⟨rfl, -⟩⟩
    · exact hfill
    · exact hpos
    · rw [List.length_append] at hne ⊢
      exact Nat.lt_of_le_of_ne hfill hne
    · exact Nat.lt_of_le_of_ne hpos hne
  · change ∀ sym ∈ b, IsWindow c.wS c.scCount sym
    rcases hb with rfl | rfl | ⟨-, ⟨rfl, -⟩ | ⟨rfl, -⟩⟩
    · exact h.shape
    · exact nofun
    · exact List.forall_mem_append.2 ⟨h.shape, List.forall_mem_singleton.2 hsym⟩
    · exact List.forall_mem_singleton.2 hsym
  · change c.LockRun b t.ctx
    rw [hctx]
    exact lockRun_step (h.run hl) hw (hb.imp_right fun hb => hb.imp_right And.right)

theorem syncSymbol_lockOk (h : LockOk c s) (hl : s.lock = .locked) : LockOk c (syncSymbol c s) := by
  unfold syncSymbol
  dsimp only
  generalize c.syncStep s.ctx (memRead 0 c.symMax s) = o
  have hconsumed : LockOk c (consume o.adv { s with ctx := o.ctx }) := h.congr rfl rfl rfl rfl rfl
  have hupdate := trackUpdate_lockOk o.q hconsumed hl
  split
  · exact syncLoss_lockOk hupdate
  · exact frameSymbol_lockOk _ _ hupdate

theorem syncSymbol_frameOk (h : PumpOk c s) (hl : s.lock = .locked) (ho : c.symMax ≤ occupancy s) :
    FrameOk c (syncSymbol c s) := by
  unfold syncSymbol
  dsimp only
  split
  · exact .of_empty rfl nofun
  · obtain ⟨track, run, e, -, -⟩ :=
      trackUpdate_frame c (c.syncStep s.ctx (memRead 0 c.symMax s)).q
        (consume (c.syncStep s.ctx (memRead 0 c.symMax s)).adv
          { s with ctx := (c.syncStep s.ctx (memRead 0 c.symMax s)).ctx })
    rw [e]
    exact frameSymbol_frameOk h.frame hl (memRead_isWindow h.width ho) rfl rfl hl

theorem syncSymbol_pumpOk (h : PumpOk c s) (hl : s.lock = .locked) (ho : c.symMax ≤ occupancy s) :
    PumpOk c (syncSymbol c s) :=
  ⟨(syncSymbol_turns h.width hl ho).1.fits h.width, syncSymbol_lockOk h.lock hl,
    syncSymbol_frameOk h hl ho⟩

/-- What a turn of the pump runs, and when (R246). -/
theorem pumpTurn_some (h : pumpTurn c s = some t) :
    (s.lock ≠ .locked ∧ c.acqWin ≤ occupancy s ∧ t = acqStep c s) ∨
    (s.lock = .locked ∧ c.symMax ≤ occupancy s ∧ t = syncSymbol c s) := by
  unfold pumpTurn at h
  split at h
  · cases h
  · split at h
    · rename_i hacq
      cases h
      exact .inl ⟨hacq.1, hacq.2, rfl⟩
    · split at h
      · rename_i hsync
        cases h
        exact .inr ⟨hsync.1, hsync.2, rfl⟩
      · cases h

/-- Where the loop rests, no step is possible any more (R66, R246). -/
theorem pumpTurn_none (h : pumpTurn c s = none) (hr : s.halted = false) :
    (s.lock ≠ .locked → occupancy s < c.acqWin) ∧ (s.lock = .locked → occupancy s < c.symMax) := by
  unfold pumpTurn at h
  simp only [hr, Bool.false_eq_true, if_false] at h
  split at h
  · cases h
  · rename_i hacq
    split at h
    · cases h
    · rename_i hsync
      exact ⟨fun hl => Nat.lt_of_not_le fun ho => hacq ⟨hl, ho⟩,
        fun hl => Nat.lt_of_not_le fun ho => hsync ⟨hl, ho⟩⟩

theorem pumpTurn_pumpOk (h : PumpOk c s) (ht : pumpTurn c s = some t) : PumpOk c t := by
  rcases pumpTurn_some ht with ⟨hl, ho, rfl⟩ | ⟨hl, ho, rfl⟩
  · exact acqStep_pumpOk h hl ho
  · exact syncSymbol_pumpOk h hl ho

theorem pump_pumpOk (h : PumpOk c s) : PumpOk c (pump c s) :=
  pumpLoop_induct (fun _ _ _ hs ht => pumpTurn_pumpOk hs ht) _ s h.width h

/-- With more turns than its measure the loop ends where no turn is left (R246; log 9). -/
theorem pumpLoop_rests : ∀ (fuel : Nat) {s : State}, (∀ x ∈ s.dbuf, x.Fits c.wD) →
    pumpMeasure s < fuel → pumpTurn c (pumpLoop c fuel s) = none
  | 0, _, _, hfuel => absurd hfuel (Nat.not_lt_zero _)
  | fuel + 1, s, hw, hfuel => by
    unfold pumpLoop
    split
    · assumption
    · rename_i t ht
      obtain ⟨turns, hless⟩ := pumpTurn_turns hw ht
      exact pumpLoop_rests fuel (turns.fits hw) (by omega)

theorem pump_rests (hw : ∀ x ∈ s.dbuf, x.Fits c.wD) : pumpTurn c (pump c s) = none :=
  pumpLoop_rests _ hw (by unfold pumpMeasure; split <;> omega)

end Sys2Proof.Safety

end

/-! Every step keeps the invariants (spec/10_state.md R23 to R36, spec/20_memory.md R66): O10. -/
section

namespace Sys2Proof.Safety

open Sys2Proof.Machine

variable {c : Cfg} {s t : State}

/-! The filter. -/

theorem sext_fits {n : Nat} (hn : 1 ≤ n) (v : Int) : Fits n (sext n v) := by
  have hpow : (2 : Int) ^ n = 2 * 2 ^ (n - 1) := by
    rw [← pow_succ', Nat.sub_add_cancel hn]
  have hpos : 0 < 2 ^ n := Nat.two_pow_pos n
  have hlow := Int.le_bmod (x := v) hpos
  have hhigh := Int.bmod_lt (x := v) hpos
  unfold sext
  push_cast at hlow hhigh
  constructor <;> omega

theorem sampleOf_fits (c : Cfg) (w : Word) : (sampleOf c.wIn w).Fits c.wIn :=
  ⟨sext_fits c.wIn_range.1 _, sext_fits c.wIn_range.1 _⟩

theorem firOutput_fits (c : Cfg) (w : List Sample) : (firOutput c w).Fits c.wD :=
  ⟨c.qD_fits _, c.qD_fits _⟩

theorem take_cons_isWindow {w n : Nat} {x : Sample} {l : List Sample} (hx : x.Fits w)
    (hl : IsWindow w n l) : IsWindow w n ((x :: l).take n) := by
  obtain ⟨hlen, hfits⟩ := hl
  refine ⟨by simp [hlen], fun y hy => ?_⟩
  exact List.forall_mem_cons.2 ⟨hx, hfits⟩ y (List.mem_of_mem_take hy)

theorem decimPush_phase (h : s.phase < c.m) (x : Sample) : (decimPush c x s).2.phase < c.m := by
  unfold decimPush
  split
  · exact c.m_range.1
  · change s.phase + 1 < c.m
    omega

theorem decimPush_inv {x : Sample} (hx : x.Fits c.wIn) (h : Inv c s) : Inv c (decimPush c x s).2 := by
  have hphase := decimPush_phase h.filter.phase x
  obtain ⟨p, e⟩ := decimPush_frame c x s
  rw [e] at hphase ⊢
  exact .of_parts ⟨take_cons_isWindow hx h.filter.hist, hphase⟩ (h.buffer.congr rfl rfl rfl)
    (h.searchOk.congr rfl rfl rfl rfl rfl rfl rfl rfl)
    (h.pumpOk.congr rfl rfl rfl rfl rfl rfl rfl rfl)

/-! The buffer and its consumers. -/

theorem memWrite_pumpOk {d : Sample} (hd : d.Fits c.wD) (h : PumpOk c s) : PumpOk c (memWrite c d s) :=
  ⟨forall_mem_concat_fits h.width hd, h.lock.congr rfl rfl rfl rfl rfl, h.frame.congr rfl rfl rfl⟩

/-- Below what a step of the pump needs there is room for one more sample (R62, R66). -/
theorem BufferOk.occupancy_lt (h : BufferOk c s) : occupancy s < c.bufLen := by
  obtain ⟨hacq, hsym, -⟩ := c.bufLen_range
  by_cases hl : s.lock = .locked
  · exact (h.noSync hl).trans_le hsym
  · exact (h.noAcq hl).trans_le hacq

/-- Compaction keeps the buffer within its capacity (R62). -/
theorem memWrite_avail (d : Sample) (h : BufferOk c s) : (memWrite c d s).avail ≤ c.bufLen := by
  have hroom : s.dbuf.length < c.bufLen := h.occupancy_lt
  have hcap : s.used + s.dbuf.length ≤ c.bufLen := h.capacity
  unfold memWrite State.avail
  rw [List.length_append, List.length_singleton]
  dsimp only
  split <;> omega

/-- Consuming moves no sample (R64). -/
theorem avail_of_pumpTurns (turns : PumpTurns s t) : t.avail = s.avail := by
  obtain ⟨n, _, _, _, _, _, _, _, _, _, _, _, _, hn, rfl⟩ := turns
  simp only [State.avail, List.length_drop]
  omega

theorem halted_of_pumpTurns (turns : PumpTurns s t) : t.halted = s.halted := by
  obtain ⟨n, _, _, _, _, _, _, _, _, _, _, _, _, -, rfl⟩ := turns
  rfl

theorem Inv.pump_memWrite {d : Sample} (hd : d.Fits c.wD) (h : Inv c s) (hr : s.halted = false) :
    Inv c (pump c (memWrite c d s)) := by
  have hwritten := memWrite_pumpOk hd h.pumpOk
  have hpumped := pump_pumpOk hwritten
  have turns := pump_turns hwritten.width
  have hrest := pumpTurn_none (pump_rests hwritten.width) ((halted_of_pumpTurns turns).trans hr)
  have hcap := (avail_of_pumpTurns turns).trans_le (memWrite_avail d h.buffer)
  refine .of_parts ?_ ⟨hcap, hpumped.width, hrest.1, hrest.2⟩ ?_ hpumped
  all_goals
    obtain ⟨n, _, _, _, _, _, _, _, _, _, _, _, _, -, e⟩ := turns
    rw [e]
  · exact h.filter.congr rfl rfl
  · exact h.searchOk.congr rfl rfl rfl rfl rfl rfl rfl rfl

theorem route_inv {d : Sample} (hd : d.Fits c.wD) (h : Inv c s) (hr : s.halted = false) :
    Inv c (route c d s) := by
  unfold route
  split
  · exact snrPush_inv hd h
  · exact h.pump_memWrite hd hr

/-! The samples of a `DELIVER`, one after another. -/

theorem deliverOne_inv {x : Sample} (hx : x.Fits c.wIn) (h : Inv c s) : Inv c (deliverOne c s x) := by
  cases hr : s.halted with
  | true => rwa [deliverOne_halted c x hr]
  | false =>
    by_cases hs : 0 < s.skip
    · rw [deliverOne_skipped c x hr hs]
      exact h.set_skip _
    · have hs0 : s.skip = 0 := by bv_omega
      have hpushed := decimPush_inv hx h
      by_cases hp : s.phase = c.m - 1
      · have hrun : (decimPush c x s).2.halted = false := by
          obtain ⟨p, e⟩ := decimPush_frame c x s
          rw [e, hr]
        rw [deliverOne_routed c x hr hs0 hp]
        exact route_inv (firOutput_fits c _) hpushed hrun
      · rwa [deliverOne_filtered c x hr hs0 hp]

theorem deliver_inv {xs : List Sample} : ∀ {s : State}, (∀ x ∈ xs, x.Fits c.wIn) → Inv c s →
    Inv c (deliver c xs s) := by
  induction xs with
  | nil => exact fun _ h => h
  | cons x xs ih =>
    intro s hfits h
    obtain ⟨hx, hxs⟩ := List.forall_mem_cons.1 hfits
    rw [deliver_cons]
    exact ih hxs (deliverOne_inv hx h)

/-! Transactions and steps. -/

/-- A transaction keeps the invariants when its table, if it has one, has a length that the command
word can write (R98). -/
theorem execAt_inv {i : Instr} (hg : ∀ gains, i = .loadGainTable gains → gains.length ≤ gainMax)
    (h : Inv c s) (ht : execAt c i s = .next t) : Inv c t := by
  cases execTurn_of_execAt ht with
  | reset arg => exact resetBlock_inv c s
  | setSkip n => exact h.set_skip n
  | startSearch gains _ turn => exact (startSearch_inv (hg gains rfl) h).host turn
  | deliver samples =>
    exact deliver_inv (List.forall_mem_map.2 fun w _ => sampleOf_fits c w) h
  | askHook fig => exact askHook_inv fig h
  | host turn => exact h.host turn

/-- A gain table read from CMD has as many gains as the command word's low byte says (R92, R98). -/
theorem commandOf_gains {w : Word} {payload gains : List Word}
    (h : commandOf w payload = .loadGainTable gains) (hlen : payload.length = payloadLen w) :
    gains.length = (lowByte w).toNat := by
  unfold payloadLen at hlen
  unfold commandOf at h
  split at h
  case h_4 hop =>
    split at h
    · cases h
      rwa [hop] at hlen
    · cases h
  case h_6 => split at h <;> cases h
  all_goals cases h

/-- What a decoded command is made of: its first word and the payload that this word counts (R92). -/
theorem decode_cons_ok {w : Word} {ws rest : List Word} {i : Instr}
    (h : decode (w :: ws) = .ok (i, rest)) :
    ∃ payload, payload.length = payloadLen w ∧ commandOf w payload = i := by
  simp only [decode] at h
  split at h
  · cases h
  · rename_i payload left hsplit
    cases h
    exact ⟨payload, (splitWords_eq hsplit).1, rfl⟩

theorem decode_gains {ws gains rest : List Word} (h : decode ws = .ok (.loadGainTable gains, rest)) :
    gains.length ≤ gainMax := by
  cases ws with
  | nil => cases h
  | cons w ws =>
    obtain ⟨payload, hlen, hcommand⟩ := decode_cons_ok h
    rw [commandOf_gains hcommand hlen]
    exact Nat.le_of_lt_succ (lowByte w).isLt

theorem stepAt_inv (h : Inv c s) (ht : stepAt c s = .next t) : Inv c t := by
  cases hd : decode s.cmd with
  | error r =>
    rw [stepAt_of_fetch_error c (fetch_of_decode_error hd)] at ht
    cases ht
    exact h
  | ok p =>
    obtain ⟨i, rest⟩ := p
    rw [stepAt_of_fetch_ok c (fetch_of_decode_ok hd)] at ht
    refine execAt_inv (fun gains hi => ?_) (h.set_channels rest s.ret s.retFree s.evt) ht
    rw [hi] at hd
    exact decode_gains hd

/-- Settles O10: the filter, the search and the pump each keep their part of the invariants, and the
loop of the pump ends where no step of it is possible. What `RESET` gives `acq_t` rests on log 7. -/
theorem stepKeepsInvariant : Obligations.StepKeepsInvariant := by
  intro s t h ht
  rw [step_eq_stepAt] at ht
  exact stepAt_inv h ht

end Sys2Proof.Safety

end

/-! Proofs about how payload bytes stand in payload words (spec/20_memory.md R68, spec/30_encoding.md
R96): O34. -/
section

namespace Sys2Proof

/-- The word that the first four bytes of a list make, places past its end 0 (R68). -/
def packWord (bytes : List Byte) : Word :=
  bytes.getD 3 0 ++ bytes.getD 2 0 ++ bytes.getD 1 0 ++ bytes.getD 0 0

/-- `packBytes` packs four bytes at a time, a short last group like a padded one. -/
theorem packBytes_of_ne_nil : ∀ {bytes : List Byte}, bytes ≠ [] →
    packBytes bytes = packWord bytes :: packBytes (bytes.drop 4)
  | [], h => absurd rfl h
  | [_], _ => rfl
  | [_, _], _ => rfl
  | [_, _, _], _ => rfl
  | _ :: _ :: _ :: _ :: _, _ => rfl

theorem packBytes_getD (k : Nat) : ∀ (bytes : List Byte),
    (packBytes bytes).getD k 0 = packWord (bytes.drop (4 * k)) := by
  induction k with
  | zero =>
    intro bytes
    cases bytes with
    | nil => rfl
    | cons b bs => rw [packBytes_of_ne_nil (List.cons_ne_nil b bs)]; rfl
  | succ k ih =>
    intro bytes
    cases bytes with
    | nil => rw [List.drop_nil]; rfl
    | cons b bs =>
      rw [packBytes_of_ne_nil (List.cons_ne_nil b bs), List.getD_cons_succ, ih, List.drop_drop,
        Nat.mul_succ, Nat.add_comm]

/-- The four bytes of a word stand in it low byte first. -/
theorem packWord_extract (bytes : List Byte) {j : Nat} (hj : j < 4) :
    (packWord bytes).extractLsb' (8 * j) 8 = bytes.getD j 0 := by
  ext i hi
  unfold packWord
  interval_cases j <;> simp [BitVec.getElem_extractLsb'] <;> grind

/-- Settles O34: word `k` is made of the four bytes from `4 k` on. -/
theorem payloadBytesPackLowFirst : Obligations.PayloadBytesPackLowFirst := by
  intro bytes
  refine ⟨Laws.EncodedLength.packBytes_length bytes, fun k j hj => ?_⟩
  rw [packBytes_getD, packWord_extract _ hj]
  simp

end Sys2Proof

end

/-! EVT is only extended, by each operation and so by each transaction; no operation asks for a buffer
in range (spec/20_memory.md R76): O35. -/
section

namespace Sys2Proof.Machine

theorem HostTurn.evt_prefix {s t : State} (h : HostTurn s t) : s.evt <+: t.evt := by
  obtain ⟨ws, _, _, _, _, rfl, -, -⟩ := h
  exact ⟨ws, rfl⟩

theorem SearchTurn.evt_prefix {s t : State} (h : SearchTurn s t) : s.evt <+: t.evt := by
  obtain ⟨_, _, _, _, _, ws, _, _, _, _, -, rfl⟩ := h
  exact ⟨ws, rfl⟩

theorem acqStep_evt (c : Cfg) (s : State) : (acqStep c s).evt = s.evt := by
  unfold acqStep
  dsimp only
  split
  · split <;> rfl
  · rfl

theorem trackUpdate_evt (c : Cfg) (q : Int) (s : State) : (trackUpdate c q s).2.evt = s.evt := by
  obtain ⟨_, _, e, -, -⟩ := trackUpdate_frame c q s
  rw [e]

theorem frameSymbol_evt_prefix (c : Cfg) (sym : Symbol) (pos : Option Nat) (s : State) :
    s.evt <+: (frameSymbol c sym pos s).evt := by
  obtain ⟨_, ws, _, _, e, -⟩ := frameSymbol_frame c sym pos s
  rw [e]
  exact ⟨ws, rfl⟩

theorem syncSymbol_evt_prefix (c : Cfg) (s : State) : s.evt <+: (syncSymbol c s).evt := by
  unfold syncSymbol
  dsimp only
  generalize c.syncStep s.ctx (memRead 0 c.symMax s) = o
  have htrack := trackUpdate_evt c o.q (consume o.adv { s with ctx := o.ctx })
  generalize trackUpdate c o.q (consume o.adv { s with ctx := o.ctx }) = u at htrack ⊢
  change u.2.evt = s.evt at htrack
  rw [← htrack]
  split
  · exact List.prefix_refl u.2.evt
  · exact frameSymbol_evt_prefix c o.sym o.pos u.2

theorem pumpTurn_evt_prefix {c : Cfg} {s t : State} (h : pumpTurn c s = some t) :
    s.evt <+: t.evt := by
  rcases Safety.pumpTurn_some h with ⟨-, -, rfl⟩ | ⟨-, -, rfl⟩
  · rw [acqStep_evt]
  · exact syncSymbol_evt_prefix c s

theorem pumpLoop_evt_prefix (c : Cfg) (fuel : Nat) : ∀ (s : State),
    s.evt <+: (pumpLoop c fuel s).evt := by
  induction fuel with
  | zero => exact fun s => List.prefix_refl s.evt
  | succ fuel ih =>
    intro s
    unfold pumpLoop
    split
    · exact List.prefix_refl s.evt
    · rename_i t ht
      exact (pumpTurn_evt_prefix ht).trans (ih t)

theorem route_evt_prefix (c : Cfg) (d : Sample) (s : State) : s.evt <+: (route c d s).evt := by
  unfold route
  split
  · exact (snrPush_search c d s).evt_prefix
  · exact pumpLoop_evt_prefix c _ (memWrite c d s)

theorem decimPush_evt (c : Cfg) (x : Sample) (s : State) : (decimPush c x s).2.evt = s.evt := by
  obtain ⟨_, e⟩ := decimPush_frame c x s
  rw [e]

theorem deliverOne_evt_prefix (c : Cfg) (s : State) (x : Sample) :
    s.evt <+: (deliverOne c s x).evt := by
  cases hr : s.halted with
  | true => rw [deliverOne_halted c x hr]
  | false =>
    by_cases hs : 0 < s.skip
    · rw [deliverOne_skipped c x hr hs]
    · have hs0 : s.skip = 0 := by bv_omega
      rw [← decimPush_evt c x s]
      by_cases hp : s.phase = c.m - 1
      · rw [deliverOne_routed c x hr hs0 hp]
        exact route_evt_prefix c _ _
      · rw [deliverOne_filtered c x hr hs0 hp]

theorem deliver_evt_prefix (c : Cfg) (xs : List Sample) : ∀ (s : State),
    s.evt <+: (deliver c xs s).evt := by
  induction xs with
  | nil => exact fun s => List.prefix_refl s.evt
  | cons x xs ih =>
    intro s
    rw [deliver_cons]
    exact (deliverOne_evt_prefix c s x).trans (ih _)

theorem ExecTurn.evt_prefix {c : Cfg} {i : Instr} {s t : State} (h : ExecTurn c i s t) :
    s.evt <+: t.evt := by
  cases h with
  | reset arg => rw [resetBlock_evt]
  | setSkip n => exact List.prefix_refl s.evt
  | startSearch gains _ turn => exact turn.evt_prefix
  | deliver samples => exact deliver_evt_prefix c _ s
  | askHook fig => exact (askHook_search fig s).evt_prefix
  | host turn => exact turn.evt_prefix

/-- Settles O35, by cases over what a transaction can do. For `RESET` it rests on log 3: EVT stands in
the state and is kept. -/
theorem eventsAreOnlyAppended : Obligations.EventsAreOnlyAppended := by
  intro i s t hexec
  rw [exec_eq_execAt] at hexec
  obtain ⟨words, e⟩ := (execTurn_of_execAt hexec).evt_prefix
  exact ⟨words, e.symm⟩

end Sys2Proof.Machine

end

/-! The pump turn by turn: which step a turn runs, that the bound of the loop is never met, and what
the pump takes (spec/20_memory.md R64 to R66, spec/46_orchestrator_host.md R246): O54, O55. -/
section

namespace Sys2Proof.Safety

open Sys2Proof.Machine

variable {c : Cfg} {s t : State}

theorem pumpTurn_acq (hr : s.halted = false) (hl : s.lock ≠ .locked) (ho : c.acqWin ≤ occupancy s) :
    pumpTurn c s = some (acqStep c s) := by
  rw [pumpTurn, if_neg (by simp [hr]), if_pos ⟨hl, ho⟩]

theorem pumpTurn_sync (hr : s.halted = false) (hl : s.lock = .locked) (ho : c.symMax ≤ occupancy s) :
    pumpTurn c s = some (syncSymbol c s) := by
  rw [pumpTurn, if_neg (by simp [hr]), if_neg (fun h => h.1 hl), if_pos ⟨hl, ho⟩]

theorem pumpTurn_halted (hh : s.halted = true) : pumpTurn c s = none := by
  rw [pumpTurn, if_pos hh]

/-- Below the need of the step of its mode the pump rests (R66). -/
theorem pumpTurn_below (h : s.lock ≠ .locked ∧ occupancy s < c.acqWin ∨
    s.lock = .locked ∧ occupancy s < c.symMax) : pumpTurn c s = none := by
  rw [Option.eq_none_iff_forall_ne_some]
  intro t ht
  rcases pumpTurn_some ht with ⟨hl, ho, -⟩ | ⟨hl, ho, -⟩
  · rcases h with ⟨-, hlt⟩ | ⟨hlocked, -⟩
    · exact absurd ho (Nat.not_le_of_lt hlt)
    · exact hl hlocked
  · rcases h with ⟨hunlocked, -⟩ | ⟨-, hlt⟩
    · exact hunlocked hl
    · exact absurd ho (Nat.not_le_of_lt hlt)

theorem occupancy_lt_need (h : pumpTurn c s = none) (hr : s.halted = false) :
    occupancy s < c.need := by
  obtain ⟨hacq, hsync⟩ := pumpTurn_none h hr
  unfold Cfg.need
  rw [lt_max_iff]
  by_cases hl : s.lock = .locked
  · exact .inr (hsync hl)
  · exact .inl (hacq hl)

theorem pumpLoop_rest (fuel : Nat) (h : pumpTurn c s = none) : pumpLoop c fuel s = s := by
  cases fuel with
  | zero => rfl
  | succ fuel => simp only [pumpLoop, h]

theorem pumpLoop_turn (fuel : Nat) (h : pumpTurn c s = some t) :
    pumpLoop c (fuel + 1) s = pumpLoop c fuel t := by
  simp only [pumpLoop, h]

/-- Above the measure of a state the bound of the loop does not matter (log 9). -/
theorem pumpLoop_bound_irrel : ∀ (m n : Nat) {s : State}, (∀ x ∈ s.dbuf, x.Fits c.wD) →
    pumpMeasure s < m → pumpMeasure s < n → pumpLoop c m s = pumpLoop c n s
  | 0, _, _, _, hm, _ => absurd hm (Nat.not_lt_zero _)
  | _, 0, _, _, _, hn => absurd hn (Nat.not_lt_zero _)
  | m + 1, n + 1, s, hw, hm, hn => by
    cases h : pumpTurn c s with
    | none => rw [pumpLoop_rest _ h, pumpLoop_rest _ h]
    | some t =>
      obtain ⟨turns, hless⟩ := pumpTurn_turns hw h
      rw [pumpLoop_turn m h, pumpLoop_turn n h]
      exact pumpLoop_bound_irrel m n (turns.fits hw) (by omega) (by omega)

theorem pumpMeasure_lt (s : State) : pumpMeasure s < 2 * occupancy s + 2 := by
  unfold pumpMeasure
  split <;> omega

theorem pump_turn (hw : ∀ x ∈ s.dbuf, x.Fits c.wD) (h : pumpTurn c s = some t) :
    pump c s = pump c t := by
  obtain ⟨turns, hless⟩ := pumpTurn_turns hw h
  have hs := pumpMeasure_lt s
  calc pump c s = pumpLoop c (2 * occupancy s + 1) t := pumpLoop_turn _ h
    _ = pump c t := pumpLoop_bound_irrel _ _ (turns.fits hw) (by omega) (pumpMeasure_lt t)

/-- Settles O54: a turn by cases over mode and occupancy, the loop by its measure. -/
theorem pumpRunsToRest : Obligations.PumpRunsToRest := by
  refine ⟨fun c s => ⟨pumpTurn_acq, pumpTurn_sync, ?_⟩,
    fun c s hw => ⟨pumpLoop_rest _, fun t => pump_turn hw, pump_rests hw, fun hr => ?_⟩⟩
  · rintro (hh | below)
    · exact pumpTurn_halted hh
    · exact pumpTurn_below below
  · exact occupancy_lt_need (pump_rests hw) ((halted_of_pumpTurns (pump_turns hw)).trans hr)

/-- Settles O55: all that the pump does to the buffer is to take samples from its front. -/
theorem pumpConsumesInOrder : Obligations.PumpConsumesInOrder := by
  intro c s hw
  obtain ⟨n, _, _, _, _, _, _, _, _, _, _, _, _, hn, e⟩ := pump_turns hw
  rw [e]
  exact ⟨n, hn, rfl, rfl⟩

end Sys2Proof.Safety

end

/-! Proofs about the command words of CMD: what a first word and its payload decode to, and that
decoding and encoding agree (spec/30_encoding.md R91, R92, R98 to R102): O1, O3, O4, O5. -/
section

namespace Sys2Proof

open Sys2Proof.Machine Sys2Proof.Laws

/-! A word is put together again from its fields (R91, R98). -/

theorem opField_append_argField (w : Word) : opField w ++ argField w = w := by
  ext i hi
  simp [opField, argField]
  grind

theorem opField_append_mbzField_append_lowByte (w : Word) :
    opField w ++ mbzField w ++ lowByte w = w := by
  ext i hi
  simp [opField, mbzField, lowByte]
  grind

/-! What the decoder takes from CMD, by how many words follow the first one (R92, R104). -/

theorem splitWords_short : ∀ {n : Nat} {ws : List Word}, ws.length < n → splitWords n ws = none
  | _ + 1, [], _ => rfl
  | n + 1, w :: ws, h => by
    rw [splitWords, splitWords_short (Nat.lt_of_succ_lt_succ h)]

theorem decode_of_payload {w : Word} {payload : List Word} (rest : List Word)
    (h : payload.length = payloadLen w) :
    decode (w :: (payload ++ rest)) = .ok (commandOf w payload, rest) := by
  rw [decode, ← h, splitWords_append]

theorem decode_of_short {w : Word} {ws : List Word} (h : ws.length < payloadLen w) :
    decode (w :: ws) = .error .shortPayload := by
  rw [decode, splitWords_short h]

/-- What `decode` answers is made of the first word and as many words as that word counts. -/
theorem decode_eq_ok {ws rest : List Word} {i : Instr} (h : decode ws = .ok (i, rest)) :
    ∃ w payload, ws = w :: (payload ++ rest) ∧ payload.length = payloadLen w ∧
      i = commandOf w payload := by
  cases ws with
  | nil => cases h
  | cons w ws =>
    cases hs : splitWords (payloadLen w) ws with
    | none => rw [decode, hs] at h; cases h
    | some p =>
      obtain ⟨payload, left⟩ := p
      rw [decode, hs] at h
      cases h
      obtain ⟨hlen, hws⟩ := splitWords_eq hs
      exact ⟨w, payload, by rw [hws], hlen, rfl⟩

theorem payloadLen_eq (w : Word) : payloadLen w =
    if opField w = 4 then (argField w).toNat else if opField w = 3 then (lowByte w).toNat else 0 := by
  unfold payloadLen
  split
  case h_1 hop => rw [hop]; rfl
  case h_2 hop => rw [hop]; rfl
  case h_3 h3 h4 => exact ((if_neg h4).trans (if_neg h3)).symm

/-- Settles O4: the length by cases over the opcode, the rest by how many words follow the first. -/
theorem everyCommandWordDecodes : Obligations.EveryCommandWordDecodes :=
  ⟨payloadLen_eq, fun _ _ rest h => decode_of_payload rest h, fun _ _ h => decode_of_short h⟩

/-! From a command to its words and back (R98 to R100). -/

theorem encodedLength (i : Instr) : EncodedLength.Statement i := by
  cases i with
  | nop arg => exact EncodedLength.nop arg
  | reset arg => exact EncodedLength.reset arg
  | setSkip n => exact EncodedLength.setSkip n
  | loadGainTable gains => exact EncodedLength.loadGainTable gains
  | loadGainTableBad mbz payload => exact EncodedLength.loadGainTableBad mbz payload
  | deliver samples => exact EncodedLength.deliver samples
  | readReg index => exact EncodedLength.readReg index
  | readRegBad mbz index => exact EncodedLength.readRegBad mbz index
  | reserved6 arg => exact EncodedLength.reserved6 arg
  | reserved7 arg => exact EncodedLength.reserved7 arg
  | reserved8 arg => exact EncodedLength.reserved8 arg
  | reserved9 arg => exact EncodedLength.reserved9 arg
  | reservedA arg => exact EncodedLength.reservedA arg
  | reservedB arg => exact EncodedLength.reservedB arg
  | reservedC arg => exact EncodedLength.reservedC arg
  | reservedD arg => exact EncodedLength.reservedD arg
  | reservedE arg => exact EncodedLength.reservedE arg
  | reservedF arg => exact EncodedLength.reservedF arg
  | applyGain value => exact EncodedLength.applyGain value
  | resetBuffering => exact EncodedLength.resetBuffering
  | onSnr fig => exact EncodedLength.onSnr fig
  | pushPdu chanId bytes => exact EncodedLength.pushPdu chanId bytes
  | pushAncillary bytes => exact EncodedLength.pushAncillary bytes
  | regValue index value => exact EncodedLength.regValue index value
  | fault code => exact EncodedLength.fault code

/-- A command's first word and payload stand for the command. -/
theorem commandOf_encode {i : Instr} {w : Word} {payload : List Word} (hc : i.isCommand = true)
    (hw : i.WellFormed = true) (h : encode i = w :: payload) : commandOf w payload = i := by
  cases i with
  | nop arg | reset arg | setSkip arg | deliver arg | reserved6 arg | reserved7 arg | reserved8 arg
  | reserved9 arg | reservedA arg | reservedB arg | reservedC arg | reservedD arg | reservedE arg
  | reservedF arg =>
    obtain ⟨rfl, rfl⟩ := List.cons.inj h
    rw [commandOf, opField_arg, argField_arg]
    rfl
  | loadGainTable gains =>
    obtain ⟨rfl, rfl⟩ := List.cons.inj h
    simp only [commandOf, opField_byte, mbzField_byte]
    rfl
  | readReg index =>
    obtain ⟨rfl, rfl⟩ := List.cons.inj h
    simp only [commandOf, opField_byte, mbzField_byte, lowByte_byte]
    rfl
  | loadGainTableBad mbz payload =>
    obtain ⟨rfl, rfl⟩ := List.cons.inj h
    obtain ⟨hmbz, -⟩ := Bool.and_eq_true_iff.1 hw
    simp only [commandOf, opField_byte, mbzField_byte, if_neg (of_decide_eq_true hmbz)]
  | readRegBad mbz index =>
    obtain ⟨rfl, rfl⟩ := List.cons.inj h
    simp only [commandOf, opField_byte, mbzField_byte, lowByte_byte, if_neg (of_decide_eq_true hw)]
  | applyGain | resetBuffering | onSnr | pushPdu | pushAncillary | regValue | fault => cases hc

/-- Settles O1: the first word counts the payload, and both together stand for the command. -/
theorem commandsDecodeBack : Obligations.CommandsDecodeBack := by
  intro i rest hc hw
  obtain ⟨w, payload, he, hlen⟩ := encodedLength i hw
  rw [if_pos hc] at hlen
  rw [he, List.cons_append, decode_of_payload rest hlen, commandOf_encode hc hw he]

/-! From words to a command and back: no bit of a word is dropped (R98 to R100). -/

theorem append_argField {w : Word} {o : BitVec 4} (hop : opField w = o) : o ++ argField w = w := by
  rw [← hop, opField_append_argField]

theorem append_lowByte {w : Word} {o : BitVec 4} {m : BitVec 20} (hop : opField w = o)
    (hm : mbzField w = m) : o ++ m ++ lowByte w = w := by
  rw [← hop, ← hm, opField_append_mbzField_append_lowByte]

theorem payloadLen_of_opField {w : Word} {o : BitVec 4} (hop : opField w = o) (h3 : o ≠ 3#4)
    (h4 : o ≠ 4#4) : payloadLen w = 0 := by
  rw [← append_argField hop]
  exact EncodedLength.payloadLen_arg h3 h4

/-- A first word with the payload it counts stands for a command that is written as these words. -/
theorem encode_commandOf {w : Word} {payload : List Word} (h : payload.length = payloadLen w) :
    (commandOf w payload).isCommand = true ∧ (commandOf w payload).WellFormed = true ∧
      encode (commandOf w payload) = w :: payload := by
  have single {o : BitVec 4} (hop : opField w = o) (h3 : o ≠ 3#4) (h4 : o ≠ 4#4) : payload = [] :=
    List.length_eq_zero_iff.1 (h.trans (payloadLen_of_opField hop h3 h4))
  unfold commandOf
  split
  case h_1 hop | h_2 hop | h_3 hop | h_7 hop | h_8 hop | h_9 hop | h_10 hop | h_11 hop | h_12 hop
      | h_13 hop | h_14 hop | h_15 hop =>
    obtain rfl := single hop (by decide) (by decide)
    exact ⟨rfl, rfl, congrArg (fun word => [word]) (append_argField hop)⟩
  case h_4 hop =>
    have hcount : payload.length = (lowByte w).toNat := by rw [h, payloadLen_eq, hop]; rfl
    have hword : BitVec.ofNat 8 payload.length = lowByte w := by rw [hcount, BitVec.ofNat_toNat]; rfl
    have hlt : payload.length < 2 ^ 8 := hcount ▸ (lowByte w).isLt
    split
    case isTrue hm =>
      exact ⟨rfl, decide_eq_true hlt,
        by rw [encode, hword]; exact congrArg (· :: payload) (append_lowByte hop hm)⟩
    case isFalse hm =>
      exact ⟨rfl, Bool.and_eq_true_iff.2 ⟨decide_eq_true hm, decide_eq_true hlt⟩,
        by rw [encode, hword, append_lowByte hop rfl]⟩
  case h_5 hop =>
    have hcount : payload.length = (argField w).toNat := by rw [h, payloadLen_eq, hop]; rfl
    have hword : BitVec.ofNat 28 payload.length = argField w := by rw [hcount, BitVec.ofNat_toNat]; rfl
    exact ⟨rfl, decide_eq_true (hcount ▸ (argField w).isLt),
      by rw [encode, hword, append_argField hop]⟩
  case h_6 hop =>
    obtain rfl := single hop (by decide) (by decide)
    split
    case isTrue hm => exact ⟨rfl, rfl, congrArg (fun word => [word]) (append_lowByte hop hm)⟩
    case isFalse hm =>
      exact ⟨rfl, decide_eq_true hm, congrArg (fun word => [word]) (append_lowByte hop rfl)⟩
  case h_16 =>
    have hop : opField w = 15#4 := by
      simp only [imp_false] at *
      bv_omega
    obtain rfl := single hop (by decide) (by decide)
    exact ⟨rfl, rfl, congrArg (fun word => [word]) (append_argField hop)⟩

/-- Settles O3: a decoded command is what its first word and its payload stand for. -/
theorem decodedCommandsEncodeBack : Obligations.DecodedCommandsEncodeBack := by
  intro ws rest i h
  obtain ⟨w, payload, rfl, hlen, rfl⟩ := decode_eq_ok h
  obtain ⟨hc, hw, he⟩ := encode_commandOf hlen
  exact ⟨hc, hw, by rw [he, List.cons_append]⟩

/-- Settles O5, by evaluation: the decoder agrees with words written out from the opcode map. -/
theorem writtenWordsDecode : Obligations.WrittenWordsDecode :=
  ⟨by decide, by decide, by decide, by decide, by decide, by decide, by decide, by decide, by decide⟩

end Sys2Proof

end

/-! Proofs about the event words of EVT (spec/30_encoding.md R95, R96, R98; spec/20_memory.md R68,
R69): O2. -/
section

namespace Sys2Proof

open Sys2Proof.Machine

/-! Payload bytes are read back from payload words (R68). -/

theorem unpackBytes_packWord (bytes : List Byte) (ws : List Word) :
    unpackBytes (packWord bytes :: ws) =
      bytes.getD 0 0 :: bytes.getD 1 0 :: bytes.getD 2 0 :: bytes.getD 3 0 :: unpackBytes ws := by
  have extract {j : Nat} (hj : j < 4) := packWord_extract bytes hj
  rw [unpackBytes, ← extract (j := 0) (by decide), ← extract (j := 1) (by decide),
    ← extract (j := 2) (by decide), ← extract (j := 3) (by decide)]

/-- The length tells the bytes from the padding of the last word (R68). -/
theorem take_unpackBytes_packBytes : ∀ (bytes : List Byte),
    (unpackBytes (packBytes bytes)).take bytes.length = bytes
  | [] => rfl
  | [b0] => by rw [packBytes_of_ne_nil (List.cons_ne_nil _ _), unpackBytes_packWord]; rfl
  | [b0, b1] => by rw [packBytes_of_ne_nil (List.cons_ne_nil _ _), unpackBytes_packWord]; rfl
  | [b0, b1, b2] => by rw [packBytes_of_ne_nil (List.cons_ne_nil _ _), unpackBytes_packWord]; rfl
  | b0 :: b1 :: b2 :: b3 :: bytes => by
    rw [packBytes_of_ne_nil (List.cons_ne_nil _ _), unpackBytes_packWord]
    exact congrArg (b0 :: b1 :: b2 :: b3 :: ·) (take_unpackBytes_packBytes bytes)

theorem powerWords_of_lt {n : Nat} (h : n < 2 ^ 64) :
    (hiWord (usat64 n) ++ loWord (usat64 n)).toNat = n := by
  rw [powerWords_toNat, min_eq_left (Nat.le_sub_one_of_lt h)]

theorem lenField_ofNat (o : BitVec 4) (c : BitVec 12) {n : Nat} (h : n < 2 ^ 16) :
    (lenField (o ++ c ++ BitVec.ofNat 16 n)).toNat = n := by
  rw [lenField_len, BitVec.toNat_ofNat, Nat.mod_eq_of_lt h]

/-- A payload event's bytes, read back from its header and its payload words (R96). -/
theorem payloadBytes_read (o : BitVec 4) (c : BitVec 12) {bytes : List Byte}
    (h : bytes.length < 2 ^ 16) :
    (unpackBytes (packBytes bytes)).take
      (lenField (o ++ c ++ BitVec.ofNat 16 bytes.length)).toNat = bytes := by
  rw [lenField_ofNat o c h, take_unpackBytes_packBytes]

/-- An event's header and payload stand for the event. -/
theorem eventOf_encode {i : Instr} {w : Word} {payload : List Word} (hc : i.isCommand = false)
    (hw : i.WellFormed = true) (h : encode i = w :: payload) : eventOf w payload = .ok i := by
  cases i with
  | applyGain value =>
    obtain ⟨rfl, rfl⟩ := List.cons.inj h
    rfl
  | resetBuffering =>
    obtain ⟨rfl, rfl⟩ := List.cons.inj h
    rfl
  | onSnr fig =>
    obtain ⟨rfl, rfl⟩ := List.cons.inj h
    obtain ⟨hS, hN⟩ := Bool.and_eq_true_iff.1 hw
    unfold eventOf
    rw [opField_arg, argField_arg]
    simp only [powerWords_of_lt (of_decide_eq_true hS), powerWords_of_lt (of_decide_eq_true hN)]
    rfl
  | pushPdu chanId bytes =>
    obtain ⟨rfl, rfl⟩ := List.cons.inj h
    unfold eventOf
    rw [opField_len, chanField_len]
    simp only [payloadBytes_read _ _ (of_decide_eq_true hw)]
  | pushAncillary bytes =>
    obtain ⟨rfl, rfl⟩ := List.cons.inj h
    unfold eventOf
    rw [opField_len, chanField_len]
    simp only [payloadBytes_read _ _ (of_decide_eq_true hw)]
    rfl
  | regValue index value =>
    obtain ⟨rfl, rfl⟩ := List.cons.inj h
    unfold eventOf
    rw [opField_byte, mbzField_byte, lowByte_byte]
    rfl
  | fault code =>
    obtain ⟨rfl, rfl⟩ := List.cons.inj h
    cases code <;> rfl
  | nop | reset | setSkip | loadGainTable | loadGainTableBad | deliver | readReg | readRegBad
  | reserved6 | reserved7 | reserved8 | reserved9 | reservedA | reservedB | reservedC | reservedD
  | reservedE | reservedF => cases hc

/-- What is read from EVT, when the header counts the payload and both stand for an event (R96). -/
theorem decodeEvent_of_payload {w : Word} {payload : List Word} {i : Instr} (rest : List Word)
    (hlen : payload.length = eventPayloadLen w) (hi : eventOf w payload = .ok i) :
    decodeEvent (w :: (payload ++ rest)) = .ok (i, rest) := by
  rw [decodeEvent, ← hlen, splitWords_append]
  simp only [hi]

/-- Settles O2: the header counts the payload, and both together stand for the event. -/
theorem eventsDecodeBack : Obligations.EventsDecodeBack := by
  intro i rest hc hw
  obtain ⟨w, payload, he, hlen⟩ := encodedLength i hw
  rw [if_neg (by rw [hc]; exact Bool.false_ne_true)] at hlen
  rw [he, List.cons_append]
  exact decodeEvent_of_payload rest hlen (eventOf_encode hc hw he)

end Sys2Proof

end

/-! Proofs about the two illegal forms of a command word and the reserved opcodes
(spec/30_encoding.md R99, R100; spec/60_exceptions.md R276, R282): O17, O18. -/
section

namespace Sys2Proof.Machine

/-- `Fatal(CFG)` in a running block, with the word that is posted written out (R256, R282). -/
theorem raiseFatal_cfg {s : State} (h : s.halted = false) : raiseFatal .cfg s =
    { s with halted := true, faultCode := some .cfg, evt := s.evt ++ [0x70000002] } :=
  raiseFatal_running .cfg h

/-- Settles O17: both forms raise `Fatal(CFG)`. -/
theorem badFieldTakesConfigFault : Obligations.BadFieldTakesConfigFault := by
  intro mbz payload index s h
  have hcfg := congrArg (Host.Outcome.next (φ := Fault) (ρ := Refusal)) (raiseFatal_cfg h)
  exact ⟨hcfg, hcfg⟩

/-- Settles O18: each of the ten opcodes raises `Fatal(CFG)`. -/
theorem reservedOpcodesTakeConfigFault : Obligations.ReservedOpcodesTakeConfigFault := by
  intro arg s h
  have hcfg := congrArg (Host.Outcome.next (φ := Fault) (ρ := Refusal)) (raiseFatal_cfg h)
  exact ⟨hcfg, hcfg, hcfg, hcfg, hcfg, hcfg, hcfg, hcfg, hcfg, hcfg⟩

end Sys2Proof.Machine

end

/-! Proofs about the sample word (spec/30_encoding.md R93): O37. -/
section

namespace Sys2Proof.Machine

theorem sext_eq_toInt (v : BitVec 16) : sext 16 v.toNat = v.toInt :=
  (BitVec.toInt_eq_toNat_bmod v).symm

/-- Sign extension keeps a value's low bits (R14). -/
theorem sext_emod (n : Nat) (v : Int) : sext n v % 2 ^ n = v % 2 ^ n := by
  have h := Int.bmod_emod (x := v) (m := 2 ^ n)
  push_cast at h
  exact h

/-- Of a field of 16 bits the low `n` bits are those of the number it is cut from. -/
theorem field_emod {n : Nat} (hn : n ≤ 16) (v : Nat) :
    ((v % 2 ^ 16 : Nat) : Int) % 2 ^ n = (v : Int) % 2 ^ n := by
  exact_mod_cast Nat.mod_mod_of_dvd v (Nat.pow_dvd_pow 2 hn)

theorem sampleOf_i_emod {n : Nat} (hn : n ≤ 16) (w : Word) :
    (sampleOf n w).i % 2 ^ n = (w.toNat : Int) % 2 ^ n := by
  rw [sampleOf, sext_emod, BitVec.extractLsb'_toNat, Nat.shiftRight_zero, field_emod hn]

theorem sampleOf_q_emod {n : Nat} (hn : n ≤ 16) (w : Word) :
    (sampleOf n w).q % 2 ^ n = ((w.toNat / 2 ^ 16 : Nat) : Int) % 2 ^ n := by
  rw [sampleOf, sext_emod, BitVec.extractLsb'_toNat, Nat.shiftRight_eq_div_pow, field_emod hn]

/-- Settles O37: range and congruence, the two laws of sign extension, on each half. -/
theorem sampleWordAssembly : Obligations.SampleWordAssembly := by
  refine ⟨fun w => ?_, fun n w hpos hn =>
    ⟨⟨Safety.sext_fits hpos _, Safety.sext_fits hpos _⟩, sampleOf_i_emod hn w, sampleOf_q_emod hn w⟩⟩
  rw [sampleOf, sext_eq_toInt, sext_eq_toInt]

end Sys2Proof.Machine

end

/-! Proofs about a complete frame and its payload regions (spec/44_frame.md R212 to R217,
spec/45_decode.md R226 to R231, spec/60_exceptions.md R287): O58. -/
section

namespace Sys2Proof.Machine

open Sys2Proof.Safety

/-! Counting several errors at once (R287). -/

/-- `count(c)` on a counter of 32 bits, `k` times over (R35, R287). -/
def countUpBy (k : Nat) (n : BitVec 32) : BitVec 32 :=
  BitVec.ofNat 32 (min (n.toNat + k) (2 ^ 32 - 1))

theorem countUpBy_zero (n : BitVec 32) : countUpBy 0 n = n := by
  unfold countUpBy
  bv_omega

theorem countUpBy_succ (k : Nat) (n : BitVec 32) : countUpBy (k + 1) n = countUpBy k (countUp n) := by
  unfold countUpBy
  rw [countUp_toNat]
  congr 1
  omega

/-! The regions of a frame, one after another (R215, R226). -/

/-- The words that a region puts on EVT: its payload's event by the region's kind, if the payload
passes (R230, R231). -/
def regionWords (c : Cfg) (r : Region) : List Word :=
  match decodePayload c r with
  | none => []
  | some payload =>
    match r.kind with
    | .pdu => encode (.pushPdu r.chanId payload)
    | .ancillary => encode (.pushAncillary payload)

theorem regionWords_passed {c : Cfg} {r : Region} {payload : List Byte}
    (h : decodePayload c r = some payload) : regionWords c r = encode (dispatchEvent r payload) := by
  simp only [regionWords, h, dispatchEvent]
  cases r.kind with
  | pdu => rfl
  | ancillary => rfl

theorem regionWords_failed {c : Cfg} {r : Region} (h : decodePayload c r = none) :
    regionWords c r = [] := by
  simp only [regionWords, h]

/-- How many of the regions have a payload that does not pass (R231). -/
def badRegions (c : Cfg) (rs : List Region) : Nat :=
  (rs.filter fun r => (decodePayload c r).isNone).length

theorem decRegion_passed {c : Cfg} {r : Region} {payload : List Byte} (s : State)
    (h : decodePayload c r = some payload) :
    decRegion c s r = { s with evt := s.evt ++ regionWords c r } := by
  simp only [decRegion, h, regionWords_passed h]
  rfl

theorem decRegion_failed {c : Cfg} {r : Region} (s : State) (h : decodePayload c r = none) :
    decRegion c s r = { s with payloadErrCnt := countUp s.payloadErrCnt } := by
  simp only [decRegion, h]

/-- The regions in order: the payloads that pass are posted, the others counted. -/
theorem decRegions_eq (c : Cfg) (rs : List Region) : ∀ (s : State), rs.foldl (decRegion c) s =
    { s with
      payloadErrCnt := countUpBy (badRegions c rs) s.payloadErrCnt
      evt := s.evt ++ rs.flatMap (regionWords c) } := by
  induction rs with
  | nil =>
    intro s
    simp [badRegions, countUpBy_zero]
  | cons r rs ih =>
    intro s
    rw [List.foldl_cons, ih]
    cases h : decodePayload c r with
    | none => simp [decRegion_failed s h, badRegions, regionWords_failed h, h, countUpBy_succ]
    | some payload => simp [decRegion_passed s h, badRegions, h]

/-! A complete frame, by its check (R213, R217). -/

theorem frameComplete_failed {c : Cfg} {s : State} (h : c.frameCheck s.frmBuf = false) :
    frameComplete c s = { s with frmBuf := [], frameErrCnt := countUp s.frameErrCnt } := by
  simp [frameComplete, h]

theorem frameComplete_passed {c : Cfg} {s : State} (h : c.frameCheck s.frmBuf = true) :
    frameComplete c s = { s with
      frmBuf := []
      payloadErrCnt := countUpBy (badRegions c (c.frameSplit s.frmBuf)) s.payloadErrCnt
      evt := s.evt ++ (c.frameSplit s.frmBuf).flatMap (regionWords c) } := by
  simp [frameComplete, h, decRegions_eq]

theorem frameComplete_frmBuf (c : Cfg) (s : State) : (frameComplete c s).frmBuf = [] := by
  obtain ⟨_, _, _, e⟩ := frameComplete_frame c s
  rw [e]

/-- An uncorrupted frame passes (R217; P-FRAME, log 13). -/
theorem frameCheck_clean {c : Cfg} {F : List Symbol} (h : c.cleanFrame F = true) :
    c.frameCheck F = true :=
  (c.pFrame F h).1

/-- An uncorrupted frame with one structural bit corrupted fails (R217; P-FRAME, log 13). -/
theorem frameCheck_flipBit {c : Cfg} {F : List Symbol} {b : Nat} (h : c.cleanFrame F = true)
    (hb : b < c.structBits) : c.frameCheck (c.flipBit b F) = false :=
  (c.pFrame F h).2 b hb

/-- A payload of a frame that occurs is not longer than `MAX_PDU_LEN` (R96; log 1). -/
theorem payload_length_le {c : Cfg} {F : List Symbol} {r : Region} {payload : List Byte}
    (hF : c.FrameOccurs F) (hcheck : c.frameCheck F = true) (hr : r ∈ c.frameSplit F)
    (hp : decodePayload c r = some payload) : payload.length ≤ c.maxPduLen := by
  obtain ⟨hlen, ctx, run⟩ := hF
  exact c.payload_len F ctx run hlen hcheck r hr payload hp

theorem dispatchEvent_wellFormed {r : Region} {payload : List Byte} (h : payload.length < 2 ^ 16) :
    (dispatchEvent r payload).WellFormed = true := by
  unfold dispatchEvent
  split
  · exact decide_eq_true h
  · exact decide_eq_true h

/-! Symbols in order (R212). -/

theorem frameStore_full {c : Cfg} {syms : List Symbol} (s : State)
    (h : syms.length = c.symsPerFrame) :
    frameStore c syms s = frameComplete c { s with frmBuf := syms } :=
  if_pos h

theorem frameStore_partial {c : Cfg} {syms : List Symbol} (s : State)
    (h : syms.length ≠ c.symsPerFrame) : frameStore c syms s = { s with frmBuf := syms } :=
  if_neg h

theorem frameSymbol_next (c : Cfg) (sym : Symbol) (s : State) :
    frameSymbol c sym (some s.frmFill) s = frameStore c (s.frmBuf ++ [sym]) s :=
  if_pos rfl

theorem frameSymbol_restart (c : Cfg) (sym : Symbol) {s : State} (h : 0 ≠ s.frmFill) :
    frameSymbol c sym (some 0) s = frameStore c [sym] s :=
  (if_neg h).trans (if_pos rfl)

theorem frameSymbol_gap (c : Cfg) (sym : Symbol) {p : Nat} {s : State} (h : p ≠ s.frmFill)
    (h0 : p ≠ 0) : frameSymbol c sym (some p) s = { s with frmBuf := [] } :=
  (if_neg h).trans (if_neg h0)

/-- `FRAME.SYMBOL` on a store with room: either the symbol is the next and last one and completes the
frame, or the store is left with fewer symbols than a frame has and nothing else happens (R212). -/
theorem frameSymbol_cases {c : Cfg} {s : State} (sym : Symbol) (pos : Option Nat)
    (h : s.frmFill < c.symsPerFrame) :
    ((pos = some s.frmFill ∧ s.frmFill + 1 = c.symsPerFrame) ∧
      frameSymbol c sym pos s = frameComplete c { s with frmBuf := s.frmBuf ++ [sym] }) ∨
    (¬(pos = some s.frmFill ∧ s.frmFill + 1 = c.symsPerFrame) ∧
      ∃ buf : List Symbol, buf.length < c.symsPerFrame ∧
        frameSymbol c sym pos s = { s with frmBuf := buf }) := by
  cases pos with
  | none => exact .inr ⟨nofun, s.frmBuf, h, rfl⟩
  | some p =>
    rw [Option.some_inj]
    by_cases hp : p = s.frmFill
    · subst hp
      have hlen : (s.frmBuf ++ [sym]).length = s.frmFill + 1 := List.length_append
      rw [frameSymbol_next]
      by_cases hlast : s.frmFill + 1 = c.symsPerFrame
      · exact .inl ⟨⟨rfl, hlast⟩, frameStore_full s (hlen.trans hlast)⟩
      · exact .inr ⟨fun hh => hlast hh.2, _, by omega, frameStore_partial s (hlen.trans_ne hlast)⟩
    · refine .inr ⟨fun hh => hp hh.1, ?_⟩
      by_cases hzero : p = 0
      · subst hzero
        have hone : [sym].length < c.symsPerFrame := by rw [List.length_singleton]; omega
        exact ⟨[sym], hone, (frameSymbol_restart c sym hp).trans (frameStore_partial s hone.ne)⟩
      · exact ⟨[], Nat.zero_lt_of_lt h, frameSymbol_gap c sym hp hzero⟩

/-- A stream of symbols counts no frame error when all frames it completes are uncorrupted (R217). -/
theorem frameStream_frameErrCnt {c : Cfg} : ∀ (syms : List (Symbol × Option Nat)) {s : State},
    s.frmFill < c.symsPerFrame → (∀ F ∈ (frameStream c syms s).1, c.cleanFrame F = true) →
    (frameStream c syms s).2.frameErrCnt = s.frameErrCnt
  | [], _, _, _ => rfl
  | (sym, pos) :: syms, s, hfill, hclean => by
    rw [frameStream] at hclean ⊢
    dsimp only at hclean ⊢
    rcases frameSymbol_cases sym pos hfill with ⟨hlast, e⟩ | ⟨hlast, buf, hbuf, e⟩
    · rw [if_pos hlast, List.forall_mem_cons] at hclean
      obtain ⟨hF, hrest⟩ := hclean
      have hempty : (frameSymbol c sym pos s).frmFill < c.symsPerFrame := by
        rw [e, State.frmFill, frameComplete_frmBuf]
        exact Nat.zero_lt_of_lt hfill
      rw [frameStream_frameErrCnt syms hempty hrest, e, frameComplete_passed (frameCheck_clean hF)]
    · rw [if_neg hlast] at hclean
      have hroom : (frameSymbol c sym pos s).frmFill < c.symsPerFrame := by rwa [e]
      rw [frameStream_frameErrCnt syms hroom hclean, e]

/-- Settles O58: a frame that fails is counted, one that passes has its regions decoded in order, and
P-FRAME says which is which for an uncorrupted frame and one with a structural bit corrupted. -/
theorem completeFrameDispatchesRegions : Obligations.CompleteFrameDispatchesRegions := by
  refine ⟨fun c s => ⟨frameComplete_failed, frameComplete_passed,
    fun h => frameComplete_passed (frameCheck_clean h), fun F b hF hb hflip => ?_,
    fun hF hcheck r hr p hp => ?_⟩, fun c syms s => frameStream_frameErrCnt syms⟩
  · exact frameComplete_failed (hflip ▸ frameCheck_flipBit hF hb)
  · have hlen := payload_length_le hF hcheck hr hp
    have hmax := c.maxPduLen_le
    exact ⟨hlen, dispatchEvent_wellFormed (by omega)⟩

end Sys2Proof.Machine

end

/-! Proofs about the Decimation Filter's stream (spec/40_decimation.md R121 to R130): O38, O39, O40. -/
section

namespace Sys2Proof.Machine

open Sys2Proof.Safety

/-! One push, by the place of its sample in the group of `M` (R121). -/

@[simp] theorem decimPush_hist (c : Cfg) (x : Sample) (s : State) :
    (decimPush c x s).2.hist = (x :: s.hist).take (c.nTaps - 1) := by
  obtain ⟨p, e⟩ := decimPush_frame c x s
  rw [e]

theorem decimPush_last {c : Cfg} {s : State} (x : Sample) (h : s.phase = c.m - 1) :
    (decimPush c x s).1 = some (firOutput c (x :: s.hist)) ∧ (decimPush c x s).2.phase = 0 := by
  rw [decimPush, if_pos h]
  exact ⟨rfl, rfl⟩

theorem decimPush_inner {c : Cfg} {s : State} (x : Sample) (h : s.phase ≠ c.m - 1) :
    (decimPush c x s).1 = none ∧ (decimPush c x s).2.phase = s.phase + 1 := by
  rw [decimPush, if_neg h]
  exact ⟨rfl, rfl⟩

/-! A run of pushes. -/

theorem decimate_cons (c : Cfg) (x : Sample) (xs : List Sample) (s : State) :
    decimate c (x :: xs) s = ((decimPush c x s).1.toList ++ (decimate c xs (decimPush c x s).2).1,
      (decimate c xs (decimPush c x s).2).2) := rfl

/-- Where a raw stream is cut does not matter (R126). -/
theorem decimate_append (c : Cfg) (ys : List Sample) : ∀ (xs : List Sample) (s : State),
    decimate c (xs ++ ys) s = ((decimate c xs s).1 ++ (decimate c ys (decimate c xs s).2).1,
      (decimate c ys (decimate c xs s).2).2)
  | [], _ => rfl
  | x :: xs, s => by
    simp only [List.cons_append, decimate_cons, decimate_append c ys xs, List.append_assoc]

/-- The last push of a stream, after those before it. -/
theorem decimate_concat (c : Cfg) (xs : List Sample) (x : Sample) (s : State) :
    decimate c (xs ++ [x]) s = ((decimate c xs s).1 ++ (decimPush c x (decimate c xs s).2).1.toList,
      (decimPush c x (decimate c xs s).2).2) := by
  rw [decimate_append, decimate_cons, decimate, List.append_nil]

/-- The count law from any state: the samples of the group in progress count too (R129). -/
theorem decimate_count {c : Cfg} : ∀ (xs : List Sample) {s : State}, s.phase < c.m →
    (decimate c xs s).1.length = (s.phase + xs.length) / c.m ∧
    (decimate c xs s).2.phase = (s.phase + xs.length) % c.m
  | [], s, h => ⟨(Nat.div_eq_of_lt h).symm, (Nat.mod_eq_of_lt h).symm⟩
  | x :: xs, s, h => by
    obtain ⟨hlen, hphase⟩ := decimate_count xs (decimPush_phase h x)
    rw [decimate_cons]
    by_cases hlast : s.phase = c.m - 1
    · obtain ⟨hout, hzero⟩ := decimPush_last x hlast
      have hgroup : s.phase + (x :: xs).length = xs.length + c.m := by
        rw [List.length_cons]; omega
      rw [hzero, Nat.zero_add] at hlen hphase
      rw [hgroup, Nat.add_div_right _ (Nat.zero_lt_of_lt h), Nat.add_mod_right, hout, ← hlen]
      exact ⟨List.length_append.trans (Nat.add_comm _ _), hphase⟩
    · obtain ⟨hout, hnext⟩ := decimPush_inner x hlast
      rw [hnext, Nat.add_assoc, Nat.add_comm 1] at hlen hphase
      rw [hout]
      exact ⟨hlen, hphase⟩

/-- Settles O38: the count law at phase 0. -/
theorem decimationCountLaw : Obligations.DecimationCountLaw := by
  intro c xs
  have h := decimate_count xs (s := State.resetAt c) c.m_range.1
  rwa [show (State.resetAt c).phase = 0 from rfl, Nat.zero_add] at h

/-! The filter's window is the newest `N_TAPS` samples of the stream, zeros before its start. -/

/-- The raw samples since reset, newest first, then the zeros of the reset history (R47). -/
def newestFirst (c : Cfg) (xs : List Sample) : List Sample :=
  xs.reverse ++ List.replicate (c.nTaps - 1) Sample.zero

theorem newestFirst_concat (c : Cfg) (xs : List Sample) (x : Sample) :
    newestFirst c (xs ++ [x]) = x :: newestFirst c xs := by
  rw [newestFirst, List.reverse_concat]
  rfl

theorem decimate_hist (c : Cfg) (xs : List Sample) :
    (decimate c xs (State.resetAt c)).2.hist = (newestFirst c xs).take (c.nTaps - 1) := by
  induction xs using List.reverseRecOn with
  | nil => exact (List.take_of_length_le List.length_replicate.le).symm
  | append_singleton xs x ih =>
    rw [decimate_concat, decimPush_hist, ih, newestFirst_concat]
    cases c.nTaps - 1 with
    | zero => rfl
    | succ n => rw [List.take_succ_cons, List.take_succ_cons, List.take_take, Nat.min_eq_left n.le_succ]

/-- The window of the push after `xs` (R121). -/
theorem decimate_window (c : Cfg) (xs : List Sample) (x : Sample) :
    x :: (decimate c xs (State.resetAt c)).2.hist = (newestFirst c (xs ++ [x])).take c.nTaps := by
  rw [decimate_hist, newestFirst_concat, ← List.take_succ_cons, Nat.sub_add_cancel c.nTaps_pos]

/-- Tap `k` of the window is the raw sample received `k` samples ago (R121, R122). -/
theorem newestFirst_getD (c : Cfg) (xs : List Sample) (x : Sample) (k : Nat) :
    (newestFirst c (xs ++ [x])).getD k Sample.zero = rawAt (xs ++ [x]) xs.length k := by
  have hlen : (xs ++ [x]).length = xs.length + 1 := List.length_append
  have hrev := (List.length_reverse (as := xs ++ [x])).trans hlen
  unfold newestFirst rawAt
  split
  next hk =>
    rw [List.getD_append _ _ _ _ (by omega), List.getD_reverse _ (by omega), hlen,
      Nat.add_sub_cancel]
  next hk =>
    rw [List.getD_append_right _ _ _ _ (by omega), List.getD_eq_getElem?_getD,
      List.getElem?_getD_replicate_default_eq]

/-! The sums. -/

/-- The accumulator as a sum over the coefficients' indices; a missing sample counts as 0. -/
theorem firSum_eq_sum : ∀ (h xs : List Int),
    firSum h xs = ∑ k ∈ Finset.range h.length, h.getD k 0 * xs.getD k 0
  | [], _ => rfl
  | _ :: _, [] => by simp [firSum]
  | a :: h, b :: xs => by
    rw [List.length_cons, Finset.sum_range_succ', Int.add_comm]
    exact congrArg (a * b + ·) (firSum_eq_sum h xs)

/-- The accumulator of the push after `xs` is the direct sum at its position (R122). -/
theorem firSum_window (c : Cfg) (xs : List Sample) (x : Sample) {part : Sample → Int}
    (hzero : part Sample.zero = 0) :
    firSum c.h (((newestFirst c (xs ++ [x])).take c.nTaps).map part) =
      directSum c (xs ++ [x]) xs.length part := by
  rw [firSum_eq_sum, c.h_shape.1]
  refine Finset.sum_congr rfl fun k hk => ?_
  have htap : ((newestFirst c (xs ++ [x])).take c.nTaps).getD k Sample.zero =
      rawAt (xs ++ [x]) xs.length k := by
    rw [← newestFirst_getD c, List.getD_eq_getElem?_getD,
      List.getElem?_take_of_lt (Finset.mem_range.mp hk), List.getD_eq_getElem?_getD]
  rw [← hzero, List.getD_map, htap]

/-- What the last sample of a group gives is the stream law's output at its position (R122). -/
theorem firOutput_window (c : Cfg) (xs : List Sample) (x : Sample) {m : Nat}
    (hm : m * c.m + c.m - 1 = xs.length) :
    firOutput c (x :: (decimate c xs (State.resetAt c)).2.hist) = streamOutput c (xs ++ [x]) m := by
  rw [decimate_window, firOutput, streamOutput, firSum_window c xs x rfl, firSum_window c xs x rfl, hm]

theorem rawAt_append {xs : List Sample} (ys : List Sample) {n : Nat} (hn : n < xs.length) (k : Nat) :
    rawAt (xs ++ ys) n k = rawAt xs n k := by
  unfold rawAt
  split
  · exact List.getD_append _ _ _ _ (by omega)
  · rfl

/-- An output of a group that is complete does not depend on later samples. -/
theorem streamOutput_append (c : Cfg) {xs : List Sample} (ys : List Sample) {m : Nat}
    (hm : m < xs.length / c.m) : streamOutput c (xs ++ ys) m = streamOutput c xs m := by
  have hpos : 0 < c.m := c.m_range.1
  have hgroup : (m + 1) * c.m ≤ xs.length := (Nat.le_div_iff_mul_le hpos).mp hm
  rw [Nat.succ_mul] at hgroup
  have hlast : m * c.m + c.m - 1 < xs.length := by omega
  simp only [streamOutput, directSum, rawAt_append ys hlast]

/-- Settles O39, by induction on the stream from its end: the last push makes an output when it ends
a group, and by then its window is the newest samples of the stream. -/
theorem decimationStreamLaw : Obligations.DecimationStreamLaw := by
  intro c xs
  induction xs using List.reverseRecOn with
  | nil => rw [List.length_nil, Nat.zero_div]; rfl
  | append_singleton xs x ih =>
    obtain ⟨hlen, hphase⟩ := decimationCountLaw c xs
    have hcount := (decimationCountLaw c (xs ++ [x])).1
    have hold : (List.range (xs.length / c.m)).map (streamOutput c (xs ++ [x])) =
        (decimate c xs (State.resetAt c)).1 := by
      rw [ih]
      exact List.map_congr_left fun m hm => streamOutput_append c [x] (List.mem_range.mp hm)
    rw [decimate_concat, List.length_append, hlen] at hcount
    rw [decimate_concat, ← hcount, ← hold]
    by_cases hlast : (decimate c xs (State.resetAt c)).2.phase = c.m - 1
    · have hposition : xs.length / c.m * c.m + c.m - 1 = xs.length := by
        rw [Nat.add_sub_assoc c.m_range.1, ← hlast, hphase, Nat.div_add_mod']
      rw [(decimPush_last x hlast).1, firOutput_window c xs x hposition, Option.toList_some,
        List.length_singleton, List.range_succ, List.map_append, List.map_singleton]
    · rw [(decimPush_inner x hlast).1, Option.toList_none, List.append_nil, List.length_nil,
        Nat.add_zero]

/-! The polyphase form (R123). -/

/-- A sum over `n * m` indices, by the `m` residues of the index. -/
theorem sum_range_mul_eq (f : Nat → Int) (m : Nat) : ∀ n : Nat,
    ∑ k ∈ Finset.range (n * m), f k =
      ∑ p ∈ Finset.range m, ∑ j ∈ Finset.range n, f (j * m + p)
  | 0 => by simp
  | n + 1 => by
    rw [Nat.succ_mul, Finset.sum_range_add, sum_range_mul_eq f m n, ← Finset.sum_add_distrib]
    exact Finset.sum_congr rfl fun p _ => (Finset.sum_range_succ _ n).symm

/-- `x[m * M + M - 1 - (j * M + p)] = u_p[m - j]`, before the stream's start too (R123). -/
theorem rawAt_branch (xs : List Sample) {M p : Nat} (m j : Nat) (hp : p < M) :
    rawAt xs (m * M + M - 1) (j * M + p) =
      if j ≤ m then rawAt xs ((m - j) * M + M - 1) p else Sample.zero := by
  split
  next hj =>
    obtain ⟨d, rfl⟩ := Nat.exists_eq_add_of_le hj
    rw [Nat.add_sub_cancel_left, Nat.add_mul, rawAt, rawAt, if_pos (by omega), if_pos (by omega)]
    congr 1
    omega
  next hj =>
    have hstart : (m + 1) * M ≤ j * M := Nat.mul_le_mul_right M (Nat.lt_of_not_le hj)
    rw [Nat.succ_mul] at hstart
    rw [rawAt, if_neg (by omega)]

/-- The direct sum may run on past the last coefficient: the missing ones are 0. -/
theorem directSum_eq_sum_range (c : Cfg) (xs : List Sample) (n : Nat) (part : Sample → Int) {b : Nat}
    (hb : c.nTaps ≤ b) :
    directSum c xs n part = ∑ k ∈ Finset.range b, c.h.getD k 0 * part (rawAt xs n k) := by
  refine Finset.sum_subset (Finset.range_subset_range.mpr hb) fun k _ hk => ?_
  have hpast : c.h.length ≤ k := c.h_shape.1.trans_le (Nat.le_of_not_lt (Finset.mem_range.not.mp hk))
  rw [List.getD_eq_default _ _ hpast, Int.zero_mul]

/-- Settles O40, by re-indexing the direct sum with `k = j * M + p`. -/
theorem polyphaseEqualsDirectForm : Obligations.PolyphaseEqualsDirectForm := by
  intro c xs m part _
  rw [directSum_eq_sum_range c xs _ part (Nat.le_mul_of_pos_right c.nTaps c.m_range.1),
    sum_range_mul_eq]
  refine Finset.sum_congr rfl fun p hp => Finset.sum_congr rfl fun j _ => ?_
  rw [rawAt_branch xs m j (Finset.mem_range.mp hp)]

end Sys2Proof.Machine

end

/-! The calls of the gain operations, by the answers they get, and what `LOAD_GAIN_TABLE`, a commit and an
advance make of them (spec/41_snr_gain.md R147, R149, R150; spec/60_exceptions.md R275, R281): O14, O15,
O16, O44. -/
section

namespace Sys2Proof.Machine

section Calls

variable {s : State} {a b : Word} {rest : List Word}

/-- `Fatal(SRC)` in a running block, with the word that is posted written out (R256, R282). -/
theorem raiseFatal_src (hr : s.halted = false) : raiseFatal .src s =
    { s with halted := true, faultCode := some .src, evt := s.evt ++ [0x70000001] } :=
  raiseFatal_running .src hr

/-- The raise after a call that was answered with `err` (R249, R275). -/
theorem raiseFatal_call (e : Instr) (hr : s.halted = false) (hret : s.ret = a :: rest) :
    raiseFatal .src (call e s).2 =
      { s with halted := true, faultCode := some .src, ret := rest,
               evt := s.evt ++ (encode e ++ [0x70000001]) } := by
  rw [call_cons e hret, ← List.append_assoc]
  exact raiseFatal_src (s := { s with evt := s.evt ++ encode e, ret := rest }) hr

/-! One call and its answer (R249). -/

theorem callOrFail_of_ok (e : Instr) (hret : s.ret = a :: rest) (ha : retErr a = false) :
    callOrFail e s = { s with ret := rest, evt := s.evt ++ encode e } := by
  simp only [callOrFail, call_cons e hret, ha, Bool.false_eq_true, if_false]

theorem callOrFail_of_err (e : Instr) (hr : s.halted = false) (hret : s.ret = a :: rest)
    (ha : retErr a = true) : callOrFail e s =
      { s with halted := true, faultCode := some .src, ret := rest,
               evt := s.evt ++ (encode e ++ [0x70000001]) } := by
  have hanswer : (call e s).1 = a := by rw [call_cons e hret]
  rw [callOrFail, hanswer, if_pos ha, raiseFatal_call e hr hret]

/-! The pair of calls of the gain operations (R250, R251): the answer to the first decides whether the
second is made (R281). -/

theorem applyGainThenReset_of_ok (g : Word) (hret : s.ret = a :: rest) (ha : retErr a = false) :
    applyGainThenReset g s =
      callOrFail .resetBuffering { s with ret := rest, evt := s.evt ++ [0x10000000, g] } := by
  simp only [applyGainThenReset, call_cons _ hret, ha, Bool.false_eq_true, if_false]
  rfl

theorem applyGainThenReset_of_err (g : Word) (hr : s.halted = false) (hret : s.ret = a :: rest)
    (ha : retErr a = true) : applyGainThenReset g s =
      { s with halted := true, faultCode := some .src, ret := rest,
               evt := s.evt ++ [0x10000000, g, 0x70000001] } := by
  have hanswer : (call (.applyGain g) s).1 = a := by rw [call_cons _ hret]
  rw [applyGainThenReset, hanswer, if_pos ha, raiseFatal_call _ hr hret]
  rfl

theorem applyGainThenReset_of_ok_ok (g : Word) (hret : s.ret = a :: b :: rest)
    (ha : retErr a = false) (hb : retErr b = false) : applyGainThenReset g s =
      { s with ret := rest, evt := s.evt ++ [0x10000000, g, 0x20000000] } := by
  rw [applyGainThenReset_of_ok g hret ha, callOrFail_of_ok _ rfl hb, List.append_assoc]
  rfl

theorem applyGainThenReset_of_ok_err (g : Word) (hr : s.halted = false)
    (hret : s.ret = a :: b :: rest) (ha : retErr a = false) (hb : retErr b = true) :
    applyGainThenReset g s =
      { s with halted := true, faultCode := some .src, ret := rest,
               evt := s.evt ++ [0x10000000, g, 0x20000000, 0x70000001] } := by
  have hsecond := callOrFail_of_err
    (s := { s with ret := b :: rest, evt := s.evt ++ [0x10000000, g] }) .resetBuffering hr rfl hb
  rw [applyGainThenReset_of_ok g hret ha, hsecond, List.append_assoc]
  rfl

end Calls

/-! `LOAD_GAIN_TABLE` in a running block (R147). -/

theorem exec_loadGainTable_nil {s : State} (hr : s.halted = false) :
    exec (.loadGainTable []) s = .next (startSearch [] s) := by
  change Host.Outcome.next (loadGains [] s) = _
  rw [loadGains, if_neg (by simp [hr])]

theorem exec_loadGainTable_cons (g : Word) (gs : List Word) {s : State} (hr : s.halted = false) :
    exec (.loadGainTable (g :: gs)) s =
      .next (applyGainThenReset g (startSearch (g :: gs) s)) := by
  change Host.Outcome.next (loadGains (g :: gs) s) = _
  rw [loadGains, if_neg (by simp [hr])]

/-- Settles O14: the search starts and both calls are answered without `err`. -/
theorem loadGainTableStartsSearch : Obligations.LoadGainTableStartsSearch := by
  intro g gs s a b rest hr hret ha hb
  rw [exec_loadGainTable_cons g gs hr,
    applyGainThenReset_of_ok_ok (s := startSearch (g :: gs) s) g hret ha hb]
  rfl

/-- Settles O15: the search starts, and the first or the second call is answered with `err`. -/
theorem loadGainTableSourceFault : Obligations.LoadGainTableSourceFault := by
  intro g gs s a b rest hr
  rw [exec_loadGainTable_cons g gs hr]
  refine ⟨fun hret ha => ?_, fun hret ha hb => ?_⟩
  · rw [applyGainThenReset_of_err (s := startSearch (g :: gs) s) g hr hret ha]
    rfl
  · rw [applyGainThenReset_of_ok_err (s := startSearch (g :: gs) s) g hr hret ha hb]
    rfl

theorem mode_decode {s : State} (hr : s.halted = false) (hrem : s.remaining = 0) :
    mode s = .decode := by
  simp [mode, hr, hrem]

/-- Settles O16: the search over no gain is over at once. -/
theorem emptyGainTableSearchesNothing : Obligations.EmptyGainTableSearchesNothing :=
  fun s hr => ⟨startSearch [] s, exec_loadGainTable_nil hr, mode_decode hr rfl, rfl⟩

/-! A commit and an advance as the pair of calls on the moved state (R149, R150). -/

theorem gainAt_of_lt {s : State} {i : Nat} (h : i < s.gainTab.length) :
    gainAt s i = s.gainTab[i] :=
  List.getD_eq_getElem _ _ h

/-- The commit when the best candidate is in force already (R149). -/
theorem gainCommit_same {s : State} (h : s.bestIdx = s.curIdx) :
    gainCommit s = { s with remaining := 0 } := by
  simp [gainCommit, h]

theorem gainCommit_other {s : State} (h : s.bestIdx ≠ s.curIdx) (hi : s.bestIdx < s.gainTab.length) :
    gainCommit s =
      applyGainThenReset s.gainTab[s.bestIdx] { s with curIdx := s.bestIdx, remaining := 0 } := by
  rw [gainCommit, if_pos h, gainAt_of_lt hi]

theorem gainAdvance_eq {s : State} (hi : s.curIdx + 1 < s.gainTab.length) :
    gainAdvance s = applyGainThenReset s.gainTab[s.curIdx + 1]
      { s with curIdx := s.curIdx + 1, remaining := s.remaining - 1 } := by
  rw [gainAdvance, gainAt_of_lt hi]

/-- Settles O44: commit and advance make the same pair of calls, each from its own moved state. -/
theorem commitAppliesBestGain : Obligations.CommitAppliesBestGain := by
  refine ⟨fun s => gainCommit_same, fun s i hi moved op hop a b rest => ?_⟩
  have hcalls : op s = applyGainThenReset s.gainTab[i] moved ∧ moved.ret = s.ret ∧
      moved.halted = s.halted ∧ moved.evt = s.evt := by
    rcases hop with ⟨rfl, hne, rfl, rfl⟩ | ⟨rfl, rfl, rfl⟩
    · exact ⟨gainCommit_other hne hi, rfl, rfl, rfl⟩
    · exact ⟨gainAdvance_eq hi, rfl, rfl, rfl⟩
  obtain ⟨hcall, hret, hhalted, hevt⟩ := hcalls
  rw [hcall, ← hret, ← hhalted, ← hevt]
  exact ⟨applyGainThenReset_of_ok_ok _, applyGainThenReset_of_err _,
    applyGainThenReset_of_ok_err _⟩

end Sys2Proof.Machine

end

/-! One step of the Gain Search Controller (spec/41_snr_gain.md R148 to R155; spec/10_state.md R27, R28):
O45, O46. -/
section

namespace Sys2Proof.Machine

/-! `GAIN.STEP` and its decision, by case (R148, R151). -/

section Equations

variable {c : Cfg} {s : State}

theorem gainStep_idle (c : Cfg) (fig : SnrT) (h : s.remaining = 0) : gainStep c fig s = s := by
  rw [gainStep, if_pos h]

theorem gainStep_hook (fig : SnrT) (hk : c.hookExternal = true) (hr : 0 < s.remaining) :
    gainStep c fig s = askHook fig (recordBest fig s) := by
  rw [gainStep, if_neg hr.ne', if_pos hk]

theorem gainStep_builtin (fig : SnrT) (hk : c.hookExternal = false) (hr : 0 < s.remaining) :
    gainStep c fig s =
      gainDecide (!ltDrop c fig (recordBest fig s).bestSnr) (recordBest fig s) := by
  rw [gainStep, if_neg hr.ne', if_neg (by simp [hk])]

theorem gainDecide_commit {cont : Bool} (h : s.gainLen ≤ s.curIdx + 1 ∨ cont = false) :
    gainDecide cont s = gainCommit s := by
  rw [gainDecide, if_pos h]

theorem gainDecide_advance (h : s.curIdx + 1 < s.gainLen) : gainDecide true s = gainAdvance s := by
  rw [gainDecide, if_neg (by simpa using h)]

/-! Recording a figure writes the best index and the best figure only (R148). -/

@[simp] theorem recordBest_curIdx (fig : SnrT) (s : State) :
    (recordBest fig s).curIdx = s.curIdx := by
  unfold recordBest; split <;> rfl

@[simp] theorem recordBest_gainTab (fig : SnrT) (s : State) :
    (recordBest fig s).gainTab = s.gainTab := by
  unfold recordBest; split <;> rfl

@[simp] theorem recordBest_gainLen (fig : SnrT) (s : State) :
    (recordBest fig s).gainLen = s.gainLen :=
  congrArg List.length (recordBest_gainTab fig s)

@[simp] theorem recordBest_ret (fig : SnrT) (s : State) : (recordBest fig s).ret = s.ret := by
  unfold recordBest; split <;> rfl

@[simp] theorem recordBest_evt (fig : SnrT) (s : State) : (recordBest fig s).evt = s.evt := by
  unfold recordBest; split <;> rfl

theorem recordBest_of_ge {fig : SnrT} (h : ge fig s.bestSnr = true) :
    recordBest fig s = { s with bestIdx := s.curIdx, bestSnr := fig } := by
  rw [recordBest, if_pos h]

theorem recordBest_of_not_ge {fig : SnrT} (h : ¬ ge fig s.bestSnr = true) :
    recordBest fig s = s := by
  rw [recordBest, if_neg h]

/-- With the built-in policy a step commits at the last candidate and below the drop limit (R148,
R154). -/
theorem gainStep_commits {fig : SnrT} (hk : c.hookExternal = false) (hr : 0 < s.remaining)
    (h : s.gainLen ≤ s.curIdx + 1 ∨ ltDrop c fig (recordBest fig s).bestSnr = true) :
    gainStep c fig s = gainCommit (recordBest fig s) := by
  rw [gainStep_builtin fig hk hr]
  exact gainDecide_commit (by simpa using h)

/-- With the built-in policy a step advances in every other case (R148). -/
theorem gainStep_advances {fig : SnrT} (hk : c.hookExternal = false) (hr : 0 < s.remaining)
    (hnext : s.curIdx + 1 < s.gainLen) (hdrop : ltDrop c fig (recordBest fig s).bestSnr = false) :
    gainStep c fig s = gainAdvance (recordBest fig s) := by
  rw [gainStep_builtin fig hk hr, hdrop]
  exact gainDecide_advance (by simpa using hnext)

/-- Every figure is at least the ratio 0 with which a search begins (R147, R153). -/
theorem ge_zeroRatio (fig : SnrT) : ge fig ⟨0, 1⟩ = true := by
  simp [ge]

/-- Settles O45: the figure is recorded, and the only candidate is the last one and the best. -/
theorem singleGainCommitsSilently : Obligations.SingleGainCommitsSilently := by
  intro c fig g s hk
  have hlast : (startSearch [g] s).gainLen ≤ (startSearch [g] s).curIdx + 1 := Nat.le_refl 1
  rw [gainStep_commits hk Nat.one_pos (.inl hlast), recordBest_of_ge (ge_zeroRatio fig),
    gainCommit_same rfl]
  rfl

end Equations

/-! What a step makes of the controller (R27, R28). -/

/-- A turn of the channels leaves the controller as it is. -/
theorem HostTurn.controller {s t : State} (h : HostTurn s t) :
    t.gainTab = s.gainTab ∧ t.curIdx = s.curIdx ∧ t.bestIdx = s.bestIdx ∧ t.bestSnr = s.bestSnr ∧
      t.remaining = s.remaining := by
  obtain ⟨_, _, _, _, _, rfl, -, -⟩ := h
  exact ⟨rfl, rfl, rfl, rfl, rfl⟩

theorem SearchTurn.gainTab {s t : State} (h : SearchTurn s t) : t.gainTab = s.gainTab := by
  obtain ⟨_, _, _, _, _, _, _, _, _, _, -, rfl⟩ := h
  rfl

theorem gainCommit_controller (s : State) :
    (gainCommit s).curIdx = s.bestIdx ∧ (gainCommit s).bestIdx = s.bestIdx ∧
      (gainCommit s).bestSnr = s.bestSnr ∧ (gainCommit s).remaining = 0 :=
  (gainCommit_hostTurn s).controller.2

theorem gainAdvance_controller (s : State) :
    (gainAdvance s).gainTab = s.gainTab ∧ (gainAdvance s).curIdx = s.curIdx + 1 ∧
      (gainAdvance s).bestIdx = s.bestIdx ∧ (gainAdvance s).bestSnr = s.bestSnr ∧
      (gainAdvance s).remaining = s.remaining - 1 :=
  (gainAdvance_hostTurn s).controller

theorem raiseFatal_halts (code : FatalCode) (s : State) : (raiseFatal code s).halted = true := by
  cases hh : s.halted with
  | true => rw [raiseFatal_halted code hh, hh]
  | false => rw [raiseFatal_running code hh]

/-- During a search the hook's call faults, or its answer decides (R148, R151). -/
theorem askHook_searching (fig : SnrT) {s : State} (hr : 0 < s.remaining) :
    (HostTurn s (askHook fig s) ∧ (askHook fig s).halted = true) ∨
    ∃ cont t, HostTurn s t ∧ askHook fig s = gainDecide cont t := by
  have hcall := call_hostTurn (.onSnr fig) s
  obtain ⟨-, -, -, -, hrem⟩ := hcall.controller
  unfold askHook
  dsimp only
  split
  · exact .inl ⟨hcall.trans (raiseFatal_hostTurn _ _), raiseFatal_halts _ _⟩
  · rw [if_neg (by omega)]
    exact .inr ⟨_, _, hcall, rfl⟩

end Sys2Proof.Machine

namespace Sys2Proof.Safety

open Sys2Proof.Machine

/-- A decision ends the search on the best index or moves to the next candidate (R149, R150). -/
def Decides (s t : State) : Prop :=
  (t.remaining = 0 ∧ t.curIdx = t.bestIdx) ∨
  (t.curIdx = s.curIdx + 1 ∧ t.remaining = s.remaining - 1)

theorem ControllerOk.host {s t : State} (h : ControllerOk s) (turn : HostTurn s t) :
    ControllerOk t := by
  obtain ⟨htab, hcur, hbest, -, hrem⟩ := turn.controller
  exact h.congr htab hcur hbest hrem

theorem ControllerOk.recordBest {s : State} (fig : SnrT) (h : ControllerOk s)
    (hr : 0 < s.remaining) : ControllerOk (recordBest fig s) := by
  by_cases hge : ge fig s.bestSnr = true
  · obtain ⟨hlen, hcur, hrem, -⟩ := h.searching hr
    rw [recordBest_of_ge hge]
    exact ⟨h.length, fun _ => ⟨hlen, hcur, hrem, Nat.le_refl _⟩, fun hzero => absurd hzero hr.ne',
      fun hempty => absurd hempty (Nat.ne_of_gt hlen)⟩
  · rwa [recordBest_of_not_ge hge]

theorem ControllerOk.gainDecide (cont : Bool) {s : State} (h : ControllerOk s)
    (hr : 0 < s.remaining) : ControllerOk (gainDecide cont s) := by
  rcases gainDecide_cases cont s with commit | ⟨hnext, advance⟩
  · exact (h.commit hr).host commit
  · exact (h.advance hr hnext).host advance

theorem gainDecide_decides (cont : Bool) (s : State) : Decides s (gainDecide cont s) := by
  rcases gainDecide_cases cont s with commit | ⟨-, advance⟩
  · obtain ⟨-, hcur, hbest, -, hrem⟩ := commit.controller
    exact .inl ⟨hrem, hcur.trans hbest.symm⟩
  · obtain ⟨-, hcur, -, -, hrem⟩ := advance.controller
    exact .inr ⟨hcur, hrem⟩

theorem askHook_outcome (fig : SnrT) {s : State} (h : ControllerOk s) (hr : 0 < s.remaining) :
    ControllerOk (askHook fig s) ∧ (Decides s (askHook fig s) ∨
      (askHook fig s).halted = true ∧ (askHook fig s).curIdx = s.curIdx ∧
        (askHook fig s).remaining = s.remaining) := by
  rcases askHook_searching fig hr with ⟨turn, hhalted⟩ | ⟨cont, t, turn, e⟩
  · obtain ⟨-, hcur, -, -, hrem⟩ := turn.controller
    exact ⟨h.host turn, .inr ⟨hhalted, hcur, hrem⟩⟩
  · obtain ⟨-, hcur, -, -, hrem⟩ := turn.controller
    have hdecides := gainDecide_decides cont t
    rw [Decides, hcur, hrem] at hdecides
    rw [e]
    exact ⟨(h.host turn).gainDecide cont (hrem ▸ hr), .inl hdecides⟩

/-- One step during a search keeps the controller consistent, and it decides, or the hook's call
faults (R28, R148, R154). -/
theorem gainStep_outcome (c : Cfg) (fig : SnrT) {s : State} (h : ControllerOk s)
    (hr : 0 < s.remaining) :
    ControllerOk (gainStep c fig s) ∧ (Decides s (gainStep c fig s) ∨
      c.hookExternal = true ∧ (gainStep c fig s).halted = true ∧
        (gainStep c fig s).curIdx = s.curIdx ∧ (gainStep c fig s).remaining = s.remaining) := by
  have hrec := h.recordBest fig hr
  have hrem := recordBest_remaining fig s
  have hcur := recordBest_curIdx fig s
  cases hk : c.hookExternal with
  | true =>
    obtain ⟨hok, houtcome⟩ := askHook_outcome fig hrec (hrem.symm ▸ hr)
    rw [Decides, hcur, hrem] at houtcome
    rw [gainStep_hook fig hk hr]
    exact ⟨hok, houtcome.imp_right fun hfault => ⟨rfl, hfault⟩⟩
  | false =>
    have hdecides := gainDecide_decides
      (!ltDrop c fig (Machine.recordBest fig s).bestSnr) (Machine.recordBest fig s)
    rw [Decides, hcur, hrem] at hdecides
    rw [gainStep_builtin fig hk hr]
    exact ⟨hrec.gainDecide _ (hrem.symm ▸ hr), .inl hdecides⟩

/-- The advance of a step whose two calls are answered without `err` (R148, R150). -/
theorem gainStep_advances_ok {c : Cfg} {fig : SnrT} {s : State} {a b : Word} {rest : List Word}
    (hk : c.hookExternal = false) (hr : 0 < s.remaining) (hnext : s.curIdx + 1 < s.gainTab.length)
    (hdrop : ltDrop c fig (recordBest fig s).bestSnr = false) (hret : s.ret = a :: b :: rest)
    (ha : retErr a = false) (hb : retErr b = false) :
    gainStep c fig s = { recordBest fig s with
      curIdx := s.curIdx + 1, remaining := s.remaining - 1, ret := rest,
      evt := s.evt ++ [0x10000000, s.gainTab[s.curIdx + 1], 0x20000000] } := by
  have hnext' : (recordBest fig s).curIdx + 1 < (recordBest fig s).gainTab.length := by simpa
  have hret' : (recordBest fig s).ret = a :: b :: rest := by simpa
  rw [gainStep_advances hk hr hnext hdrop, gainAdvance_eq hnext',
    applyGainThenReset_of_ok_ok (s := { recordBest fig s with
      curIdx := (recordBest fig s).curIdx + 1, remaining := (recordBest fig s).remaining - 1 })
      _ hret' ha hb]
  simp only [recordBest_curIdx, recordBest_gainTab, recordBest_evt, recordBest_remaining]

/-- Settles O46: the step by its case, then what it leaves of the controller. -/
theorem searchNeverRescans : Obligations.SearchNeverRescans := by
  intro c fig s
  refine ⟨gainStep_idle c fig, fun hr => ⟨fun hk => ?_, fun hk => gainStep_commits hk hr,
    fun hk hnext a b rest hdrop => gainStep_advances_ok hk hr hnext hdrop, fun h => ?_⟩⟩
  · rw [gainStep_hook fig hk hr]
    rfl
  · obtain ⟨hok, houtcome⟩ := gainStep_outcome c fig h hr
    exact ⟨hok, (gainStep_search c fig s).gainTab, or_assoc.1 houtcome⟩

end Sys2Proof.Safety

end

/-! The search over figures that rise and then fall (spec/41_snr_gain.md R153, R154, R156): O47. -/
section

namespace Sys2Proof.Safety

open Sys2Proof.Machine

/-! The order of figures through their values (R16). -/

theorem ge_trans {a b d : SnrT} (hab : ge a b = true) (hbd : ge b d = true) : ge a d = true := by
  rw [ge_iff_snrVal_le] at *
  exact hbd.trans hab

theorem ge_refl (a : SnrT) : ge a a = true :=
  (ge_iff_snrVal_le a a).2 le_rfl

theorem ge_of_not_ge {a b : SnrT} (h : ¬ ge a b = true) : ge b a = true := by
  rw [ge_iff_snrVal_le] at *
  exact (not_le.1 h).le

/-- The drop limit grows with the figure (R16, R157). -/
theorem dropLimit_mono (c : Cfg) {a b : SnrT} (h : ge b a = true) :
    dropLimit c a ≤ dropLimit c b := by
  rw [ge_iff_snrVal_le] at h
  by_cases hc : c.gainDropNum = 0
  · rw [dropLimit_zero_ratio hc, dropLimit_zero_ratio hc]
  · by_cases hb : SnrInfinite b
    · rw [dropLimit_infinite hc hb]
      exact le_top
    · have ha : ¬ SnrInfinite a := fun ha => by
        rw [snrVal_infinite ha, snrVal_finite hb, top_le_iff] at h
        exact WithTop.coe_ne_top h
      rw [snrVal_finite ha, snrVal_finite hb, WithTop.coe_le_coe] at h
      rw [dropLimit_finite c ha, dropLimit_finite c hb, WithTop.coe_le_coe]
      gcongr

/-- The drop ratio is at most 1 (R10), so no figure is below its own drop limit. -/
theorem dropLimit_le_snrVal (c : Cfg) (b : SnrT) : dropLimit c b ≤ snrVal b := by
  by_cases hb : SnrInfinite b
  · rw [snrVal_infinite hb]
    exact le_top
  · have hden : (0 : ℚ) < c.gainDropDen := by exact_mod_cast c.gainDrop_range.2
    have hratio : (c.gainDropNum : ℚ) ≤ c.gainDropDen := by exact_mod_cast c.gainDrop_range.1
    rw [dropLimit_finite c hb, snrVal_finite hb, WithTop.coe_le_coe, div_le_iff₀ hden]
    gcongr

theorem not_ge_of_ltDrop {c : Cfg} {a b : SnrT} (h : ltDrop c a b = true) : ¬ ge a b = true := by
  rw [ltDrop_iff_snrVal_lt] at h
  rw [ge_iff_snrVal_le]
  exact not_le.2 (h.trans_le (dropLimit_le_snrVal c b))

theorem ltDrop_mono {c : Cfg} {f a b : SnrT} (h : ltDrop c f a = true) (hba : ge b a = true) :
    ltDrop c f b = true := by
  rw [ltDrop_iff_snrVal_lt] at *
  exact h.trans_le (dropLimit_mono c hba)

/-! What a search has reached after `n` figures. -/

/-- The figures rise up to the peak and fall after it (R156). -/
def RisesThenFalls (figs : List SnrT) (peak : Nat) : Prop :=
  ∀ i j (hi : i < figs.length) (hj : j < figs.length), i ≤ j →
    (j ≤ peak → ge figs[j] figs[i] = true) ∧ (peak ≤ i → ge figs[i] figs[j] = true)

/-- The recorded best is one of the first `n` figures and no other of them exceeds it (R153). -/
structure BestSoFar (figs : List SnrT) (n : Nat) (s : State) : Prop where
  index : s.bestIdx < n
  figure : figs[s.bestIdx]? = some s.bestSnr
  highest : ∀ j (hj : j < figs.length), j < n → ge s.bestSnr figs[j] = true

/-- After `n` figures the search goes on with candidate `n` (R28). -/
structure Searching (figs : List SnrT) (n : Nat) (s : State) : Prop where
  table : s.gainLen = figs.length
  current : s.curIdx = n
  count : s.remaining = figs.length - n
  inside : n < figs.length
  best : s.bestSnr = ⟨0, 1⟩ ∧ n = 0 ∨ BestSoFar figs n s

/-- The search is over and its index is that of a figure no other exceeds. -/
structure CommittedToMaximum (figs : List SnrT) (s : State) : Prop where
  stopped : s.remaining = 0
  maximum : ∃ h : s.curIdx < figs.length, ∀ j (hj : j < figs.length),
    ge figs[s.curIdx] figs[j] = true

variable {c : Cfg} {figs : List SnrT} {n peak : Nat} {s t : State}

theorem Searching.remaining_pos (h : Searching figs n s) : 0 < s.remaining := by
  have := h.count
  have := h.inside
  omega

theorem Searching.start {gains : List Word} (hlen : figs.length = gains.length)
    (hpos : 0 < figs.length) (s : State) : Searching figs 0 (startSearch gains s) :=
  ⟨hlen.symm, rfl, hlen.symm, hpos, .inl ⟨rfl, rfl⟩⟩

theorem BestSoFar.congr (h : BestSoFar figs n s) (bestIdx : t.bestIdx = s.bestIdx)
    (bestSnr : t.bestSnr = s.bestSnr) : BestSoFar figs n t := by
  obtain ⟨index, figure, highest⟩ := h
  constructor <;> simpa only [bestIdx, bestSnr]

/-- Recording the next figure (R148, R153). -/
theorem Searching.recordBest (h : Searching figs n s) (hn : n < figs.length) :
    BestSoFar figs (n + 1) (recordBest figs[n] s) := by
  by_cases hge : ge figs[n] s.bestSnr = true
  · rw [recordBest_of_ge hge]
    refine ⟨Nat.lt_succ_of_le h.current.le, by simp [h.current, hn], fun j hj hjn => ?_⟩
    rcases Nat.lt_succ_iff_lt_or_eq.1 hjn with hjn | rfl
    · rcases h.best with ⟨-, hzero⟩ | hbest
      · omega
      · exact ge_trans hge (hbest.highest j hj hjn)
    · exact ge_refl _
  · rw [recordBest_of_not_ge hge]
    rcases h.best with ⟨hzero, -⟩ | hbest
    · exact absurd (hzero ▸ ge_zeroRatio figs[n]) hge
    · refine ⟨hbest.index.trans (Nat.lt_succ_self n), hbest.figure, fun j hj hjn => ?_⟩
      rcases Nat.lt_succ_iff_lt_or_eq.1 hjn with hjn | rfl
      · exact hbest.highest j hj hjn
      · exact ge_of_not_ge hge

/-- The best so far is the best of all when no figure is left, or when the latest one lies below it:
the figures fall then already (R156). -/
theorem BestSoFar.highest_of_all (h : BestSoFar figs (n + 1) s) (hn : n < figs.length)
    (hshape : RisesThenFalls figs peak)
    (hstop : figs.length ≤ n + 1 ∨ ltDrop c figs[n] s.bestSnr = true) :
    ∀ j (hj : j < figs.length), ge s.bestSnr figs[j] = true := by
  intro j hj
  by_cases hjn : j < n + 1
  · exact h.highest j hj hjn
  · have hbelow : ¬ ge figs[n] s.bestSnr = true :=
      not_ge_of_ltDrop (hstop.resolve_left (by omega))
    have hbest := Nat.le_of_lt_succ h.index
    obtain ⟨hbestLt, hfigure⟩ := List.getElem?_eq_some_iff.1 h.figure
    have hfalling : peak ≤ n := by
      by_contra hrising
      have hrise := (hshape s.bestIdx n hbestLt hn hbest).1 (by omega)
      rw [hfigure] at hrise
      exact hbelow hrise
    exact ge_trans (ge_of_not_ge hbelow) ((hshape n j hn hj (by omega)).2 hfalling)

/-- A search that stops has committed to a maximal figure. -/
theorem Searching.commits (h : Searching figs n s) (hn : n < figs.length)
    (hshape : RisesThenFalls figs peak)
    (hstop : figs.length ≤ n + 1 ∨ ltDrop c figs[n] (Machine.recordBest figs[n] s).bestSnr = true) :
    CommittedToMaximum figs (gainCommit (Machine.recordBest figs[n] s)) := by
  have hbest := h.recordBest hn
  obtain ⟨hcur, -, -, hrem⟩ := gainCommit_controller (Machine.recordBest figs[n] s)
  obtain ⟨hlt, hfigure⟩ := List.getElem?_eq_some_iff.1 hbest.figure
  have hall := hbest.highest_of_all hn hshape hstop
  refine ⟨hrem, hcur ▸ hlt, fun j hj => ?_⟩
  simp only [hcur, hfigure]
  exact hall j hj

/-- A search that does not stop goes on with the next candidate. -/
theorem Searching.advances (h : Searching figs n s) (hnext : n + 1 < figs.length) :
    Searching figs (n + 1) (gainAdvance (Machine.recordBest figs[n] s)) := by
  have hrec := h.recordBest h.inside
  obtain ⟨htab, hcur, hidx, hfig, hrem⟩ := gainAdvance_controller (Machine.recordBest figs[n] s)
  rw [recordBest_gainTab] at htab
  rw [recordBest_curIdx, h.current] at hcur
  rw [recordBest_remaining, h.count] at hrem
  exact ⟨(congrArg List.length htab).trans h.table, hcur, hrem.trans (Nat.sub_sub _ _ _), hnext,
    .inr (hrec.congr hidx hfig)⟩

/-! The figures one after another. -/

/-- The search over `gains` after the first `n` figures (R156). -/
def fedFigures (c : Cfg) (gains : List Word) (figs : List SnrT) (s : State) (n : Nat) : State :=
  (figs.take n).foldl (fun s f => gainStep c f s) (startSearch gains s)

theorem fedFigures_succ (c : Cfg) (gains : List Word) (s : State) (hn : n < figs.length) :
    fedFigures c gains figs s (n + 1) = gainStep c figs[n] (fedFigures c gains figs s n) := by
  rw [fedFigures, List.take_succ_eq_append_getElem hn, List.foldl_append]
  rfl

theorem gainStep_fed (hk : c.hookExternal = false) (hshape : RisesThenFalls figs peak)
    (h : Searching figs n s) (hn : n < figs.length) :
    CommittedToMaximum figs (gainStep c figs[n] s) ∨
      Searching figs (n + 1) (gainStep c figs[n] s) := by
  have hlast : s.gainLen ≤ s.curIdx + 1 ↔ figs.length ≤ n + 1 := by rw [h.table, h.current]
  by_cases hstop : figs.length ≤ n + 1 ∨
      ltDrop c figs[n] (Machine.recordBest figs[n] s).bestSnr = true
  · rw [gainStep_commits hk h.remaining_pos (hstop.imp_left hlast.2)]
    exact .inl (h.commits hn hshape hstop)
  · obtain ⟨hmore, hnodrop⟩ := not_or.1 hstop
    rw [gainStep_advances hk h.remaining_pos (not_le.1 (mt hlast.1 hmore)) (by simpa using hnodrop)]
    exact .inr (h.advances (not_le.1 hmore))

theorem fedFigures_reaches {gains : List Word} (hk : c.hookExternal = false)
    (hlen : figs.length = gains.length) (hpos : 0 < figs.length)
    (hshape : RisesThenFalls figs peak) (s : State) : ∀ n ≤ figs.length,
    CommittedToMaximum figs (fedFigures c gains figs s n) ∨
      Searching figs n (fedFigures c gains figs s n)
  | 0, _ => .inr (Searching.start hlen hpos s)
  | n + 1, hn => by
    rw [fedFigures_succ c gains s hn]
    rcases fedFigures_reaches hk hlen hpos hshape s n (Nat.le_of_succ_le hn) with ended | going
    · rw [gainStep_idle c _ ended.stopped]
      exact .inl ended
    · exact gainStep_fed hk hshape going hn

/-- A figure below the drop limit of one measured before it ends the search (R154). -/
theorem Searching.over_of_drop (hk : c.hookExternal = false) (h : Searching figs n s)
    (hn : n < figs.length) {i : Nat} (hi : i < figs.length) (hin : i ≤ n)
    (hdrop : ltDrop c figs[n] figs[i] = true) : (gainStep c figs[n] s).remaining = 0 := by
  have hbest := (h.recordBest hn).highest i hi (Nat.lt_succ_of_le hin)
  obtain ⟨-, -, -, hrem⟩ := gainCommit_controller (Machine.recordBest figs[n] s)
  rw [gainStep_commits hk h.remaining_pos (.inr (ltDrop_mono hdrop hbest)), hrem]

/-- Settles O47: after each figure the search is over on a maximal figure or goes on with the best so
far recorded; it cannot go on past the last figure or past one below a drop limit. -/
theorem searchCommitsToMaximum : Obligations.SearchCommitsToMaximum := by
  intro c gains figs peak s hk hlen hpeak hshape
  change (fedFigures c gains figs s figs.length).remaining = 0 ∧
    (∃ h : (fedFigures c gains figs s figs.length).curIdx < figs.length, ∀ j (hj : j < figs.length),
      ge figs[(fedFigures c gains figs s figs.length).curIdx] figs[j] = true) ∧
    (∀ i j (hi : i < figs.length) (hj : j < figs.length), i ≤ j →
      ltDrop c figs[j] figs[i] = true → (fedFigures c gains figs s (j + 1)).remaining = 0)
  have hreaches := fedFigures_reaches hk hlen (Nat.zero_lt_of_lt hpeak) hshape s
  obtain ⟨hover, hmaximum⟩ := (hreaches figs.length le_rfl).resolve_right
    fun going => Nat.lt_irrefl _ going.inside
  refine ⟨hover, hmaximum, fun i j hi hj hij hdrop => ?_⟩
  rw [fedFigures_succ c gains s hj]
  rcases hreaches j hj.le with ended | going
  · rw [gainStep_idle c _ ended.stopped, ended.stopped]
  · exact going.over_of_drop hk hj hi hij hdrop

end Sys2Proof.Safety

end

/-! The estimator's window under decimated samples and under a `DELIVER` (spec/41_snr_gain.md R141, R144;
spec/46_orchestrator_host.md R244, R245): O42. -/
section

namespace Sys2Proof.Machine

open Sys2Proof.Safety

/-! `SNR.PUSH` by the fill of the window (R141). -/

/-- Decimated samples into the window, one after another. -/
def snrPushes (c : Cfg) (ds : List Sample) (s : State) : State :=
  ds.foldl (fun s d => snrPush c d s) s

theorem snrPush_stores (c : Cfg) (d : Sample) {s : State} (h : s.snrFill + 1 < 64) :
    snrPush c d s = { s with snrWin := s.snrWin ++ [d] } := by
  have hopen : s.snrFill ≠ snrN - 1 := by unfold snrN; omega
  rw [snrPush, if_neg hopen]

theorem snrPush_fills (c : Cfg) (d : Sample) {s : State} (h : s.snrFill + 1 = 64) :
    snrPush c d s = gainStep c (snrEstimate c (s.snrWin ++ [d])) { s with snrWin := [] } := by
  have hfull : s.snrFill = snrN - 1 := by unfold snrN; omega
  rw [snrPush, if_pos hfull]

theorem snrPushes_store (c : Cfg) (ds : List Sample) : ∀ {s : State},
    s.snrFill + ds.length < 64 → snrPushes c ds s = { s with snrWin := s.snrWin ++ ds } := by
  induction ds with
  | nil => intro s _; simp [snrPushes]
  | cons d ds ih =>
    intro s h
    rw [List.length_cons] at h
    have hrest : State.snrFill { s with snrWin := s.snrWin ++ [d] } + ds.length < 64 := by
      simp only [State.snrFill, List.length_append, List.length_singleton] at *
      omega
    calc snrPushes c (d :: ds) s = snrPushes c ds (snrPush c d s) := rfl
      _ = { s with snrWin := s.snrWin ++ [d] ++ ds } := by
        rw [snrPush_stores c d (by omega), ih hrest]
      _ = { s with snrWin := s.snrWin ++ d :: ds } := by rw [List.append_assoc]; rfl

/-- The last of the samples fills the window: those before it are stored. -/
theorem snrPushes_fill (c : Cfg) {ds : List Sample} {s : State} (hne : ds ≠ [])
    (h : s.snrFill + ds.length = 64) :
    snrPushes c ds s = gainStep c (snrEstimate c (s.snrWin ++ ds)) { s with snrWin := [] } := by
  obtain ⟨init, d, rfl⟩ := List.eq_nil_or_concat' ds |>.resolve_left hne
  rw [List.length_append, List.length_singleton] at h
  have hfull : State.snrFill { s with snrWin := s.snrWin ++ init } + 1 = 64 := by
    simp only [State.snrFill, List.length_append] at *
    omega
  calc snrPushes c (init ++ [d]) s = snrPush c d (snrPushes c init s) := by
        simp only [snrPushes, List.foldl_append, List.foldl_cons, List.foldl_nil]
    _ = gainStep c (snrEstimate c (s.snrWin ++ init ++ [d])) { s with snrWin := [] } := by
        rw [snrPushes_store c init (by omega), snrPush_fills c d hfull]
    _ = _ := by rw [List.append_assoc]

theorem snrPushes_search (c : Cfg) : ∀ (ds : List Sample) (s : State),
    SearchTurn s (snrPushes c ds s)
  | [], s => SearchTurn.refl s
  | d :: ds, s => (snrPush_search c d s).trans (snrPushes_search c ds (snrPush c d s))

/-! The Decimation Filter does not read the window. -/

theorem decimPush_withWindow (c : Cfg) (x : Sample) (s : State) (w : List Sample) :
    decimPush c x { s with snrWin := w } =
      ((decimPush c x s).1, { (decimPush c x s).2 with snrWin := w }) := by
  unfold decimPush
  dsimp only
  split <;> rfl

theorem decimate_withWindow (c : Cfg) (w : List Sample) : ∀ (xs : List Sample) (s : State),
    decimate c xs { s with snrWin := w } =
      ((decimate c xs s).1, { (decimate c xs s).2 with snrWin := w })
  | [], _ => rfl
  | x :: xs, s => by
    rw [decimate_cons, decimate_cons, decimPush_withWindow, decimate_withWindow c w xs]

/-- Raw samples through the filter write the history and the phase only (R121). -/
theorem decimate_frame (c : Cfg) : ∀ (xs : List Sample) (s : State),
    ∃ p l, (decimate c xs s).2 = { s with phase := p, hist := l }
  | [], s => ⟨s.phase, s.hist, rfl⟩
  | x :: xs, s => by
    obtain ⟨p, e⟩ := decimPush_frame c x s
    obtain ⟨p', l', e'⟩ := decimate_frame c xs (decimPush c x s).2
    exact ⟨p', l', by rw [decimate_cons, e', e]⟩

/-! A `DELIVER` during a search (R244, R245). -/

/-- A running block in a search, its skip used up: it filters the next raw sample and gives its
output to the estimator. -/
structure Measuring (s : State) : Prop where
  running : s.halted = false
  noSkip : s.skip = 0
  searching : 0 < s.remaining

theorem Measuring.congr {s t : State} (h : Measuring s) (halted : t.halted = s.halted)
    (skip : t.skip = s.skip) (remaining : t.remaining = s.remaining) : Measuring t := by
  obtain ⟨running, noSkip, searching⟩ := h
  constructor <;> simpa only [halted, skip, remaining]

theorem Measuring.decimate (c : Cfg) (xs : List Sample) {s : State} (h : Measuring s)
    (w : List Sample) : Measuring { (decimate c xs s).2 with snrWin := w } := by
  obtain ⟨p, l, e⟩ := decimate_frame c xs s
  rw [e]
  exact h.congr rfl rfl rfl

theorem Measuring.decimPush (c : Cfg) (x : Sample) {s : State} (h : Measuring s) (w : List Sample) :
    Measuring { (decimPush c x s).2 with snrWin := w } :=
  h.decimate c [x] w

/-- One raw sample: the filter's output, if there is one, goes into the window. -/
theorem deliverOne_measuring (c : Cfg) (x : Sample) {s : State} (h : Measuring s) :
    deliverOne c s x = snrPushes c (decimPush c x s).1.toList (decimPush c x s).2 := by
  by_cases hp : s.phase = c.m - 1
  · obtain ⟨hout, -⟩ := decimPush_last x hp
    rw [deliverOne_routed c x h.running h.noSkip hp, hout, route,
      if_pos (h.decimPush c x (decimPush c x s).2.snrWin).searching]
    rfl
  · obtain ⟨hout, -⟩ := decimPush_inner x hp
    rw [deliverOne_filtered c x h.running h.noSkip hp, hout]
    rfl

/-- Raw samples whose decimated samples do not fill the window. -/
theorem deliver_stores (c : Cfg) : ∀ (xs : List Sample) {s : State}, Measuring s →
    s.snrFill + (decimate c xs s).1.length < 64 →
    deliver c xs s = { (decimate c xs s).2 with snrWin := s.snrWin ++ (decimate c xs s).1 }
  | [], s, _, _ => by simp [deliver, decimate]
  | x :: xs, s, h, hfill => by
    rw [decimate_cons, List.length_append] at hfill
    obtain ⟨p, e⟩ := decimPush_frame c x s
    have hwin : (decimPush c x s).2.snrWin = s.snrWin := by rw [e]
    have hfirst : deliverOne c s x = { (decimPush c x s).2 with
        snrWin := s.snrWin ++ (decimPush c x s).1.toList } := by
      rw [deliverOne_measuring c x h, snrPushes_store, hwin]
      rw [State.snrFill, hwin]
      change s.snrFill + _ < 64
      omega
    have hrest := deliver_stores c xs
      (h.decimPush c x (s.snrWin ++ (decimPush c x s).1.toList)) (by
        rw [decimate_withWindow]
        simp only [State.snrFill, List.length_append] at *
        omega)
    rw [deliver_cons, hfirst, hrest, decimate_withWindow, decimate_cons]
    simp only [List.append_assoc]

theorem deliver_append (c : Cfg) (xs ys : List Sample) (s : State) :
    deliver c (xs ++ ys) s = deliver c ys (deliver c xs s) :=
  List.foldl_append

/-- Raw samples the last of which completes a group and with it the window. -/
theorem deliver_fills (c : Cfg) {xs : List Sample} {s : State} (h : Measuring s) (hne : xs ≠ [])
    (hphase : (decimate c xs s).2.phase = 0) (hfill : s.snrFill + (decimate c xs s).1.length = 64) :
    deliver c xs s = gainStep c (snrEstimate c (s.snrWin ++ (decimate c xs s).1))
      { (decimate c xs s).2 with snrWin := [] } := by
  obtain ⟨init, x, rfl⟩ := List.eq_nil_or_concat' xs |>.resolve_left hne
  rw [decimate_concat] at hphase hfill ⊢
  dsimp only at hphase hfill ⊢
  have hlast : (decimate c init s).2.phase = c.m - 1 := by
    by_contra hinner
    have := (decimPush_inner x hinner).2
    omega
  obtain ⟨hout, -⟩ := decimPush_last x hlast
  rw [hout, Option.toList_some] at hfill ⊢
  rw [List.length_append, List.length_singleton] at hfill
  have hstored := deliver_stores c init h (by omega)
  have hone := deliverOne_measuring c x (h.decimate c init (s.snrWin ++ (decimate c init s).1))
  rw [decimPush_withWindow, hout, Option.toList_some] at hone
  calc deliver c (init ++ [x]) s = deliverOne c (deliver c init s) x := deliver_append c init [x] s
    _ = _ := by
      rw [hstored, hone, snrPushes_fill c (List.cons_ne_nil _ _)]
      · simp only [List.append_assoc]
      · simp only [State.snrFill, List.length_append, List.length_singleton] at *
        omega

/-- The skip takes its samples first (R23, R244). -/
theorem deliver_skip (c : Cfg) (xs : List Sample) {s : State} (hr : s.halted = false) :
    deliver c xs s = deliver c (xs.drop s.skip.toNat)
      { s with skip := BitVec.ofNat 28 (s.skip.toNat - xs.length) } := by
  have hcovered : ∀ ys : List Sample, ys.length ≤ s.skip.toNat → deliver c ys s =
      { s with skip := BitVec.ofNat 28 (s.skip.toNat - ys.length) } := fun ys hy => by
    have hcount : s.skip - BitVec.ofNat 28 ys.length =
        BitVec.ofNat 28 (s.skip.toNat - ys.length) := by bv_omega
    rw [deliver_skipped c ys s hr hy, hcount]
  by_cases hlen : xs.length ≤ s.skip.toNat
  · rw [hcovered xs hlen, List.drop_of_length_le hlen]
    rfl
  · have htake : (xs.take s.skip.toNat).length = s.skip.toNat := by
      rw [List.length_take]; omega
    have hzero : s.skip.toNat - xs.length = s.skip.toNat - s.skip.toNat := by omega
    conv_lhs => rw [← List.take_append_drop s.skip.toNat xs]
    rw [deliver_append, hcovered _ htake.le, htake, hzero]

/-! What a `DELIVER` cannot move while the search goes on (R144, R308). -/

/-- What raw samples can write during a search: the skip and the filter, and what a search writes. -/
def MeasureTurn (s t : State) : Prop :=
  ∃ n p l, SearchTurn { s with skip := n, phase := p, hist := l } t

theorem SearchTurn.measure {s t : State} (h : SearchTurn s t) : MeasureTurn s t :=
  ⟨s.skip, s.phase, s.hist, h⟩

theorem MeasureTurn.refl (s : State) : MeasureTurn s s :=
  (SearchTurn.refl s).measure

theorem MeasureTurn.trans {s t u : State} (h1 : MeasureTurn s t) (h2 : MeasureTurn t u) :
    MeasureTurn s u := by
  obtain ⟨_, _, _, _, _, _, _, _, w1, _, _, _, _, hle1, rfl⟩ := h1
  obtain ⟨n, p, l, w, ci, bi, bs, rm, w2, r, f, a, b, hle2, rfl⟩ := h2
  exact ⟨n, p, l, w, ci, bi, bs, rm, w1 ++ w2, r, f, a, b, hle2.trans hle1, by simp⟩

theorem decimPush_measure (c : Cfg) (x : Sample) (s : State) :
    MeasureTurn s (decimPush c x s).2 := by
  obtain ⟨p, e⟩ := decimPush_frame c x s
  rw [e]
  exact ⟨s.skip, p, _, SearchTurn.refl _⟩

theorem deliverOne_measure (c : Cfg) (x : Sample) {s : State} (hs : 0 < s.remaining) :
    MeasureTurn s (deliverOne c s x) := by
  cases hr : s.halted with
  | true => rw [deliverOne_halted c x hr]; exact MeasureTurn.refl s
  | false =>
    by_cases hskip : 0 < s.skip
    · rw [deliverOne_skipped c x hr hskip]
      exact ⟨s.skip - 1, s.phase, s.hist, SearchTurn.refl _⟩
    · have hm : Measuring s := ⟨hr, by bv_omega, hs⟩
      rw [deliverOne_measuring c x hm]
      exact (decimPush_measure c x s).trans (snrPushes_search c _ _).measure

/-! A search that is over stays over: only `LOAD_GAIN_TABLE` begins one (R147). -/

theorem SearchTurn.remaining_le {s t : State} (h : SearchTurn s t) : t.remaining ≤ s.remaining := by
  obtain ⟨_, _, _, _, _, _, _, _, _, _, hle, rfl⟩ := h
  exact hle

theorem acqStep_remaining (c : Cfg) (s : State) : (acqStep c s).remaining = s.remaining := by
  unfold acqStep
  dsimp only
  split
  · split <;> rfl
  · rfl

theorem syncSymbol_remaining (c : Cfg) (s : State) :
    (syncSymbol c s).remaining = s.remaining := by
  unfold syncSymbol
  dsimp only
  generalize c.syncStep s.ctx (memRead 0 c.symMax s) = o
  obtain ⟨_, _, e, -, -⟩ := trackUpdate_frame c o.q (consume o.adv { s with ctx := o.ctx })
  split
  · change (trackUpdate c o.q _).2.remaining = _
    rw [e]
    rfl
  · obtain ⟨_, _, _, _, e', -⟩ := frameSymbol_frame c o.sym o.pos
      (trackUpdate c o.q (consume o.adv { s with ctx := o.ctx })).2
    rw [e', e]
    rfl

theorem pumpTurn_remaining {c : Cfg} {s t : State} (h : pumpTurn c s = some t) :
    t.remaining = s.remaining := by
  rcases pumpTurn_some h with ⟨-, -, rfl⟩ | ⟨-, -, rfl⟩
  · exact acqStep_remaining c s
  · exact syncSymbol_remaining c s

theorem pumpLoop_remaining (c : Cfg) : ∀ (fuel : Nat) (s : State),
    (pumpLoop c fuel s).remaining = s.remaining
  | 0, _ => rfl
  | fuel + 1, s => by
    unfold pumpLoop
    split
    · rfl
    · rename_i t ht
      rw [pumpLoop_remaining c fuel t, pumpTurn_remaining ht]

theorem route_remaining_le (c : Cfg) (d : Sample) (s : State) :
    (route c d s).remaining ≤ s.remaining := by
  unfold route
  split
  · exact (snrPush_search c d s).remaining_le
  · exact (pumpLoop_remaining c _ (memWrite c d s)).le

theorem deliverOne_remaining_le (c : Cfg) (s : State) (x : Sample) :
    (deliverOne c s x).remaining ≤ s.remaining := by
  cases hr : s.halted with
  | true => rw [deliverOne_halted c x hr]
  | false =>
    have hpush : (decimPush c x s).2.remaining = s.remaining := by
      obtain ⟨_, e⟩ := decimPush_frame c x s
      rw [e]
    by_cases hskip : 0 < s.skip
    · rw [deliverOne_skipped c x hr hskip]
    · have hzero : s.skip = 0 := by bv_omega
      by_cases hp : s.phase = c.m - 1
      · rw [deliverOne_routed c x hr hzero hp, ← hpush]
        exact route_remaining_le c _ _
      · rw [deliverOne_filtered c x hr hzero hp, hpush]

theorem deliver_remaining_le (c : Cfg) : ∀ (xs : List Sample) (s : State),
    (deliver c xs s).remaining ≤ s.remaining
  | [], _ => Nat.le_refl _
  | x :: xs, s => (deliver_remaining_le c xs (deliverOne c s x)).trans (deliverOne_remaining_le c s x)

/-- Since a search that is over stays over, one that goes on after the samples went on through each. -/
theorem deliver_measure (c : Cfg) : ∀ (xs : List Sample) {s : State},
    0 < (deliver c xs s).remaining → MeasureTurn s (deliver c xs s)
  | [], s, _ => MeasureTurn.refl s
  | x :: xs, s, h => by
    have hs : 0 < s.remaining := h.trans_le (deliver_remaining_le c (x :: xs) s)
    exact (deliverOne_measure c x hs).trans (deliver_measure c xs h)

/-! The three parts of O42. -/

/-- A `DELIVER` in a running block's search, after its skip. -/
theorem exec_deliver_skip (ws : List Word) {s : State} (hr : s.halted = false) :
    exec (.deliver ws) s = .next (deliver Config.cfg
      ((ws.drop s.skip.toNat).map (sampleOf Config.cfg.wIn))
      { s with skip := BitVec.ofNat 28 (s.skip.toNat - ws.length) }) := by
  change Host.Outcome.next (deliver Config.cfg (ws.map (sampleOf Config.cfg.wIn)) s) = _
  rw [deliver_skip _ _ hr, List.map_drop, List.length_map]

/-- Where the skip left samples, it is used up. -/
theorem measuring_after_skip {ws : List Word} {s : State} (hr : s.halted = false)
    (hs : 0 < s.remaining) (hne : ws.drop s.skip.toNat ≠ []) :
    Measuring { s with skip := BitVec.ofNat 28 (s.skip.toNat - ws.length) } := by
  have hlen : s.skip.toNat < ws.length := by simpa using hne
  refine ⟨hr, ?_, hs⟩
  change BitVec.ofNat 28 (s.skip.toNat - ws.length) = 0
  rw [Nat.sub_eq_zero_of_le hlen.le]
  rfl

/-- Settles O42: the window under decimated samples, then under a `DELIVER` whose samples the skip and
the filter take first, and last what a `DELIVER` inside a search can write at all. -/
theorem estimatorCycleOf64 : Obligations.EstimatorCycleOf64 := by
  refine ⟨fun c ds s hne => ⟨snrPushes_store c ds, snrPushes_fill c hne⟩, fun ws s hr hs => ?_,
    fun ws s t _ hexec ht => ?_⟩
  · rw [exec_deliver_skip ws hr]
    refine ⟨fun hfill => congrArg Host.Outcome.next ?_,
      fun hne hphase hfill => congrArg Host.Outcome.next ?_⟩
    · by_cases hdrop : ws.drop s.skip.toNat = []
      · simp [hdrop, deliver, decimate]
      · exact deliver_stores _ _ (measuring_after_skip hr hs hdrop) hfill
    · exact deliver_fills _ (measuring_after_skip hr hs (by simpa using hne)) hne hphase hfill
  · cases hexec
    obtain ⟨n, p, l, w, ci, bi, bs, rm, ev, r, f, a, b, -, e⟩ := deliver_measure _ _ ht
    rw [e]
    exact ⟨rfl, rfl, rfl, rfl, rfl, rfl, rfl, rfl, rfl, rfl, rfl, rfl, rfl, rfl, rfl⟩

end Sys2Proof.Machine

end

/-! One evaluation of the correlator, and the zero samples of a dead front end on their way to it
(spec/42_acquisition.md R171, R172, R175): O48, O49. -/
section

namespace Sys2Proof.Machine

/-! `ACQ.STEP` by what the correlator answers and how long the run is (R171, R172). -/

section Evaluation

variable {c : Cfg} {s : State}

theorem acqStep_miss (he : (c.acqCorr (s.dbuf.take c.acqWin)).e ≤ c.acqThresh) :
    acqStep c s = { s with
      acqRun := 0, lock := .unlocked, used := s.used + c.acqAdv, dbuf := s.dbuf.drop c.acqAdv } := by
  have hmiss : ¬ c.acqThresh < (c.acqCorr (memRead 0 c.acqWin s)).e := Nat.not_lt_of_le he
  rw [acqStep, if_neg hmiss]
  rfl

theorem acqStep_extend (he : c.acqThresh < (c.acqCorr (s.dbuf.take c.acqWin)).e)
    (hrun : s.acqRun + 1 < c.acqSustain) :
    acqStep c s = { s with
      acqF := (c.acqCorr (s.dbuf.take c.acqWin)).f, acqT := (c.acqCorr (s.dbuf.take c.acqWin)).t,
      acqRun := s.acqRun + 1, lock := .acquiring,
      used := s.used + c.acqAdv, dbuf := s.dbuf.drop c.acqAdv } := by
  have hcross : c.acqThresh < (c.acqCorr (memRead 0 c.acqWin s)).e := he
  have hopen : ¬ s.acqRun + 1 ≥ c.acqSustain := Nat.not_le_of_lt hrun
  rw [acqStep, if_pos hcross, if_neg hopen]
  rfl

theorem acqStep_lock (he : c.acqThresh < (c.acqCorr (s.dbuf.take c.acqWin)).e)
    (hrun : c.acqSustain ≤ s.acqRun + 1) :
    acqStep c s = { s with
      acqF := (c.acqCorr (s.dbuf.take c.acqWin)).f, acqT := (c.acqCorr (s.dbuf.take c.acqWin)).t,
      acqRun := 0, lock := .locked, track := .entered, lossRun := 0,
      ctx := c.syncInit (c.acqCorr (s.dbuf.take c.acqWin)).f (c.acqCorr (s.dbuf.take c.acqWin)).t,
      used := s.used + (c.acqCorr (s.dbuf.take c.acqWin)).t,
      dbuf := s.dbuf.drop (c.acqCorr (s.dbuf.take c.acqWin)).t } := by
  have hcross : c.acqThresh < (c.acqCorr (memRead 0 c.acqWin s)).e := he
  rw [acqStep, if_pos hcross, if_pos hrun]
  rfl

/-- Settles O48: a miss, a longer run, a lock. -/
theorem acquisitionStepOutcomes : Obligations.AcquisitionStepOutcomes :=
  fun _ _ => ⟨acqStep_miss, acqStep_extend, acqStep_lock⟩

end Evaluation

/-! Zero words give zero samples, and these give zero filter outputs (R93, R121, R175). -/

theorem sampleOf_zero (n : Nat) : sampleOf n 0 = Sample.zero := by
  simp [sampleOf, sext, Sample.zero]

theorem firSum_zeros (h : List Int) {xs : List Int} (hxs : ∀ v ∈ xs, v = 0) : firSum h xs = 0 := by
  rw [firSum_eq_sum]
  refine Finset.sum_eq_zero fun k _ => ?_
  have hk : xs.getD k 0 = 0 := by
    rw [List.eq_replicate_of_mem hxs, List.getD_eq_getElem?_getD,
      List.getElem?_getD_replicate_default_eq]
  rw [hk, mul_zero]

theorem firOutput_zeros {c : Cfg} (hq : c.qD 0 = 0) {w : List Sample}
    (hw : ∀ x ∈ w, x = Sample.zero) : firOutput c w = Sample.zero := by
  have hi : firSum c.h (w.map Sample.i) = 0 :=
    firSum_zeros _ (List.forall_mem_map.2 fun x hx => by rw [hw x hx]; rfl)
  have hqpart : firSum c.h (w.map Sample.q) = 0 :=
    firSum_zeros _ (List.forall_mem_map.2 fun x hx => by rw [hw x hx]; rfl)
  rw [firOutput, hi, hqpart, hq]
  rfl

end Sys2Proof.Machine

namespace Sys2Proof.Safety

open Sys2Proof.Machine

/-- A running block in decode mode behind a dead front end: its stores of samples hold zeros only, no
evaluation has crossed the threshold, and `evt` is all it has emitted (R175). -/
structure DeadFed (evt : List Word) (s : State) : Prop where
  running : s.halted = false
  decoding : s.remaining = 0
  unlocked : s.lock = .unlocked
  noRun : s.acqRun = 0
  silent : s.evt = evt
  hist : ∀ x ∈ s.hist, x = Sample.zero
  dbuf : ∀ x ∈ s.dbuf, x = Sample.zero

section

variable {c : Cfg} {evt : List Word} {s t : State}

theorem DeadFed.fits (h : DeadFed evt s) (n : Nat) : ∀ x ∈ s.dbuf, x.Fits n :=
  fun x hx => h.dbuf x hx ▸ zero_fits n

/-- The correlator finds no energy in a window of zeros (R10, R175). -/
theorem DeadFed.noEnergy (h : DeadFed evt s) (ho : c.acqWin ≤ occupancy s) :
    (c.acqCorr (s.dbuf.take c.acqWin)).e = 0 := by
  have hwin : s.dbuf.take c.acqWin = List.replicate c.acqWin Sample.zero :=
    List.eq_replicate_iff.2
      ⟨List.length_take_of_le ho, fun x hx => h.dbuf x (List.mem_of_mem_take hx)⟩
  rw [hwin, c.acqCorr_zeros]

theorem DeadFed.acqStep (h : DeadFed evt s) (ho : c.acqWin ≤ occupancy s) :
    DeadFed evt (acqStep c s) := by
  rw [acqStep_miss ((h.noEnergy ho).trans_le (Nat.zero_le _))]
  exact ⟨h.running, h.decoding, rfl, rfl, h.silent, h.hist,
    fun x hx => h.dbuf x (List.mem_of_mem_drop hx)⟩

theorem DeadFed.pumpTurn (h : DeadFed evt s) (ht : pumpTurn c s = some t) : DeadFed evt t := by
  rcases pumpTurn_some ht with ⟨-, ho, rfl⟩ | ⟨hl, -, -⟩
  · exact h.acqStep ho
  · rw [h.unlocked] at hl
    cases hl

theorem DeadFed.pump (h : DeadFed evt s) : DeadFed evt (pump c s) :=
  pumpLoop_induct (fun _ _ _ hs ht => hs.pumpTurn ht) _ s (h.fits c.wD) h

theorem DeadFed.memWrite (h : DeadFed evt s) : DeadFed evt (memWrite c Sample.zero s) :=
  ⟨h.running, h.decoding, h.unlocked, h.noRun, h.silent, h.hist,
    List.forall_mem_append.2 ⟨h.dbuf, List.forall_mem_singleton.2 rfl⟩⟩

theorem DeadFed.route (h : DeadFed evt s) : DeadFed evt (route c Sample.zero s) := by
  rw [Machine.route, if_neg h.decoding.not_gt]
  exact h.memWrite.pump

theorem DeadFed.hist_cons (h : DeadFed evt s) : ∀ x ∈ Sample.zero :: s.hist, x = Sample.zero :=
  List.forall_mem_cons.2 ⟨rfl, h.hist⟩

theorem DeadFed.decimPush (h : DeadFed evt s) : DeadFed evt (decimPush c Sample.zero s).2 := by
  obtain ⟨p, e⟩ := decimPush_frame c Sample.zero s
  rw [e]
  exact ⟨h.running, h.decoding, h.unlocked, h.noRun, h.silent,
    fun x hx => h.hist_cons x (List.mem_of_mem_take hx), h.dbuf⟩

/-- One zero sample, by the cases of R244: the skip takes it, or the filter, or it completes a group. -/
theorem DeadFed.deliverOne (hq : c.qD 0 = 0) (h : DeadFed evt s) :
    DeadFed evt (deliverOne c s Sample.zero) := by
  by_cases hskip : 0 < s.skip
  · rw [deliverOne_skipped c _ h.running hskip]
    exact ⟨h.running, h.decoding, h.unlocked, h.noRun, h.silent, h.hist, h.dbuf⟩
  · have hzero : s.skip = 0 := by bv_omega
    by_cases hp : s.phase = c.m - 1
    · have hout : firOutput c (Sample.zero :: s.hist) = Sample.zero :=
        firOutput_zeros hq h.hist_cons
      rw [deliverOne_routed c _ h.running hzero hp, hout]
      exact h.decimPush.route
    · rw [deliverOne_filtered c _ h.running hzero hp]
      exact h.decimPush

theorem DeadFed.deliver (hq : c.qD 0 = 0) (n : Nat) : ∀ {s : State}, DeadFed evt s →
    DeadFed evt (deliver c (List.replicate n Sample.zero) s) := by
  induction n with
  | zero => exact fun h => h
  | succ n ih =>
    intro s h
    rw [List.replicate_succ, deliver_cons]
    exact ih (h.deliverOne hq)

end

/-- Settles O49: each zero sample keeps the block as one behind a dead front end. -/
theorem deadInputStaysUnlocked : Obligations.DeadInputStaysUnlocked := by
  intro c n s hq running decoding unlocked noRun hist dbuf
  have hstart : DeadFed s.evt s := ⟨running, decoding, unlocked, noRun, rfl, hist, dbuf⟩
  have hend : DeadFed s.evt
      (deliver c ((List.replicate n 0).map (sampleOf c.wIn)) s) := by
    rw [List.map_replicate, sampleOf_zero]
    exact hstart.deliver hq n
  exact ⟨_, rfl, hend.unlocked, hend.noRun, hend.silent⟩

end Sys2Proof.Safety

end

/-! The judgement of a symbol's quality, the loss of lock, and the transitions of the pair of lock and
tracking state (spec/43_sync_demod.md R186, R188, R189, R192): O50 to O53. -/
section

namespace Sys2Proof.Machine

/-! `TRACK.UPDATE` by the quality and how long the loss run is (R188). -/

section Judgement

variable {c : Cfg} {q : Int} {s : State}

theorem trackUpdate_stable (hq : c.qDegrade ≤ q) :
    trackUpdate c q s = (false, { s with track := .stable, lossRun := 0 }) := by
  rw [trackUpdate, if_pos hq]

theorem trackUpdate_degraded (hdegrade : q < c.qDegrade) (hloss : c.qLoss ≤ q) :
    trackUpdate c q s = (false, { s with track := .degraded, lossRun := 0 }) := by
  rw [trackUpdate, if_neg hdegrade.not_ge, if_neg hloss.not_gt]

/-- Quality below `Q_LOSS` is below `Q_DEGRADE` too (R10). -/
theorem trackUpdate_extend (hq : q < c.qLoss) (hrun : s.lossRun + 1 < c.lossSustain) :
    trackUpdate c q s = (false, { s with track := .degraded, lossRun := s.lossRun + 1 }) := by
  rw [trackUpdate, if_neg (hq.trans_le c.qLoss_le).not_ge, if_pos hq, if_neg hrun.not_ge]

theorem trackUpdate_lost (hq : q < c.qLoss) (hrun : c.lossSustain ≤ s.lossRun + 1) :
    trackUpdate c q s = (true, { s with track := .degraded }) := by
  rw [trackUpdate, if_neg (hq.trans_le c.qLoss_le).not_ge, if_pos hq, if_pos hrun]

end Judgement

/-- Settles O50: good quality, degraded quality, a longer loss run, a complete one. -/
theorem trackUpdateOutcomes : Obligations.TrackUpdateOutcomes :=
  fun _ _ _ => ⟨trackUpdate_stable, trackUpdate_degraded, trackUpdate_extend, trackUpdate_lost⟩

@[simp] theorem trackUpdate_lock (c : Cfg) (q : Int) (s : State) :
    (trackUpdate c q s).2.lock = s.lock := by
  obtain ⟨_, _, e, -, -⟩ := trackUpdate_frame c q s
  rw [e]

/-- Every judgement leaves `entered` and `none` behind, one that loses the lock too (R188). -/
theorem trackUpdate_track (c : Cfg) (q : Int) (s : State) :
    (trackUpdate c q s).2.track = .stable ∨ (trackUpdate c q s).2.track = .degraded := by
  rcases le_or_gt c.qDegrade q with hgood | hdegrade
  · rw [trackUpdate_stable hgood]
    exact .inl rfl
  · refine .inr ?_
    rcases le_or_gt c.qLoss q with hkept | hloss
    · rw [trackUpdate_degraded hdegrade hkept]
    · rcases lt_or_ge (s.lossRun + 1) c.lossSustain with hshort | hfull
      · rw [trackUpdate_extend hloss hshort]
      · rw [trackUpdate_lost hloss hfull]

/-! `FRAME.SYMBOL` leaves the pair alone (R212). -/

@[simp] theorem frameSymbol_lock (c : Cfg) (sym : Symbol) (pos : Option Nat) (s : State) :
    (frameSymbol c sym pos s).lock = s.lock := by
  obtain ⟨_, _, _, _, e, -⟩ := frameSymbol_frame c sym pos s
  rw [e]

@[simp] theorem frameSymbol_track (c : Cfg) (sym : Symbol) (pos : Option Nat) (s : State) :
    (frameSymbol c sym pos s).track = s.track := by
  obtain ⟨_, _, _, _, e, -⟩ := frameSymbol_frame c sym pos s
  rw [e]

/-- Settles O51: the read is of the front of the buffer (R63) and the advance leaves it (R64). -/
theorem symbolPeriodOutcomes : Obligations.SymbolPeriodOutcomes := fun _ _ => rfl

/-- Settles O52: the writes of `SYNC.LOSS`, of `FRAME.RESET` in it (R216), and the counter's (R287). -/
theorem lossReturnsToAcquisition : Obligations.LossReturnsToAcquisition := fun _ => rfl

theorem syncLoss_pair (s : State) :
    (syncLoss s).lock = .unlocked ∧ (syncLoss s).track = .none ∧ (syncLoss s).frmFill = 0 ∧
      (syncLoss s).acqRun = 0 := by
  rw [lossReturnsToAcquisition s]
  exact ⟨rfl, rfl, rfl, rfl⟩

/-! The rows of the transition table, by the step that the turn runs (R192). -/

theorem syncSymbol_transition (c : Cfg) {s : State} (hl : s.lock = .locked) :
    let t := syncSymbol c s
    (t.lock = .locked ∧ (t.track = .stable ∨ t.track = .degraded)) ∨
      (t.lock = .unlocked ∧ t.track = .none ∧ t.frmFill = 0 ∧ t.acqRun = 0) := by
  dsimp only
  rw [symbolPeriodOutcomes c s]
  split
  · exact .inr (syncLoss_pair _)
  · rw [frameSymbol_lock, frameSymbol_track, trackUpdate_lock]
    exact .inl ⟨hl, trackUpdate_track c _ _⟩

theorem acqStep_transition (c : Cfg) {s : State} (htrack : s.track = .none) :
    let t := acqStep c s
    (t.lock = .locked ∧ t.track = .entered) ∨ (t.lock = .acquiring ∧ t.track = .none) ∨
      (t.lock = .unlocked ∧ t.track = .none) := by
  dsimp only
  rcases le_or_gt (c.acqCorr (s.dbuf.take c.acqWin)).e c.acqThresh with hmiss | hcross
  · rw [acqStep_miss hmiss]
    exact .inr (.inr ⟨rfl, htrack⟩)
  · rcases lt_or_ge (s.acqRun + 1) c.acqSustain with hopen | hfull
    · rw [acqStep_extend hcross hopen]
      exact .inr (.inl ⟨rfl, htrack⟩)
    · rw [acqStep_lock hcross hfull]
      exact .inl ⟨rfl, rfl⟩

/-- Settles O53: a turn is a symbol period of a locked block or an evaluation of one that is not, and
the latter begins without a tracking state. -/
theorem lockTransitionTable : Obligations.LockTransitionTable := by
  intro c s t hpair hturn
  rcases Safety.pumpTurn_some hturn with ⟨hunlocked, -, rfl⟩ | ⟨hlocked, -, rfl⟩
  · exact .inr ⟨hunlocked, acqStep_transition c (hpair.2 hunlocked)⟩
  · exact .inl ⟨hlocked, syncSymbol_transition c hlocked⟩

end Sys2Proof.Machine

end

/-! Proofs about Frame's placement of a symbol (spec/44_frame.md R212, R213, R216, R218): O56, O57. -/

section

namespace Sys2Proof.Machine

theorem length_frmBuf_concat (s : State) (sym : Symbol) :
    (s.frmBuf ++ [sym]).length = s.frmFill + 1 :=
  List.length_append

/-- Settles O56, by the branches of `FRAME.SYMBOL` and whether the store they leave is a frame. -/
theorem frameSymbolPlacement : Obligations.FrameSymbolPlacement := by
  intro c sym p s
  have hlen := length_frmBuf_concat s sym
  refine ⟨rfl, ?next, ?last, ?restart, ?single, frameSymbol_gap c sym⟩
  case next =>
    rintro rfl hopen
    exact (frameSymbol_next c sym s).trans (frameStore_partial s (hlen.trans_ne hopen))
  case last =>
    rintro rfl hlast
    exact (frameSymbol_next c sym s).trans (frameStore_full s (hlen.trans hlast))
  case restart =>
    rintro hp rfl hlong
    exact (frameSymbol_restart c sym hp).trans (frameStore_partial s hlong.symm)
  case single =>
    rintro hp rfl hone
    exact (frameSymbol_restart c sym hp).trans (frameStore_full s hone.symm)

/-- Settles O57: a symbol that is not the next and last one writes the store only, so it moves neither
`EVT` nor a counter. -/
theorem decodeOnlyAfterCompleteFrame : Obligations.DecodeOnlyAfterCompleteFrame := by
  intro c sym pos s hfill hmoved
  rcases frameSymbol_cases sym pos hfill with ⟨⟨hpos, hlast⟩, hcomplete⟩ | ⟨-, buf, -, hstore⟩
  · exact ⟨hpos, hlast, hcomplete⟩
  · simp [hstore] at hmoved

end Sys2Proof.Machine

end

/-! Proofs about the deinterleaver (spec/45_decode.md R227): O59. -/

section

namespace Sys2Proof.Machine

theorem map_getD_range_length {α : Type} (l : List α) (d : α) :
    (List.range l.length).map (fun p => l.getD p d) = l := by
  apply List.ext_getElem
  · simp
  · intro i _ hi
    simp [List.getElem?_eq_getElem hi]

/-- Reading the positions in the interleaver's order permutes reading them in their own order, which is
the input. -/
theorem deinterleave_perm (c : Cfg) (k : Kind) (l : List Soft) : (deinterleave c k l).Perm l :=
  calc
    (deinterleave c k l).Perm ((List.range l.length).map fun p => l.getD p 0) :=
      (c.interleaver_perm k l.length).map _
    _ = l := map_getD_range_length l 0

/-- Settles O59: the positions are those of the block's interleaver, which takes the kind and the length
only. -/
theorem deinterleaveIsPermutation : Obligations.DeinterleaveIsPermutation := by
  intro c k n
  refine ⟨c.interleaver k n, c.interleaver_perm k n, ?_⟩
  rintro l rfl
  exact ⟨rfl, deinterleave_perm c k l⟩

end Sys2Proof.Machine

end

/-! The words on CMD are read by the decoder alone: every operation of the block does the same whatever
stands on CMD, and leaves it there (spec/30_encoding.md R90, spec/46_orchestrator_host.md R240). -/

section

namespace Sys2Proof.Machine

/-- The state with other words on CMD. -/
def withCmd (ws : List Word) (s : State) : State := { s with cmd := ws }

/-! The channels and the fault (R249, R282). -/

theorem takeRet_withCmd (ws : List Word) (s : State) :
    takeRet (withCmd ws s) = ((takeRet s).1, withCmd ws (takeRet s).2) := by
  cases h : s.ret with
  | nil => rw [takeRet_nil h, takeRet_nil (s := withCmd ws s) h]; rfl
  | cons r rest => rw [takeRet_cons h, takeRet_cons (s := withCmd ws s) h]; rfl

theorem call_withCmd (ws : List Word) (e : Instr) (s : State) :
    call e (withCmd ws s) = ((call e s).1, withCmd ws (call e s).2) :=
  takeRet_withCmd ws (post e s)

theorem raiseFatal_withCmd (ws : List Word) (code : FatalCode) (s : State) :
    raiseFatal code (withCmd ws s) = withCmd ws (raiseFatal code s) := by
  simp only [raiseFatal, apply_ite (withCmd ws)]
  rfl

theorem callOrFail_withCmd (ws : List Word) (e : Instr) (s : State) :
    callOrFail e (withCmd ws s) = withCmd ws (callOrFail e s) := by
  simp only [callOrFail, call_withCmd, raiseFatal_withCmd, apply_ite (withCmd ws)]

theorem applyGainThenReset_withCmd (ws : List Word) (g : Word) (s : State) :
    applyGainThenReset g (withCmd ws s) = withCmd ws (applyGainThenReset g s) := by
  simp only [applyGainThenReset, call_withCmd, raiseFatal_withCmd, callOrFail_withCmd,
    apply_ite (withCmd ws)]

/-! The estimator and the controller (R141 to R151). -/

theorem gainCommit_withCmd (ws : List Word) (s : State) :
    gainCommit (withCmd ws s) = withCmd ws (gainCommit s) := by
  have hcalls := applyGainThenReset_withCmd ws (gainAt s s.bestIdx)
    { s with curIdx := s.bestIdx, remaining := 0 }
  simp only [gainCommit, apply_ite (withCmd ws), ← hcalls]
  rfl

theorem gainAdvance_withCmd (ws : List Word) (s : State) :
    gainAdvance (withCmd ws s) = withCmd ws (gainAdvance s) :=
  applyGainThenReset_withCmd ws _ { s with curIdx := s.curIdx + 1, remaining := s.remaining - 1 }

theorem gainDecide_withCmd (ws : List Word) (cont : Bool) (s : State) :
    gainDecide cont (withCmd ws s) = withCmd ws (gainDecide cont s) := by
  simp only [gainDecide, gainCommit_withCmd, gainAdvance_withCmd, apply_ite (withCmd ws)]
  rfl

theorem recordBest_withCmd (ws : List Word) (fig : SnrT) (s : State) :
    recordBest fig (withCmd ws s) = withCmd ws (recordBest fig s) := by
  simp only [recordBest, apply_ite (withCmd ws)]
  rfl

theorem askHook_withCmd (ws : List Word) (fig : SnrT) (s : State) :
    askHook fig (withCmd ws s) = withCmd ws (askHook fig s) := by
  simp only [askHook, call_withCmd, raiseFatal_withCmd, gainDecide_withCmd, apply_ite (withCmd ws)]
  rfl

theorem gainStep_withCmd (ws : List Word) (c : Cfg) (fig : SnrT) (s : State) :
    gainStep c fig (withCmd ws s) = withCmd ws (gainStep c fig s) := by
  simp only [gainStep, recordBest_withCmd, askHook_withCmd, gainDecide_withCmd,
    apply_ite (withCmd ws)]
  rfl

theorem snrPush_withCmd (ws : List Word) (c : Cfg) (d : Sample) (s : State) :
    snrPush c d (withCmd ws s) = withCmd ws (snrPush c d s) := by
  have hstep := gainStep_withCmd ws c (snrEstimate c (s.snrWin ++ [d])) { s with snrWin := [] }
  simp only [snrPush, apply_ite (withCmd ws), ← hstep]
  rfl

/-! Decode, Frame, Synchronization and Acquisition (R171, R186 to R189, R212, R213, R226). -/

theorem decRegion_withCmd (ws : List Word) (c : Cfg) (s : State) (r : Region) :
    decRegion c (withCmd ws s) r = withCmd ws (decRegion c s r) := by
  unfold decRegion
  split <;> rfl

theorem decRegions_withCmd (ws : List Word) (c : Cfg) : ∀ (rs : List Region) (s : State),
    rs.foldl (decRegion c) (withCmd ws s) = withCmd ws (rs.foldl (decRegion c) s)
  | [], _ => rfl
  | r :: rs, s => by
    rw [List.foldl_cons, List.foldl_cons, decRegion_withCmd, decRegions_withCmd ws c rs]

theorem frameComplete_withCmd (ws : List Word) (c : Cfg) (s : State) :
    frameComplete c (withCmd ws s) = withCmd ws (frameComplete c s) := by
  have hregions := decRegions_withCmd ws c (c.frameSplit s.frmBuf) { s with frmBuf := [] }
  simp only [frameComplete, apply_ite (withCmd ws), ← hregions]
  rfl

theorem frameStore_withCmd (ws : List Word) (c : Cfg) (syms : List Symbol) (s : State) :
    frameStore c syms (withCmd ws s) = withCmd ws (frameStore c syms s) := by
  have hcomplete := frameComplete_withCmd ws c { s with frmBuf := syms }
  simp only [frameStore, apply_ite (withCmd ws), ← hcomplete]
  rfl

theorem frameSymbol_withCmd (ws : List Word) (c : Cfg) (sym : Symbol) (pos : Option Nat)
    (s : State) :
    frameSymbol c sym pos (withCmd ws s) = withCmd ws (frameSymbol c sym pos s) := by
  cases pos with
  | none => rfl
  | some p =>
    simp only [frameSymbol, frameStore_withCmd, apply_ite (withCmd ws)]
    rfl

theorem trackUpdate_withCmd (ws : List Word) (c : Cfg) (q : Int) (s : State) :
    trackUpdate c q (withCmd ws s) =
      ((trackUpdate c q s).1, withCmd ws (trackUpdate c q s).2) := by
  change _ = Prod.map id (withCmd ws) (trackUpdate c q s)
  simp only [trackUpdate, apply_ite (Prod.map id (withCmd ws))]
  rfl

/-- What `SYNC.SYMBOL` does with its judgement: it loses the lock or passes the symbol on (R186). -/
def judged (c : Cfg) (o : SyncResult) (u : Bool × State) : State :=
  if u.1 then syncLoss u.2 else frameSymbol c o.sym o.pos u.2

theorem syncSymbol_eq_judged (c : Cfg) (s : State) : syncSymbol c s =
    let o := c.syncStep s.ctx (memRead 0 c.symMax s)
    judged c o (trackUpdate c o.q (consume o.adv { s with ctx := o.ctx })) := rfl

theorem judged_withCmd (ws : List Word) (c : Cfg) (o : SyncResult) (lost : Bool) (s : State) :
    judged c o (lost, withCmd ws s) = withCmd ws (judged c o (lost, s)) := by
  simp only [judged, frameSymbol_withCmd, apply_ite (withCmd ws)]
  rfl

theorem syncSymbol_withCmd (ws : List Word) (c : Cfg) (s : State) :
    syncSymbol c (withCmd ws s) = withCmd ws (syncSymbol c s) := by
  have hjudged (o : SyncResult) :
      judged c o (trackUpdate c o.q (withCmd ws (consume o.adv { s with ctx := o.ctx }))) =
        withCmd ws (judged c o (trackUpdate c o.q (consume o.adv { s with ctx := o.ctx }))) := by
    rw [trackUpdate_withCmd, judged_withCmd]
  rw [syncSymbol_eq_judged, syncSymbol_eq_judged]
  exact hjudged (c.syncStep s.ctx (memRead 0 c.symMax s))

theorem acqStep_withCmd (ws : List Word) (c : Cfg) (s : State) :
    acqStep c (withCmd ws s) = withCmd ws (acqStep c s) := by
  simp only [acqStep, apply_ite (withCmd ws)]
  rfl

/-! The orchestrator (R244 to R246). -/

theorem pumpTurn_withCmd (ws : List Word) (c : Cfg) (s : State) :
    pumpTurn c (withCmd ws s) = (pumpTurn c s).map (withCmd ws) := by
  simp only [pumpTurn, acqStep_withCmd, syncSymbol_withCmd, apply_ite (Option.map (withCmd ws))]
  rfl

theorem pumpLoop_withCmd (ws : List Word) (c : Cfg) : ∀ (fuel : Nat) (s : State),
    pumpLoop c fuel (withCmd ws s) = withCmd ws (pumpLoop c fuel s)
  | 0, _ => rfl
  | fuel + 1, s => by
    have hturn := pumpTurn_withCmd ws c s
    cases ht : pumpTurn c s with
    | none => simp only [pumpLoop, hturn, ht, Option.map_none]
    | some t => simp only [pumpLoop, hturn, ht, Option.map_some, pumpLoop_withCmd ws c fuel t]

theorem route_withCmd (ws : List Word) (c : Cfg) (d : Sample) (s : State) :
    route c d (withCmd ws s) = withCmd ws (route c d s) := by
  have hpump : pump c (memWrite c d (withCmd ws s)) = withCmd ws (pump c (memWrite c d s)) :=
    pumpLoop_withCmd ws c _ (memWrite c d s)
  simp only [route, snrPush_withCmd, hpump, apply_ite (withCmd ws)]
  rfl

theorem decimPush_withCmd (ws : List Word) (c : Cfg) (x : Sample) (s : State) :
    decimPush c x (withCmd ws s) = ((decimPush c x s).1, withCmd ws (decimPush c x s).2) := by
  change _ = Prod.map id (withCmd ws) (decimPush c x s)
  simp only [decimPush, apply_ite (Prod.map id (withCmd ws))]
  rfl

theorem deliverOne_withCmd (ws : List Word) (c : Cfg) (x : Sample) (s : State) :
    deliverOne c (withCmd ws s) x = withCmd ws (deliverOne c s x) := by
  cases hr : s.halted with
  | true => rw [deliverOne_halted c x hr, deliverOne_halted (s := withCmd ws s) c x hr]
  | false =>
    by_cases hskip : 0 < s.skip
    · rw [deliverOne_skipped c x hr hskip, deliverOne_skipped (s := withCmd ws s) c x hr hskip]
      rfl
    · have hzero : s.skip = 0 := by bv_omega
      by_cases hp : s.phase = c.m - 1
      · rw [deliverOne_routed c x hr hzero hp, deliverOne_routed (s := withCmd ws s) c x hr hzero hp,
          decimPush_withCmd, route_withCmd]
        rfl
      · rw [deliverOne_filtered c x hr hzero hp,
          deliverOne_filtered (s := withCmd ws s) c x hr hzero hp, decimPush_withCmd]

theorem deliver_withCmd (ws : List Word) (c : Cfg) : ∀ (xs : List Sample) (s : State),
    deliver c xs (withCmd ws s) = withCmd ws (deliver c xs s)
  | [], _ => rfl
  | x :: xs, s => by
    rw [deliver_cons, deliver_cons, deliverOne_withCmd, deliver_withCmd ws c xs]

end Sys2Proof.Machine

end

/-! Two deliveries one after the other, as steps of the machine (spec/46_orchestrator_host.md R240,
R244): O26. -/

section

namespace Sys2Proof.Machine

/-- A run takes its first step and goes on from there. -/
theorem run_succ_of_step {s t : State} (k : Nat) (h : step s = .next t) :
    Host.Core.run core (k + 1) s = Host.Core.run core k t := by
  have hcore : core.step s = .next t := h
  simp only [Host.Core.run, hcore]

/-- A step takes a `DELIVER` at the front of CMD and leaves the words after it (R240, R244). -/
theorem step_deliver {ws : List Word} (rest : List Word) (s : State) (h : ws.length < 2 ^ 28) :
    step (withCmd (encode (.deliver ws) ++ rest) s) =
      .next (withCmd rest (deliver Config.cfg (ws.map (sampleOf Config.cfg.wIn)) s)) := by
  have hdecode := commandsDecodeBack (.deliver ws) rest rfl (decide_eq_true h)
  rw [← deliver_withCmd]
  exact stepRunsDecodedCommand.1 (withCmd (encode (.deliver ws) ++ rest) s) _ rest hdecode

/-- Settles O26: the block never looks at what else stands on CMD, so the second `DELIVER` begins where
the first one ends. -/
theorem deliverySplitsAnywhere : Obligations.DeliverySplitsAnywhere := by
  intro a b rest s hlen
  have hboth : (a ++ b).length < 2 ^ 28 := by rwa [List.length_append]
  have hfirst := step_deliver (encode (.deliver b) ++ rest) s (ws := a) (by omega)
  have hsecond := step_deliver rest (deliver Config.cfg (a.map (sampleOf Config.cfg.wIn)) s)
    (ws := b) (by omega)
  have htogether := step_deliver rest s hboth
  rw [List.map_append, deliver_append] at htogether
  rw [List.append_assoc]
  calc Host.Core.run core 2 (withCmd (encode (.deliver a) ++ (encode (.deliver b) ++ rest)) s)
    _ = Host.Core.run core 1 _ := run_succ_of_step 1 hfirst
    _ = Host.Core.run core 0 _ := run_succ_of_step 0 hsecond
    _ = Host.Core.run core 1 (withCmd (encode (.deliver (a ++ b)) ++ rest) s) :=
      (run_succ_of_step 0 htogether).symm

end Sys2Proof.Machine

end

/-! A `DELIVER` outside a search: the samples pass the filter, and the pump writes what is behind it
(spec/40_decimation.md R121, R129; spec/46_orchestrator_host.md R244 to R246): O25. -/

section

namespace Sys2Proof.Machine

open Sys2Proof.Safety

/-! What the pump can write, whatever the buffer holds. -/

/-- The fields of the buffer and of what is behind it, the counters and EVT, which grows. -/
def PumpWrites (s t : State) : Prop :=
  ∃ d u lk ar af a cx tk lr fb fe pe ll ws, t = { s with
    dbuf := d, used := u, lock := lk, acqRun := ar, acqF := af, acqT := a, ctx := cx, track := tk,
    lossRun := lr, frmBuf := fb, frameErrCnt := fe, payloadErrCnt := pe, lockLossCnt := ll,
    evt := s.evt ++ ws }

/-- A write that posts nothing and counts no failed frame or payload. -/
theorem PumpWrites.silent {s : State} {d : List Sample} {u : Nat} {lk : LockState} {ar : Nat}
    {af : FreqOff} {a : Nat} {cx : SyncCtx} {tk : TrackState} {lr : Nat} {fb : List Symbol}
    {ll : BitVec 32} : PumpWrites s { s with
      dbuf := d, used := u, lock := lk, acqRun := ar, acqF := af, acqT := a, ctx := cx, track := tk,
      lossRun := lr, frmBuf := fb, lockLossCnt := ll } :=
  ⟨d, u, lk, ar, af, a, cx, tk, lr, fb, s.frameErrCnt, s.payloadErrCnt, ll, [], by
    rw [List.append_nil]⟩

theorem PumpWrites.refl (s : State) : PumpWrites s s := .silent

theorem PumpWrites.trans {s t u : State} (h1 : PumpWrites s t) (h2 : PumpWrites t u) :
    PumpWrites s u := by
  obtain ⟨_, _, _, _, _, _, _, _, _, _, _, _, _, w1, rfl⟩ := h1
  obtain ⟨_, _, _, _, _, _, _, _, _, _, _, _, _, w2, rfl⟩ := h2
  exact ⟨_, _, _, _, _, _, _, _, _, _, _, _, _, w1 ++ w2, by rw [List.append_assoc]⟩

theorem memWrite_writes (c : Cfg) (d : Sample) (s : State) : PumpWrites s (memWrite c d s) :=
  .silent

theorem acqStep_writes (c : Cfg) (s : State) : PumpWrites s (acqStep c s) := by
  unfold acqStep
  dsimp only
  split
  · split
    · exact .silent
    · exact .silent
  · exact .silent

theorem frameSymbol_writes (c : Cfg) (sym : Symbol) (pos : Option Nat) (s : State) :
    PumpWrites s (frameSymbol c sym pos s) := by
  obtain ⟨_, _, _, _, e, -⟩ := frameSymbol_frame c sym pos s
  rw [e]
  exact ⟨_, _, _, _, _, _, _, _, _, _, _, _, _, _, rfl⟩

theorem judged_writes (c : Cfg) (o : SyncResult) (u : Bool × State) :
    PumpWrites u.2 (judged c o u) := by
  unfold judged
  split
  · exact .silent
  · exact frameSymbol_writes c o.sym o.pos u.2

theorem syncSymbol_writes (c : Cfg) (s : State) : PumpWrites s (syncSymbol c s) := by
  have hupdate (o : SyncResult) :
      PumpWrites s (trackUpdate c o.q (consume o.adv { s with ctx := o.ctx })).2 := by
    obtain ⟨_, _, e, -, -⟩ := trackUpdate_frame c o.q (consume o.adv { s with ctx := o.ctx })
    rw [e]
    exact .silent
  rw [syncSymbol_eq_judged]
  exact (hupdate _).trans (judged_writes c _ _)

theorem pumpTurn_writes {c : Cfg} {s t : State} (h : pumpTurn c s = some t) : PumpWrites s t := by
  rcases pumpTurn_some h with ⟨-, -, rfl⟩ | ⟨-, -, rfl⟩
  · exact acqStep_writes c s
  · exact syncSymbol_writes c s

theorem pumpLoop_writes (c : Cfg) : ∀ (fuel : Nat) (s : State), PumpWrites s (pumpLoop c fuel s)
  | 0, s => PumpWrites.refl s
  | fuel + 1, s => by
    cases ht : pumpTurn c s with
    | none => rw [pumpLoop_rest _ ht]; exact PumpWrites.refl s
    | some t => rw [pumpLoop_turn fuel ht]; exact (pumpTurn_writes ht).trans (pumpLoop_writes c fuel t)

/-! The filter does not read what the pump writes. -/

theorem PumpWrites.decimPush {s t : State} (c : Cfg) (x : Sample) (h : PumpWrites s t) :
    PumpWrites (decimPush c x s).2 (decimPush c x t).2 := by
  obtain ⟨_, _, _, _, _, _, _, _, _, _, _, _, _, _, rfl⟩ := h
  unfold Machine.decimPush
  dsimp only
  split <;> exact ⟨_, _, _, _, _, _, _, _, _, _, _, _, _, _, rfl⟩

theorem PumpWrites.decimate (c : Cfg) : ∀ (xs : List Sample) {s t : State}, PumpWrites s t →
    PumpWrites (decimate c xs s).2 (decimate c xs t).2
  | [], _, _, h => h
  | x :: xs, _, _, h => (h.decimPush c x).decimate c xs

/-- The history after a stream: its newest samples, then those that were there (R25). -/
theorem decimate_hist_from (c : Cfg) (xs : List Sample) {s : State}
    (h : s.hist.length ≤ c.nTaps - 1) :
    (decimate c xs s).2.hist = (xs.reverse ++ s.hist).take (c.nTaps - 1) := by
  induction xs using List.reverseRecOn with
  | nil => exact (List.take_of_length_le h).symm
  | append_singleton xs x ih =>
    rw [decimate_concat, decimPush_hist, ih, List.reverse_concat, List.cons_append]
    cases c.nTaps - 1 with
    | zero => rfl
    | succ n => rw [List.take_succ_cons, List.take_succ_cons, List.take_take, Nat.min_eq_left n.le_succ]

/-- A stream through the filter as one update of the state (R25, R129). -/
theorem decimate_state (c : Cfg) (xs : List Sample) {s : State} (h : FilterOk c s) :
    (decimate c xs s).2 = { s with
      phase := (s.phase + xs.length) % c.m,
      hist := (xs.reverse ++ s.hist).take (c.nTaps - 1) } := by
  obtain ⟨hlen, -⟩ := h.hist
  obtain ⟨-, hphase⟩ := decimate_count xs h.phase
  have hhist := decimate_hist_from c xs hlen.le
  obtain ⟨p, l, e⟩ := decimate_frame c xs s
  rw [← hphase, ← hhist, e]

/-! A `DELIVER` outside a search (R244, R245). -/

/-- A running block outside a search, its skip used up: it filters the next raw sample and gives its
output to the decimated buffer. -/
structure Decoding (s : State) : Prop where
  running : s.halted = false
  noSkip : s.skip = 0
  idle : s.remaining = 0

theorem Decoding.congr {s t : State} (h : Decoding s) (halted : t.halted = s.halted)
    (skip : t.skip = s.skip) (remaining : t.remaining = s.remaining) : Decoding t :=
  ⟨halted.trans h.running, skip.trans h.noSkip, remaining.trans h.idle⟩

theorem Decoding.pumped {s t : State} (h : Decoding s) (writes : PumpWrites s t) : Decoding t := by
  obtain ⟨_, _, _, _, _, _, _, _, _, _, _, _, _, _, rfl⟩ := writes
  exact h.congr rfl rfl rfl

theorem Decoding.decimPush (c : Cfg) (x : Sample) {s : State} (h : Decoding s) :
    Decoding (decimPush c x s).2 := by
  obtain ⟨_, e⟩ := decimPush_frame c x s
  rw [e]
  exact h.congr rfl rfl rfl

/-- One raw sample: the filter takes it, and its output, if there is one, goes to the pump. -/
theorem deliverOne_decoding (c : Cfg) (x : Sample) {s : State} (h : Decoding s) :
    PumpWrites (decimPush c x s).2 (deliverOne c s x) := by
  by_cases hp : s.phase = c.m - 1
  · rw [deliverOne_routed c x h.running h.noSkip hp, route, if_neg (h.decimPush c x).idle.not_gt]
    exact (memWrite_writes c _ _).trans (pumpLoop_writes c _ _)
  · rw [deliverOne_filtered c x h.running h.noSkip hp]
    exact PumpWrites.refl _

/-- The filter runs through the samples as if it stood alone. -/
theorem deliver_decoding (c : Cfg) : ∀ (xs : List Sample) {s : State}, Decoding s →
    PumpWrites (decimate c xs s).2 (deliver c xs s)
  | [], s, _ => PumpWrites.refl s
  | x :: xs, s, h => by
    have hfirst := deliverOne_decoding c x h
    have hrest := deliver_decoding c xs ((h.decimPush c x).pumped hfirst)
    rw [decimate_cons, deliver_cons]
    exact (hfirst.decimate c xs).trans hrest

/-- Where the skip takes all samples, none reaches the filter; where it leaves some, it is used up. -/
theorem deliver_after_skip (c : Cfg) {xs rest : List Sample} {s : State} (hr : s.halted = false)
    (hrem : s.remaining = 0) (hf : FilterOk c s) (hrest : rest = xs.drop s.skip.toNat) :
    PumpWrites { s with
      skip := BitVec.ofNat 28 (s.skip.toNat - xs.length),
      phase := (s.phase + rest.length) % c.m,
      hist := (rest.reverse ++ s.hist).take (c.nTaps - 1) } (deliver c xs s) := by
  have hstate := decimate_state c rest
    (s := { s with skip := BitVec.ofNat 28 (s.skip.toNat - xs.length) }) (hf.congr rfl rfl)
  rw [← hstate, deliver_skip c xs hr, ← hrest]
  by_cases hlen : xs.length ≤ s.skip.toNat
  · have hnone : rest = [] := hrest.trans (List.drop_of_length_le hlen)
    rw [hnone]
    exact PumpWrites.refl _
  · have hskip : BitVec.ofNat 28 (s.skip.toNat - xs.length) = 0 := by
      rw [Nat.sub_eq_zero_of_le (Nat.le_of_not_le hlen)]
      rfl
    exact deliver_decoding c rest ⟨hr, hskip, hrem⟩

/-- Settles O25: the phase and the history are those of the filter alone, and the pump writes neither
them nor any field in front of the buffer. -/
theorem deliverCompletesInDecodeMode : Obligations.DeliverCompletesInDecodeMode := by
  intro ws s hr hrem hfilter xs
  have hturn := deliver_after_skip Config.cfg hr hrem hfilter (rest := xs) List.map_drop
  rw [List.length_map] at hturn
  obtain ⟨_, _, _, _, _, _, _, _, _, _, _, _, _, words, e⟩ := hturn
  have hskip : (BitVec.ofNat 28 (s.skip.toNat - ws.length)).toNat = s.skip.toNat - ws.length := by
    rw [BitVec.toNat_ofNat]
    omega
  refine ⟨_, words, rfl, ?_⟩
  rw [e]
  exact ⟨hskip, rfl, rfl, rfl, rfl, rfl, rfl, rfl, hrem, hr, rfl, rfl, rfl, rfl, rfl⟩

end Sys2Proof.Machine

end

/-! Proofs about the commands that move no sample: what each does in a running block, and that a halted
one ignores all but `RESET` and `READ_REG` (spec/46_orchestrator_host.md R241 to R247, R258;
spec/60_exceptions.md R283): O11, O12, O13, O19, O20. -/

section

namespace Sys2Proof

/-! A header word as the number its fields make (R91, R95). -/

/-- Fields put side by side make the sum of their values, each at its place. -/
theorem toNat_append_eq_add {n m : Nat} (x : BitVec n) (y : BitVec m) :
    (x ++ y).toNat = x.toNat * 2 ^ m + y.toNat := by
  rw [BitVec.toNat_append, ← Nat.shiftLeft_add_eq_or_of_lt y.isLt, Nat.shiftLeft_eq]

theorem toNat_byteHeader (o : BitVec 4) (m : BitVec 20) (b : BitVec 8) :
    (o ++ m ++ b).toNat = o.toNat * 2 ^ 28 + m.toNat * 2 ^ 8 + b.toNat := by
  rw [toNat_append_eq_add, toNat_append_eq_add]
  ring

theorem toNat_lenHeader (o : BitVec 4) (chan : BitVec 12) {n : Nat} (h : n < 2 ^ 16) :
    (o ++ chan ++ BitVec.ofNat 16 n).toNat = o.toNat * 2 ^ 28 + chan.toNat * 2 ^ 16 + n := by
  rw [toNat_append_eq_add, toNat_append_eq_add, BitVec.toNat_ofNat, Nat.mod_eq_of_lt h]
  ring

end Sys2Proof

namespace Sys2Proof.Machine

/-- The header of `REG_VALUE` (R96, R255). -/
theorem regValue_header (index : BitVec 8) :
    (0x6#4 ++ 0#20 ++ index : Word) = BitVec.ofNat 32 (0x60000000 + index.toNat) := by
  apply BitVec.eq_of_toNat_eq
  rw [toNat_byteHeader]
  simp only [BitVec.toNat_ofNat]
  omega

/-- Settles O11. -/
theorem resetRestoresEveryField : Obligations.ResetRestoresEveryField := fun _ _ => rfl

/-- Settles O12. -/
theorem nopChangesNothing : Obligations.NopChangesNothing := fun _ _ => rfl

/-- Settles O13, by whether the block is halted. -/
theorem setSkipReplacesCount : Obligations.SetSkipReplacesCount := by
  intro n s
  refine congrArg Host.Outcome.next ?_
  by_cases hh : s.halted = true
  · rw [if_pos hh, if_pos hh]
  · rw [if_neg hh, if_neg hh]

/-- Settles O19, by cases over the commands: those with an effect on a running block test `halted`, and
a fault is taken once. -/
theorem haltedIgnoresCommands : Obligations.HaltedIgnoresCommands := by
  intro i s hh hcommand hreset hreadReg
  cases i with
  | nop arg => rfl
  | reset arg => exact absurd rfl (hreset arg)
  | readReg index => exact absurd rfl (hreadReg index)
  | setSkip n => exact congrArg Host.Outcome.next (if_pos hh)
  | loadGainTable gains => exact congrArg Host.Outcome.next (loadGains_halted gains hh)
  | deliver samples => exact congrArg Host.Outcome.next (deliver_halted _ _ hh)
  | loadGainTableBad | readRegBad | reserved6 | reserved7 | reserved8 | reserved9 | reservedA
  | reservedB | reservedC | reservedD | reservedE | reservedF =>
    exact congrArg Host.Outcome.next (raiseFatal_halted .cfg hh)
  | applyGain | resetBuffering | onSnr | pushPdu | pushAncillary | regValue | fault => cases hcommand

/-- Settles O20: a post of the register's value. -/
theorem readRegPostsValue : Obligations.ReadRegPostsValue := by
  intro index s
  have hheader : (0x6#4 ++ 0#20 ++ index : Word) = 0x60000000#32 + index.setWidth 32 := by
    rw [regValue_header]
    bv_omega
  rw [← hheader]
  rfl

end Sys2Proof.Machine

end

/-! One more sample in front of a `DELIVER` (spec/20_memory.md R62, spec/40_decimation.md R121,
spec/46_orchestrator_host.md R244, R245): O24. -/

section

namespace Sys2Proof.Machine

/-! The push as one update of the state, by the place of its sample in the group (R121). -/

theorem decimPush_state_last (c : Cfg) (x : Sample) {s : State} (h : s.phase = c.m - 1) :
    (decimPush c x s).2 = { s with phase := 0, hist := (x :: s.hist).take (c.nTaps - 1) } := by
  rw [decimPush, if_pos h]

theorem decimPush_state_inner (c : Cfg) (x : Sample) {s : State} (h : s.phase ≠ c.m - 1) :
    (decimPush c x s).2 =
      { s with phase := s.phase + 1, hist := (x :: s.hist).take (c.nTaps - 1) } := by
  rw [decimPush, if_neg h]

/-! Where a decimated sample goes (R245). -/

theorem route_searching (c : Cfg) (d : Sample) {s : State} (h : 0 < s.remaining) :
    route c d s = snrPush c d s := by
  rw [route, if_pos h]

theorem route_idle (c : Cfg) (d : Sample) {s : State} (h : s.remaining = 0) :
    route c d s = pump c (memWrite c d s) := by
  rw [route, if_neg h.not_gt]

/-- The estimator leaves the decimated buffer alone (R144). -/
theorem SearchTurn.buffer {s t : State} (h : SearchTurn s t) : t.dbuf = s.dbuf ∧ t.used = s.used := by
  obtain ⟨_, _, _, _, _, _, _, _, _, _, -, rfl⟩ := h
  exact ⟨rfl, rfl⟩

/-- A `DELIVER` is its first sample and then the rest (R244). -/
theorem exec_deliver_cons (w : Word) (ws : List Word) (s : State) :
    exec (.deliver (w :: ws)) s =
      exec (.deliver ws) (deliverOne Config.cfg s (sampleOf Config.cfg.wIn w)) := rfl

/-- Settles O24, by the place of the sample in its group and whether a search is on. -/
theorem deliverTakesSamplesInOrder : Obligations.DeliverTakesSamplesInOrder := by
  intro w ws s hr hskip c x d s1
  rw [exec_deliver_cons]
  refine ⟨fun hp => ?inner, fun hp hsearch => ⟨?search, ?buffer⟩, fun hp hidle => ?idle⟩
  case inner => rw [deliverOne_filtered c x hr hskip hp, decimPush_state_inner c x hp]
  case search =>
    rw [deliverOne_routed c x hr hskip hp, decimPush_state_last c x hp]
    exact congrArg (exec (.deliver ws)) (route_searching c d hsearch)
  case idle =>
    rw [deliverOne_routed c x hr hskip hp, decimPush_state_last c x hp]
    exact congrArg (exec (.deliver ws)) (route_idle c d hidle)
  case buffer => exact (snrPush_search c d { s1 with phase := 0 }).buffer

end Sys2Proof.Machine

end

/-! Proofs about the events by themselves: the posts, the fault, and the calls by the answers they get,
listed or free (spec/46_orchestrator_host.md R249 to R256; spec/41_snr_gain.md R148 to R151;
spec/60_exceptions.md R275, R282): O27, O28, O29, O30, O31, O32, O33. -/

section

namespace Sys2Proof.Machine

/-! The posts (R253 to R255). -/

/-- The header of `PUSH_PDU` (R96, R253). -/
theorem pushPdu_header (chan : BitVec 12) {n : Nat} (h : n < 2 ^ 16) :
    (0x4#4 ++ chan ++ BitVec.ofNat 16 n : Word) =
      BitVec.ofNat 32 (0x40000000 + chan.toNat * 2 ^ 16 + n) := by
  apply BitVec.eq_of_toNat_eq
  rw [toNat_lenHeader _ _ h]
  simp only [BitVec.toNat_ofNat]
  omega

/-- The header of `PUSH_ANCILLARY` (R96, R254). -/
theorem pushAncillary_header {n : Nat} (h : n < 2 ^ 16) :
    (0x5#4 ++ 0#12 ++ BitVec.ofNat 16 n : Word) = BitVec.ofNat 32 (0x50000000 + n) := by
  apply BitVec.eq_of_toNat_eq
  rw [toNat_lenHeader _ _ h]
  simp only [BitVec.toNat_ofNat]
  omega

/-- Settles O32: each is the post of its header and payload words. -/
theorem postsOnlyAppendWords : Obligations.PostsOnlyAppendWords := by
  intro chan bytes index value s hlen
  refine ⟨?pdu, ?ancillary, ?register⟩
  case pdu => rw [← pushPdu_header chan hlen]; rfl
  case ancillary => rw [← pushAncillary_header hlen]; rfl
  case register => rw [← regValue_header index]; rfl

/-- Settles O33: the raise, in a running block and in a halted one. -/
theorem firstFaultLatches : Obligations.FirstFaultLatches := by
  refine fun s => ⟨fun hr => ⟨?_, ?_⟩, fun code hh => ?_⟩
  · exact congrArg Host.Outcome.next (raiseFatal_src hr)
  · exact congrArg Host.Outcome.next (raiseFatal_cfg hr)
  · exact congrArg Host.Outcome.next (raiseFatal_halted code hh)

/-! The two calls that test `err` only (R250, R251). -/

/-- Settles O27: one answer without `err` to each of the two. -/
theorem callsTakeOneAnswer : Obligations.CallsTakeOneAnswer := by
  intro value r rest s hret hok
  exact ⟨congrArg Host.Outcome.next (callOrFail_of_ok (.applyGain value) hret hok),
    congrArg Host.Outcome.next (callOrFail_of_ok .resetBuffering hret hok)⟩

/-! The hook's call (R252). -/

section Hook

variable {s : State} {r : Word} {rest : List Word}

theorem askHook_of_err (fig : SnrT) (hr : s.halted = false) (hret : s.ret = r :: rest)
    (herr : retErr r = true) : askHook fig s =
      { s with halted := true, faultCode := some .src, ret := rest,
               evt := s.evt ++ (encode (.onSnr fig) ++ [0x70000001]) } := by
  have hanswer : (call (.onSnr fig) s).1 = r := by rw [call_cons _ hret]
  rw [askHook, hanswer, if_pos herr, raiseFatal_call _ hr hret]

/-- An answer without `err` decides while candidates remain (R148, R151). -/
theorem askHook_of_ok (fig : SnrT) (hret : s.ret = r :: rest) (hok : retErr r = false)
    (hrem : 0 < s.remaining) : askHook fig s =
      gainDecide (retFlag r) { s with ret := rest, evt := s.evt ++ encode (.onSnr fig) } := by
  have herr : ¬ retErr r = true := by rw [hok]; exact Bool.false_ne_true
  simp only [askHook, call_cons _ hret, if_neg herr, if_neg hrem.ne']

end Hook

/-- Settles O28: the raise after each of the three calls. -/
theorem failedCallsTakeSourceFault : Obligations.FailedCallsTakeSourceFault := by
  intro value r rest fig s hr hret herr t
  exact ⟨congrArg Host.Outcome.next (callOrFail_of_err (.applyGain value) hr hret herr),
    congrArg Host.Outcome.next (callOrFail_of_err .resetBuffering hr hret herr),
    congrArg Host.Outcome.next (askHook_of_err fig hr hret herr)⟩

/-- Settles O30: the answer commits, and the best candidate is in force already. -/
theorem hookAnswerCommits : Obligations.HookAnswerCommits := by
  intro fig r rest s hret hok hrem hbest hcommit
  refine congrArg Host.Outcome.next ?_
  rw [askHook_of_ok fig hret hok hrem]
  exact Eq.trans (gainDecide_commit hcommit.symm) (gainCommit_same hbest)

/-- On to the next candidate, both calls answered without `err` (R148, R150). -/
theorem gainDecide_continues {s : State} {a b : Word} {rest : List Word}
    (hnext : s.curIdx + 1 < s.gainTab.length) (hret : s.ret = a :: b :: rest)
    (ha : retErr a = false) (hb : retErr b = false) : gainDecide true s =
      { s with curIdx := s.curIdx + 1, remaining := s.remaining - 1, ret := rest,
               evt := s.evt ++ [0x10000000, s.gainTab[s.curIdx + 1], 0x20000000] } := by
  rw [gainDecide_advance hnext, gainAdvance_eq hnext]
  exact applyGainThenReset_of_ok_ok _ hret ha hb

/-- Settles O31: the answer advances, and both calls of the advance are answered without `err`. -/
theorem hookAnswerContinues : Obligations.HookAnswerContinues := by
  intro fig r a b rest s hnext hret hok hflag ha hb hrem
  refine congrArg Host.Outcome.next ?_
  have hdecide := gainDecide_continues
    (s := { s with ret := a :: b :: rest, evt := s.evt ++ encode (.onSnr fig) }) hnext rfl ha hb
  rw [askHook_of_ok fig hret hok hrem, hflag, hdecide, List.append_assoc]
  rfl

/-! The calls when no answer is listed (R249; log 4). -/

section Free

variable {s : State}

/-- `Fatal(SRC)` in either mode, with the word that is posted written out (R256, R282, R283). -/
theorem raiseFatal_src_eq (s : State) : raiseFatal .src s =
    if s.halted = true then s
    else { s with halted := true, faultCode := some .src, evt := s.evt ++ [0x70000001] } := rfl

/-- After its words a call takes a free answer: with `err` it raises `Fatal(SRC)`, else `go` follows. -/
theorem call_free (e : Instr) (go : State → State) (hret : s.ret = []) :
    (if retErr (call e s).1 = true then raiseFatal .src (call e s).2 else go (call e s).2) =
      if retErr (Config.hostAnswer s.retFree) = true then
        if s.halted = true then { s with retFree := s.retFree + 1, evt := s.evt ++ encode e }
        else { s with retFree := s.retFree + 1, halted := true, faultCode := some .src,
                      evt := s.evt ++ encode e ++ [0x70000001] }
      else go { s with retFree := s.retFree + 1, evt := s.evt ++ encode e } := by
  rw [call_nil e hret, raiseFatal_src_eq]

/-- What the hook's answer `r` makes the controller do when it is no `err` (R148, R151). -/
def actOnAnswer (r : Word) (s : State) : State :=
  if s.remaining = 0 then s
  else if retFlag r = false ∨ s.gainLen ≤ s.curIdx + 1 then gainCommit s else gainAdvance s

theorem askHook_eq_actOnAnswer (fig : SnrT) (s : State) : askHook fig s =
    if retErr (call (.onSnr fig) s).1 = true then raiseFatal .src (call (.onSnr fig) s).2
    else actOnAnswer (call (.onSnr fig) s).1 (call (.onSnr fig) s).2 := by
  simp only [askHook, actOnAnswer, gainDecide, ge_iff_le, or_comm]

theorem askHook_free (fig : SnrT) (hret : s.ret = []) : askHook fig s =
    if retErr (call (.onSnr fig) s).1 = true then raiseFatal .src (call (.onSnr fig) s).2
    else actOnAnswer (Config.hostAnswer s.retFree) (call (.onSnr fig) s).2 := by
  rw [askHook_eq_actOnAnswer]
  simp only [call_nil _ hret]

end Free

/-- Settles O29: all three calls take their free answer alike, and only the hook acts on it. -/
theorem unlistedAnswersAreFree : Obligations.UnlistedAnswersAreFree := by
  intro s value fig hret r s1 answered
  have hgain := call_free (.applyGain value) id hret
  have hbuffering := call_free .resetBuffering id hret
  have hhook := (askHook_free fig hret).trans (call_free (.onSnr fig) (actOnAnswer r) hret)
  exact ⟨congrArg Host.Outcome.next hgain, congrArg Host.Outcome.next hbuffering,
    congrArg Host.Outcome.next hhook⟩

end Sys2Proof.Machine

end

/-! The three error counters decide nothing (spec/60_exceptions.md R287, spec/10_state.md R35): no
operation that a `DELIVER` reaches reads them, so what it leaves beside them does not depend on them.
This holds of the assignments that an operation is made of, where it is `rfl`, and is kept by sequencing,
branching, reading other fields and looping. -/

section

namespace Sys2Proof.Machine

open Sys2Proof.Safety

/-- The state with its three counters at 0: all of it but the counters. -/
def uncounted (s : State) : State := withCounters 0 0 0 s

/-- States that differ in their counters only are one state with its counters replaced. -/
theorem exists_eq_withCounters {s t : State} (h : uncounted s = uncounted t) :
    ∃ f p l, s = withCounters f p l t := by
  have hrestored := congrArg (withCounters s.frameErrCnt s.payloadErrCnt s.lockLossCnt) h
  exact ⟨s.frameErrCnt, s.payloadErrCnt, s.lockLossCnt, hrestored⟩

/-- The operation does not read the counters: what it leaves beside them is the same from any values of
them. It may count. -/
def CounterBlind (op : State → State) : Prop := ∀ s, uncounted (op (uncounted s)) = uncounted (op s)

namespace CounterBlind

theorem congr {op : State → State} (h : CounterBlind op) {s t : State}
    (hst : uncounted s = uncounted t) : uncounted (op s) = uncounted (op t) := by
  rw [← h s, hst, h t]

/-! What keeps an operation blind to the counters. -/

theorem unchanged : CounterBlind fun s => s := fun _ => rfl

theorem comp {g f : State → State} (hg : CounterBlind g) (hf : CounterBlind f) :
    CounterBlind fun s => g (f s) := fun s => hg.congr (hf s)

/-- A branch on a condition that the counters have no part in. -/
theorem ite {P : State → Prop} {_ : DecidablePred P} {f g : State → State}
    (hf : CounterBlind f) (hg : CounterBlind g)
    (hread : ∀ s, P (uncounted s) ↔ P s := by exact fun _ => Iff.rfl) :
    CounterBlind fun s => if P s then f s else g s := by
  intro s
  by_cases h : P s
  · simpa only [if_pos h, if_pos ((hread s).2 h)] using hf s
  · simpa only [if_neg h, if_neg (mt (hread s).1 h)] using hg s

/-- An operation whose argument is read off the state. -/
theorem reading {α : Type} (read : State → α) {op : α → State → State}
    (hop : ∀ a, CounterBlind (op a))
    (hread : ∀ s, read (uncounted s) = read s := by exact fun _ => rfl) :
    CounterBlind fun s => op (read s) s := fun s => by
  simpa only [hread] using hop (read s) s

/-- An operation that goes on from the answer of another, which neither reads the counters nor
counts. -/
theorem answered {α : Type} {ask : State → α × State} {op : α → State → State}
    (hask : ∀ s, ask (uncounted s) = ((ask s).1, uncounted (ask s).2))
    (hop : ∀ a, CounterBlind (op a)) : CounterBlind fun s => op (ask s).1 (ask s).2 := fun s => by
  simpa only [hask] using hop (ask s).1 (ask s).2

theorem foldl {α : Type} {op : State → α → State} (hop : ∀ a, CounterBlind fun s => op s a) :
    ∀ l : List α, CounterBlind fun s => l.foldl op s
  | [] => unchanged
  | a :: l => (foldl hop l).comp (hop a)

end CounterBlind

/-! The channels and the fault (R249, R282). -/

theorem call_uncounted (e : Instr) (s : State) :
    call e (uncounted s) = ((call e s).1, uncounted (call e s).2) := by
  cases h : s.ret with
  | nil => rw [call_nil e h, call_nil (s := uncounted s) e h]; rfl
  | cons r rest => rw [call_cons e h, call_cons (s := uncounted s) e h]; rfl

theorem raiseFatal_counterBlind (code : FatalCode) : CounterBlind (raiseFatal code) :=
  .ite .unchanged fun _ => rfl

theorem callOrFail_counterBlind (e : Instr) : CounterBlind (callOrFail e) :=
  .answered (call_uncounted e) (op := fun r s => if retErr r then raiseFatal .src s else s) fun _ =>
    .ite (raiseFatal_counterBlind .src) .unchanged

theorem applyGainThenReset_counterBlind (g : Word) : CounterBlind (applyGainThenReset g) :=
  .answered (call_uncounted (.applyGain g))
    (op := fun r s => if retErr r then raiseFatal .src s else callOrFail .resetBuffering s) fun _ =>
    .ite (raiseFatal_counterBlind .src) (callOrFail_counterBlind .resetBuffering)

/-! The estimator and the controller (R141 to R151). -/

theorem gainCommit_counterBlind : CounterBlind gainCommit :=
  .ite
    (.reading (fun s => gainAt s s.bestIdx)
      (op := fun g s => applyGainThenReset g { s with curIdx := s.bestIdx, remaining := 0 }) fun g =>
      (applyGainThenReset_counterBlind g).comp fun _ => rfl)
    fun _ => rfl

theorem gainAdvance_counterBlind : CounterBlind gainAdvance :=
  .reading (fun s => gainAt s (s.curIdx + 1))
    (op := fun g s =>
      applyGainThenReset g { s with curIdx := s.curIdx + 1, remaining := s.remaining - 1 }) fun g =>
    (applyGainThenReset_counterBlind g).comp fun _ => rfl

theorem gainDecide_counterBlind (cont : Bool) : CounterBlind (gainDecide cont) :=
  .ite gainCommit_counterBlind gainAdvance_counterBlind

theorem recordBest_counterBlind (fig : SnrT) : CounterBlind (recordBest fig) :=
  .ite (fun _ => rfl) .unchanged

theorem askHook_counterBlind (fig : SnrT) : CounterBlind (askHook fig) :=
  .answered (call_uncounted (.onSnr fig))
    (op := fun r s => if retErr r then raiseFatal .src s
      else if s.remaining = 0 then s else gainDecide (retFlag r) s) fun _ =>
    .ite (raiseFatal_counterBlind .src) <|
    .ite .unchanged (gainDecide_counterBlind _)

theorem gainStep_counterBlind (c : Cfg) (fig : SnrT) : CounterBlind (gainStep c fig) :=
  have hrecord := recordBest_counterBlind fig
  .ite .unchanged <|
  .ite
    ((askHook_counterBlind fig).comp hrecord)
    (.comp (g := fun s => gainDecide (!ltDrop c fig s.bestSnr) s)
      (.reading State.bestSnr (op := fun best s => gainDecide (!ltDrop c fig best) s) fun _ =>
        gainDecide_counterBlind _) hrecord)

theorem snrPush_counterBlind (c : Cfg) (d : Sample) : CounterBlind (snrPush c d) :=
  .ite
    (.reading State.snrWin
      (op := fun win s => gainStep c (snrEstimate c (win ++ [d])) { s with snrWin := [] }) fun _ =>
      (gainStep_counterBlind c _).comp fun _ => rfl)
    fun _ => rfl

/-! Decode, Frame, Synchronization and Acquisition, which count (R171, R186 to R189, R212 to R214,
R226, R231). -/

theorem decRegion_counterBlind (c : Cfg) (r : Region) : CounterBlind fun s => decRegion c s r := by
  unfold decRegion
  cases decodePayload c r with
  | none => exact fun _ => rfl
  | some payload => exact fun _ => rfl

theorem frameComplete_counterBlind (c : Cfg) : CounterBlind (frameComplete c) :=
  .ite
    (.reading (fun s => c.frameSplit s.frmBuf)
      (op := fun regions s => regions.foldl (decRegion c) { s with frmBuf := [] }) fun regions =>
      (CounterBlind.foldl (decRegion_counterBlind c) regions).comp fun _ => rfl)
    fun _ => rfl

theorem frameStore_counterBlind (c : Cfg) (syms : List Symbol) : CounterBlind (frameStore c syms) :=
  .ite ((frameComplete_counterBlind c).comp fun _ => rfl) fun _ => rfl

theorem frameSymbol_counterBlind (c : Cfg) (sym : Symbol) : ∀ pos : Option Nat,
    CounterBlind (frameSymbol c sym pos)
  | none => .unchanged
  | some _ => .ite
      (.reading State.frmBuf (op := fun syms s => frameStore c (syms ++ [sym]) s) fun _ =>
        frameStore_counterBlind c _)
      (.ite (frameStore_counterBlind c [sym]) fun _ => rfl)

theorem trackUpdate_uncounted (c : Cfg) (q : Int) (s : State) : trackUpdate c q (uncounted s) =
    ((trackUpdate c q s).1, uncounted (trackUpdate c q s).2) := by
  change _ = Prod.map id uncounted (trackUpdate c q s)
  simp only [trackUpdate, apply_ite (Prod.map id uncounted)]
  rfl

theorem judged_counterBlind (c : Cfg) (o : SyncResult) (lost : Bool) :
    CounterBlind fun s => judged c o (lost, s) :=
  .ite (fun _ => rfl) (frameSymbol_counterBlind c o.sym o.pos)

theorem syncSymbol_counterBlind (c : Cfg) : CounterBlind (syncSymbol c) :=
  .reading (fun s => c.syncStep s.ctx (memRead 0 c.symMax s))
    (op := fun o s => judged c o (trackUpdate c o.q (consume o.adv { s with ctx := o.ctx }))) fun o =>
    (CounterBlind.answered (trackUpdate_uncounted c o.q) (judged_counterBlind c o)).comp fun _ => rfl

theorem acqStep_counterBlind (c : Cfg) : CounterBlind (acqStep c) :=
  .ite (.ite (fun _ => rfl) fun _ => rfl) fun _ => rfl

/-! The orchestrator (R244 to R246). -/

/-- The pump's loop with its turn written out (R246). -/
theorem pumpLoop_succ (c : Cfg) (fuel : Nat) (s : State) : pumpLoop c (fuel + 1) s =
    if s.halted then s
    else if s.lock ≠ .locked ∧ c.acqWin ≤ occupancy s then pumpLoop c fuel (acqStep c s)
    else if s.lock = .locked ∧ c.symMax ≤ occupancy s then pumpLoop c fuel (syncSymbol c s)
    else s := by
  rw [pumpLoop, pumpTurn]
  split_ifs <;> rfl

theorem pumpLoop_counterBlind (c : Cfg) : ∀ fuel : Nat, CounterBlind (pumpLoop c fuel)
  | 0 => .unchanged
  | fuel + 1 => by
    have ih := pumpLoop_counterBlind c fuel
    rw [funext (pumpLoop_succ c fuel)]
    exact .ite .unchanged <|
      .ite (ih.comp (acqStep_counterBlind c)) <|
      .ite (ih.comp (syncSymbol_counterBlind c)) .unchanged

theorem pump_counterBlind (c : Cfg) : CounterBlind (pump c) :=
  .reading occupancy (op := fun n s => pumpLoop c (2 * n + 2) s) fun _ =>
    pumpLoop_counterBlind c _

theorem route_counterBlind (c : Cfg) (d : Sample) : CounterBlind (route c d) :=
  .ite (snrPush_counterBlind c d) ((pump_counterBlind c).comp fun _ => rfl)

theorem decimPush_uncounted (c : Cfg) (x : Sample) (s : State) :
    decimPush c x (uncounted s) = ((decimPush c x s).1, uncounted (decimPush c x s).2) := by
  change _ = Prod.map id uncounted (decimPush c x s)
  simp only [decimPush, apply_ite (Prod.map id uncounted)]
  rfl

/-- What `DELIVER` does with the filter's answer: it routes the output, if there is one (R244). -/
def routeOutput (c : Cfg) : Option Sample → State → State
  | none, s => s
  | some d, s => route c d s

theorem deliverOne_eq_routeOutput (c : Cfg) (x : Sample) (s : State) : deliverOne c s x =
    if s.halted then s
    else if 0 < s.skip then { s with skip := s.skip - 1 }
    else routeOutput c (decimPush c x s).1 (decimPush c x s).2 := by
  unfold deliverOne
  rcases decimPush c x s with ⟨_ | d, t⟩ <;> rfl

theorem routeOutput_counterBlind (c : Cfg) : ∀ out : Option Sample, CounterBlind (routeOutput c out)
  | none => .unchanged
  | some d => route_counterBlind c d

theorem deliverOne_counterBlind (c : Cfg) (x : Sample) : CounterBlind fun s => deliverOne c s x := by
  rw [funext (deliverOne_eq_routeOutput c x)]
  exact .ite .unchanged <|
    .ite (fun _ => rfl) (.answered (decimPush_uncounted c x) (routeOutput_counterBlind c))

theorem deliver_counterBlind (c : Cfg) (xs : List Sample) : CounterBlind (deliver c xs) :=
  .foldl (deliverOne_counterBlind c) xs

/-- Settles O60: a `DELIVER` is blind to the counters, so from states that differ in these only it
leaves states that differ in these only. -/
theorem countersDecideNothing : Obligations.CountersDecideNothing := by
  intro c ws f p l s t h
  obtain rfl : deliver c (ws.map (sampleOf c.wIn)) s = t := Host.Outcome.next.inj h
  obtain ⟨f', p', l', e⟩ := exists_eq_withCounters
    ((deliver_counterBlind c (ws.map (sampleOf c.wIn))).congr
      (show uncounted (withCounters f p l s) = uncounted s from rfl))
  exact ⟨f', p', l', congrArg Host.Outcome.next e⟩

end Sys2Proof.Machine

end
